-- ==== Sys2Proof/Word.lean ====
section
/-! DEFINITION. The words that cross the block's ports: a binary32 word (00_scope R12, 30_encoding R61),
the four parameter values of a snapshot (R22, R69), and the two samples of one frame (R21). -/

namespace Sys2Proof

/-- A binary32 word, bit 31 its sign (R12). -/
abbrev Word := BitVec 32

/-- The named encodings of R13. -/
abbrev fZero : Word := 0x00000000#32
abbrev fNegZero : Word := 0x80000000#32
abbrev fOne : Word := 0x3F800000#32
abbrev fNegOne : Word := 0xBF800000#32
abbrev fMax : Word := 0x7F7FFFFF#32
abbrev fInf : Word := 0x7F800000#32
abbrev fNInf : Word := 0xFF800000#32
/-- The NaN that the assembler word `nan` means (R66). No rule promises it as a result (R85). -/
abbrev fQNaN : Word := 0x7FC00000#32
abbrev f1024 : Word := 0x44800000#32
abbrev f4M : Word := 0x4A800000#32

/-- Four parameter values: what the P bundle carries (R69) and what a snapshot holds (R22).
`res` is residue mode, 1 = true (R62). -/
structure Params where
  wet  : Word
  add  : Word
  mult : Word
  res  : Bool
deriving DecidableEq, Repr

/-- One frame: the sample of channel 0 and the sample of channel 1 at one position (R21). -/
structure Frame where
  ch0 : Word
  ch1 : Word
deriving DecidableEq, Repr

end Sys2Proof
end

