-- ==== Sys2Proof/Config.lean ====
section
/-! DEFINITION. What is fixed for one block (00_scope R6, 10_state R23) and the values the spec leaves open. -/

namespace Sys2Proof

/-- `SUB_BLOCK`: frames per sub-block (R6). -/
def subBlock : Nat := 128

/-- `CHANNELS`: stereo in, stereo out (R6, 90_conflicts C6). -/
def channelCount : Nat := 2

/-- The parameter defaults (R6, R69). -/
def Params.defaults : Params := { wet := fOne, add := fZero, mult := fOne, res := false }

/-- `SUBNORMAL_MODE` (R6, R16; 92_eei_decisions D8). -/
inductive SubnormalMode where
  /-- Every operand is used as encoded and subnormal results are kept. -/
  | ieee
  /-- Subnormal operands are read as zeros and subnormal results become zeros, of the same sign. -/
  | ftzDaz
deriving DecidableEq, Repr

/-- The configuration of one block instance: the OPEN parameter that a rule of the block reads (R6, R23).
`State` carries it, so that a statement about every state is a statement about both modes (log entry 1). -/
structure Config where
  subnormal : SubnormalMode
deriving DecidableEq, Repr

/-- FREE VALUE (R85; D9, I2): the bits drawn for the n-th NaN result. Nothing in the model can evaluate it
(log entry 2). -/
opaque Config.freeNaN : Nat → BitVec 32

/-- `SKEW_ADD` and `SKEW_MULT`: the OPEN exponents of the host-side skew mapping (R6, R73; D18).
No rule of the block reads them, and nothing in the model does (log entry 13). -/
opaque Config.skewAdd : Rat
opaque Config.skewMult : Rat

end Sys2Proof
end

