-- ==== Sys2Proof/Syntax.lean ====
section
/-! DEFINITION. The commands of the block, one constructor per row of the opcode table (30_encoding R57, R64). -/

namespace Sys2Proof

/-- A command. Its operands are the two sample words of format C (R54, R63); the parameter bundle and the reset
input are ports of the transaction and not part of the command (R51). -/
inductive Instr where
  /-- `cmd = 00`, NOP (R80). -/
  | nop
  /-- `cmd = 01`, BEGIN: start of a host callback (R81). -/
  | begin
  /-- `cmd = 10`, FRAME with the samples of channels 0 and 1 (R110). -/
  | frame (x0 x1 : Word)
  /-- `cmd = 11`, the reserved code, which behaves as NOP (R58). -/
  | rsvd
deriving DecidableEq, Repr

end Sys2Proof
end

