-- ==== Sys2Proof/WellFormed.lean ====
section
/-! DEFINITION. What is checked of a command and of what a host hands over. -/

namespace Sys2Proof

/-- Every command is well formed: no value of a sample word is an illegal encoding (30_encoding R63). -/
def Instr.wf : Instr → Bool
  | .nop => true
  | .begin => true
  | .frame _ _ => true
  | .rsvd => true

/-- The parameter contract the host keeps and the block does not check (40_parameter_sampler R69, R70). The words
are the encodings that R27, R28 and R29 list as legal. -/
def Params.inContract (p : Params) : Bool :=
  decide (p.wet.toNat ≤ fOne.toNat) && decide (p.add.toNat ≤ f4M.toNat) &&
    (decide (fOne.toNat ≤ p.mult.toNat) && decide (p.mult.toNat ≤ f1024.toNat))

/-- A buffer a host hands over has exactly two channels (R38, R118; C6). -/
def channelCountOk (channels : List (List Word)) : Bool := channels.length == channelCount

/-- Its channels are of equal length (R21, R38). -/
def channelLengthsOk (channels : List (List Word)) : Bool :=
  channels.all fun c => c.length == (channels.headD []).length

end Sys2Proof
end

