-- ==== Sys2Proof/Decode.lean ====
section
/-! DEFINITION. The interface formats C, P and Y and the command map (30_encoding R54 to R64): decoder, then encoder. -/

namespace Sys2Proof

/-! ## Format C: the command packet, 66 bits (R54) -/

def packetCmd (c : BitVec 66) : BitVec 2 := c.extractLsb' 0 2
def packetX0 (c : BitVec 66) : Word := c.extractLsb' 2 32
def packetX1 (c : BitVec 66) : Word := c.extractLsb' 34 32

/-- The command of a packet (R57, R64). All four codes have a meaning, so no packet is refused (R58, R63); the
sample fields of every command but FRAME are don't-care (R59). -/
def decode (c : BitVec 66) : Instr :=
  if packetCmd c = 0b00#2 then .nop
  else if packetCmd c = 0b01#2 then .begin
  else if packetCmd c = 0b10#2 then .frame (packetX0 c) (packetX1 c)
  else .rsvd

/-- Why a number is not a command packet. -/
inductive DecodeReject where
  /-- It has a bit at or above bit 66, and every packet is 66 bits (R50, R54, R60). Raised by `decodeNumber`; safe. -/
  | widerThanPacket
deriving DecidableEq, Repr

/-- Decoding of a packet given as a number. -/
def decodeNumber (w : Nat) : Except DecodeReject Instr :=
  if w < 2 ^ 66 then .ok (decode (BitVec.ofNat 66 w)) else .error .widerThanPacket

/-- What the decoder reads from the low `nbits` bits of `w`, the bits above them zero. -/
def decodeTableWord (nbits w : Nat) : Option Instr := (decodeNumber (w % 2 ^ nbits)).toOption

/-! ## Formats P and Y (R55, R56) -/

/-- The parameter bundle's fields: `p_wet` [31:0], `p_add` [63:32], `p_mult` [95:64], `p_res` [96] (R55). -/
def unpackP (p : BitVec 97) : Params :=
  { wet := p.extractLsb' 0 32, add := p.extractLsb' 32 32, mult := p.extractLsb' 64 32, res := p.getLsbD 96 }

/-- The samples of an output bundle: `y_valid` [0], `y0` [32:1], `y1` [64:33] (R56). With `y_valid = 0` the
bundle carries no value (R52). -/
def unpackY (y : BitVec 65) : Option Frame :=
  if y.getLsbD 0 then some { ch0 := y.extractLsb' 1 32, ch1 := y.extractLsb' 33 32 } else none

/-! ## Encoders -/

/-- The code of a command (R57). -/
def Instr.code : Instr → BitVec 2
  | .nop => 0b00#2
  | .begin => 0b01#2
  | .frame _ _ => 0b10#2
  | .rsvd => 0b11#2

/-- The packet of a command: `x1 << 34 | x0 << 2 | cmd` (R54), with zeros in the fields the command does not
read (R59; log entry 11). -/
def encode (i : Instr) : BitVec 66 :=
  match i with
  | .nop => (0#32 ++ 0#32) ++ Instr.code .nop
  | .begin => (0#32 ++ 0#32) ++ Instr.code .begin
  | .frame x0 x1 => (x1 ++ x0) ++ Instr.code (.frame x0 x1)
  | .rsvd => (0#32 ++ 0#32) ++ Instr.code .rsvd

/-- The bundle of four parameter values (R55). -/
def packP (p : Params) : BitVec 97 := ((BitVec.ofBool p.res ++ p.mult) ++ p.add) ++ p.wet

/-- The output bundle. `wires` is what the sample wires carry when `y_valid = 0`: any value (R52; D24, I5). -/
def packY (wires : BitVec 64) (y : Option Frame) : BitVec 65 :=
  match y with
  | some f => (f.ch1 ++ f.ch0) ++ 1#1
  | none => wires ++ 0#1

/-! ## The command map as the opcode table gives it (R64) -/

structure OpcodeRow where
  mnemonic : String
  matchBits : Nat
  maskBits : Nat
deriving DecidableEq, Repr

def opcodeTable : List OpcodeRow :=
  [⟨"NOP", 0x0, 0x3⟩, ⟨"BEGIN", 0x1, 0x3⟩, ⟨"FRAME", 0x2, 0x3⟩, ⟨"RSVD", 0x3, 0x3⟩]

/-- A packet matches a row when its bits under the row's mask are the row's. -/
def OpcodeRow.matchesPacket (r : OpcodeRow) (c : BitVec 66) : Bool := (c.toNat &&& r.maskBits) == r.matchBits

def Instr.mnemonic : Instr → String
  | .nop => "NOP"
  | .begin => "BEGIN"
  | .frame _ _ => "FRAME"
  | .rsvd => "RSVD"

end Sys2Proof
end

