-- ==== Sys2Proof/Machine/State.lean ====
section
/-! DEFINITION. The state: the five elements of 10_state R22, the ports of 30_encoding R51 and R52, the host's audio
buffer (20_memory R38) and what the host is still to present. -/

namespace Sys2Proof.Machine

/-- The host's audio buffer, the only memory of the system: two channels of binary32 words (20_memory R37, R38). -/
structure Memory where
  ch0 : List Word
  ch1 : List Word
deriving DecidableEq, Repr

/-- `M`: the number of frames of the buffer (R38). -/
def Memory.frames (b : Memory) : Nat := b.ch0.length

/-- The canonical form of a buffer: its two channels are of equal length (R21, R38). -/
def Memory.wf (b : Memory) : Bool := b.ch0.length == b.ch1.length

/-- One thing the host does. Each but `supply` is exactly one transaction on the block's interface (R50, R114). -/
inductive HostEvent where
  /-- The host presents a command packet (format C), a parameter bundle (format P) and the reset input (R50). -/
  | present (rst : Bool) (c : BitVec 66) (p : BitVec 97)
  /-- A callback supplies a fresh buffer and nothing is presented to the block: what a host does that skips BEGIN at the
  start of a callback (R37, R134; log entry 7). -/
  | supply (channels : List (List Word))
  /-- The first line of PROCESS_BUFFER: a callback supplies a fresh buffer and issues BEGIN (R37, R114). -/
  | callback (channels : List (List Word)) (p : BitVec 97)
  /-- One turn of its loop: FRAME on the samples at position `f`, and their write-back (R44, R114). -/
  | frameAt (f : Nat) (p : BitVec 97)
deriving DecidableEq, Repr

/-- The machine. `sWet`, `sAdd`, `sMult`, `sRes` and `pos` are the block's whole architectural state (R22). The other
fields are the ports, the host's side of the interface and the model's own: see INVENTORY.md. -/
structure State where
  /-- `S_WET`, the wet/dry fraction of the current sub-block (R27). -/
  sWet  : Word
  /-- `S_ADD`, its add amount (R28). -/
  sAdd  : Word
  /-- `S_MULT`, its multiply amount (R29). -/
  sMult : Word
  /-- `S_RES`, its residue mode (R30). -/
  sRes  : Bool
  /-- `POS`, the position of the next frame within the current sub-block (R31). -/
  pos   : BitVec 7
  /-- The P bundle on the input port in the current transaction (R51). -/
  inP   : Params
  /-- The output port: the samples of the last transaction, `none` where `y_valid = 0` (R52; I5). -/
  out   : Option Frame
  /-- The buffer of the host's current callback (R38). -/
  buf   : Memory
  /-- What the host is still to present, the next first (R25, R45). -/
  script : List HostEvent
  /-- The model's own: how many NaN draws have been set aside so far (R85; log entry 2). -/
  draws : Nat
  /-- The block's configuration, which nothing writes (R23; log entry 1). -/
  cfg   : Config
deriving DecidableEq, Repr

/-- The block never faults: no command and no operand value causes a trap (60_exceptions R116, R129). So this type
has no constructor, and nothing raises one. -/
inductive Fault : Type
deriving DecidableEq, Repr

/-- Why a step is refused. -/
inductive Refusal where
  /-- A command without a meaning yet. Raised by no arm of `exec`; safe. -/
  | notModelled (mnemonic : String)
  /-- A callback whose buffer does not have exactly two channels, a host error refused at the interface
  (R38, R118, R129; I8). Raised by `supplyBuffer`; safe. -/
  | channelCount
  /-- A callback whose channels are not of equal length, so that it is no audio buffer (R21, R38).
  Raised by `supplyBuffer`; safe. -/
  | channelLengths
  /-- A buffer position outside `[0, M)`, a host error refused at the interface (R38, R118, R129; I8).
  Raised by `runFrameAt`; safe. -/
  | bufferPosition
deriving DecidableEq, Repr

/-- Power-on, which is the same as a reset transaction (70_reset_and_hazards R130): the block's registers as
10_state R35 gives them, the default parameter bundle on the port (R67), no output, and a host that has not yet
supplied a buffer or anything to present (log entries 1 to 6 and 9). -/
def State.reset : State :=
  { sWet := 0x3F800000#32, sAdd := 0x00000000#32, sMult := 0x3F800000#32, sRes := false, pos := 0#7,
    inP := Params.defaults, out := none, buf := { ch0 := [], ch1 := [] }, script := [], draws := 0,
    cfg := { subnormal := .ieee } }

end Sys2Proof.Machine
end

