-- ==== Sys2Proof/Machine/Operands.lean ====
section
/-! DEFINITION. How an operand word is read (00_scope R12, R16), and which snapshot a FRAME uses (40_parameter_sampler R75). -/

namespace Sys2Proof.Machine

/-! ## The fields of a binary32 word (R12) -/

/-- `s = w[31]`. -/
def signBit (w : Word) : Bool := w.getLsbD 31
/-- `e = w[30:23]`. -/
def expField (w : Word) : Nat := (w.extractLsb' 23 8).toNat
/-- `f = w[22:0]`. -/
def fracField (w : Word) : Nat := (w.extractLsb' 0 23).toNat

/-- The word of sign `neg` whose bits [30:0] are the number `mag`. -/
def mkWord (neg : Bool) (mag : Nat) : Word := BitVec.ofBool neg ++ BitVec.ofNat 31 mag

def zeroOf (neg : Bool) : Word := mkWord neg 0
def infOf (neg : Bool) : Word := mkWord neg 0x7F800000

/-- The magnitude of a finite word, counted in units of 2^-149: `f` units when `e = 0`, and
`(2^23 + f) × 2^(e-1)` units otherwise (R12). -/
def magUnits (w : Word) : Nat :=
  if expField w = 0 then fracField w else (2 ^ 23 + fracField w) * 2 ^ (expField w - 1)

/-- The value of a finite word, counted in units of 2^-149. -/
def units (w : Word) : Int := if signBit w then -(magUnits w : Int) else (magUnits w : Int)

/-! ## Input conditioning (R16) -/

def isSubnormal32 (w : Word) : Bool := expField w == 0 && fracField w != 0

/-- The operand an arithmetic primitive or a comparison reads: under `FTZ_DAZ` a subnormal is read as a zero of
the same sign (R16). -/
def condition (m : SubnormalMode) (w : Word) : Word :=
  match m with
  | .ieee => w
  | .ftzDaz => if isSubnormal32 w then zeroOf (signBit w) else w

/-! ## The snapshot (R75) -/

/-- The four snapshot registers, together. -/
def State.snapshot (s : State) : Params := { wet := s.sWet, add := s.sAdd, mult := s.sMult, res := s.sRes }

/-- The snapshot a FRAME uses: the P bundle when `POS = 0`, and the registers otherwise (R75, R76). -/
def State.frameParams (s : State) : Params := if s.pos = 0#7 then s.inP else s.snapshot

end Sys2Proof.Machine
end

