-- ==== Sys2Proof/Machine/Flags.lean ====
section
/-! DEFINITION. The tests the data path makes. The block has no status flag, condition code or floating-point exception
flag (10_state R26, 60_exceptions R117), so no test is recorded anywhere: each selects between two words. -/

namespace Sys2Proof.Machine

/-- 00_scope R14. -/
def isFinite32 (w : Word) : Bool := expField w != 0xFF
/-- 00_scope R14. -/
def isNaN32 (w : Word) : Bool := expField w == 0xFF && fracField w != 0
/-- An infinity: `e = 0xFF` and `f = 0` (R12). -/
def isInf32 (w : Word) : Bool := expField w == 0xFF && fracField w == 0
/-- A zero of either sign: `e = 0` and `f = 0` (R12). -/
def isZero32 (w : Word) : Bool := expField w == 0 && fracField w == 0

/-- The order of two words that are no NaNs: an infinity is beyond every finite word of its side, and the two
zeros are equal (R12, R20). -/
def valueLt (a b : Word) : Bool :=
  if isInf32 a then signBit a && !(isInf32 b && signBit b)
  else if isInf32 b then !signBit b
  else decide (units a < units b)

/-- 00_scope R20, on operands conditioned as R16 says. -/
def flt32 (m : SubnormalMode) (a b : Word) : Bool :=
  !isNaN32 (condition m a) && !isNaN32 (condition m b) && valueLt (condition m a) (condition m b)

/-- 00_scope R20. -/
def fgt32 (m : SubnormalMode) (a b : Word) : Bool := flt32 m b a

/-- 41_distortion_path R92: the word itself unless it is below `lo` or above `hi`; a NaN passes. -/
def clampF (m : SubnormalMode) (v lo hi : Word) : Word :=
  if flt32 m v lo then lo else if fgt32 m v hi then hi else v

end Sys2Proof.Machine
end

