-- ==== Sys2Proof/Machine/Arith.lean ====
section
/-! DEFINITION. The binary32 arithmetic primitives: round to nearest, ties to even, computed exactly on integers and
rounded once (00_scope R15 to R19). -/

namespace Sys2Proof.Machine

/-! ## NaN results (41_distortion_path R85) -/

/-- The NaN that drawn bits stand for: their sign and fraction, the exponent `0xFF`, and a quiet NaN where their
fraction is zero. Every NaN word is the NaN of its own bits. -/
def nanOf (d : BitVec 32) : Word :=
  if fracField d = 0 then mkWord (signBit d) 0x7FC00000 else mkWord (signBit d) (0x7F800000 + fracField d)

/-- The n-th NaN draw: some NaN (R85; log entry 2). -/
def nanDraw (n : Nat) : Word := nanOf (Config.freeNaN n)

/-! ## Rounding (R15) -/

/-- The bits [30:0] of the finite word nearest to the magnitude `n / d` units of 2^-149, ties to the even fraction
field. Where the magnitude's spacing is `2^k` units, the word of `q` spacings is `k × 2^23 + q`: a rounding up of
the fraction field carries into the exponent field. -/
def nearestMag (n d : Nat) : Nat :=
  let k := Nat.log2 (n / d) - 23
  let spacing := d * 2 ^ k
  let q := n / spacing
  let rest := n % spacing
  if spacing < 2 * rest ∨ (spacing = 2 * rest ∧ q % 2 = 1) then k * 2 ^ 23 + q + 1 else k * 2 ^ 23 + q

/-- `round32` of the nonzero real `±(n / d) × 2^-149` (R15): an infinity from `2^128 - 2^103` on, which is
`(2^25 - 1) × 2^252` units, and the nearest finite word below it. Under `FTZ_DAZ` a subnormal result becomes a zero of
the same sign (R15, R16; log entry 10). -/
def round32 (m : SubnormalMode) (neg : Bool) (n d : Nat) : Word :=
  if (2 ^ 25 - 1) * 2 ^ 252 * d ≤ n then infOf neg
  else
    let w := mkWord neg (nearestMag n d)
    match m with
    | .ieee => w
    | .ftzDaz => if isSubnormal32 w then zeroOf neg else w

/-- `round32` of a nonzero number of units of 2^-149. -/
def roundUnits (m : SubnormalMode) (r : Int) : Word := round32 m (decide (r < 0)) r.natAbs 1

/-! ## Addition, subtraction, multiplication, division. `nan` is the NaN a NaN result is (R85). -/

/-- R17's cases in order, on conditioned operands. -/
def addCases (m : SubnormalMode) (nan a b : Word) : Word :=
  if isNaN32 a || isNaN32 b then nan
  else if isInf32 a && isInf32 b && signBit a != signBit b then nan
  else if isInf32 a then a
  else if isInf32 b then b
  else if isZero32 a && isZero32 b then zeroOf (signBit a && signBit b)
  else if units a + units b = 0 then fZero
  else roundUnits m (units a + units b)

/-- R17. -/
def fadd32 (m : SubnormalMode) (nan a b : Word) : Word := addCases m nan (condition m a) (condition m b)

/-- `b` with bit 31 inverted (R17). -/
def negate (b : Word) : Word := b ^^^ 0x80000000#32

/-- R17. -/
def fsub32 (m : SubnormalMode) (nan a b : Word) : Word := fadd32 m nan a (negate b)

/-- R18's cases in order, on conditioned operands. A product of unit counts counts units of 2^-298. -/
def mulCases (m : SubnormalMode) (nan a b : Word) : Word :=
  if isNaN32 a || isNaN32 b then nan
  else if (isInf32 a && isZero32 b) || (isZero32 a && isInf32 b) then nan
  else if isInf32 a || isInf32 b then infOf (signBit a != signBit b)
  else if isZero32 a || isZero32 b then zeroOf (signBit a != signBit b)
  else round32 m (signBit a != signBit b) (magUnits a * magUnits b) (2 ^ 149)

/-- R18. -/
def fmul32 (m : SubnormalMode) (nan a b : Word) : Word := mulCases m nan (condition m a) (condition m b)

/-- R19's cases in order, on conditioned operands. -/
def divCases (m : SubnormalMode) (nan a b : Word) : Word :=
  if isNaN32 a || isNaN32 b then nan
  else if isInf32 a && isInf32 b then nan
  else if isZero32 a && isZero32 b then nan
  else if isInf32 a then infOf (signBit a != signBit b)
  else if isInf32 b then zeroOf (signBit a != signBit b)
  else if isZero32 b then infOf (signBit a != signBit b)
  else if isZero32 a then zeroOf (signBit a != signBit b)
  else round32 m (signBit a != signBit b) (magUnits a * 2 ^ 149) (magUnits b)

/-- R19. -/
def fdiv32 (m : SubnormalMode) (nan a b : Word) : Word := divCases m nan (condition m a) (condition m b)

end Sys2Proof.Machine
end

