-- ==== Sys2Proof/Machine/Path.lean ====
section
/-! DEFINITION. The per-lane path of a FRAME, stage by stage (41_distortion_path R82 to R93, 42_crossfader_frame R100, R101).
`m` is the block's subnormal mode, and an argument `nan` or `nan n` is the NaN that a NaN result is (R85). -/

namespace Sys2Proof.Machine

/-- Stage MUL (R86). -/
def stageMul (m : SubnormalMode) (nan x mu : Word) : Word := fmul32 m nan x mu
/-- Stage ADD (R87): a rounding of its own, never fused with MUL (R84). -/
def stageAdd (m : SubnormalMode) (nan t1 a : Word) : Word := fadd32 m nan t1 a
/-- Stage SUB (R88). -/
def stageSub (m : SubnormalMode) (nan t2 a : Word) : Word := fsub32 m nan t2 a
/-- Stage DIV (R89). -/
def stageDiv (m : SubnormalMode) (nan t3 mu : Word) : Word := fdiv32 m nan t3 mu
/-- Stage RESIDUE (R90). -/
def stageResidue (m : SubnormalMode) (nan t4 x : Word) (rs : Bool) : Word :=
  if rs then fsub32 m nan t4 x else t4
/-- Stage FINITE, the safety net (R91): `x` is the lane's input word, bit for bit. -/
def stageFinite (t5 x : Word) : Word := if isFinite32 t5 then t5 else x
/-- Stage CLAMP (R93). -/
def stageClamp (m : SubnormalMode) (t6 : Word) : Word := clampF m t6 fNegOne fOne
/-- Stage WCLAMP (R100). -/
def stageWClamp (m : SubnormalMode) (w : Word) : Word := clampF m w fZero fOne

/-- The intermediate words of the crossfader (R101). -/
structure Fade where
  t   : Word
  omt : Word
  d   : Word
  e   : Word
  y   : Word
deriving DecidableEq, Repr

/-- Stage XFADE (R101): four separate roundings, each with a NaN draw of its own. -/
def xfadeWords (m : SubnormalMode) (nan : Nat → Word) (x o w : Word) : Fade :=
  let t := stageWClamp m w
  let omt := fsub32 m (nan 0) fOne t
  let d := fmul32 m (nan 1) omt x
  let e := fmul32 m (nan 2) t o
  { t := t, omt := omt, d := d, e := e, y := fadd32 m (nan 3) d e }

/-- R101's result. -/
def xfade (m : SubnormalMode) (nan : Nat → Word) (x o w : Word) : Word := (xfadeWords m nan x o w).y

/-- The words of one lane, named as R82 names them. -/
structure Lane where
  t1 : Word
  t2 : Word
  t3 : Word
  t4 : Word
  t5 : Word
  t6 : Word
  t7 : Word
  y  : Word
deriving DecidableEq, Repr

/-- How many NaN draws one lane sets aside: one for each rounding of R82 and R101 (log entry 3). -/
def drawsPerLane : Nat := 9

/-- `P(x, W, A, Mu, Rs)` of R82 with every stage word. `nan n` is the NaN of the lane's n-th rounding. -/
def laneWith (m : SubnormalMode) (nan : Nat → Word) (x : Word) (p : Params) : Lane :=
  let t1 := stageMul m (nan 0) x p.mult
  let t2 := stageAdd m (nan 1) t1 p.add
  let t3 := stageSub m (nan 2) t2 p.add
  let t4 := stageDiv m (nan 3) t3 p.mult
  let t5 := stageResidue m (nan 4) t4 x p.res
  let t6 := stageFinite t5 x
  let t7 := stageClamp m t6
  { t1 := t1, t2 := t2, t3 := t3, t4 := t4, t5 := t5, t6 := t6, t7 := t7,
    y := xfade m (fun n => nan (5 + n)) x t7 p.wet }

/-- A lane whose NaN draws begin at the `k`-th. -/
def lane (m : SubnormalMode) (k : Nat) (x : Word) (p : Params) : Lane :=
  laneWith m (fun n => nanDraw (k + n)) x p

end Sys2Proof.Machine
end

