-- ==== Sys2Proof/Machine/Ops.lean ====
section
/-! DEFINITION. The named operations over the state: its fields' writes, the host buffer (00_scope R10, 20_memory R38), the
snapshot capture (40_parameter_sampler R75), the output port (30_encoding R52) and reset (70_reset_and_hazards R130).
The block has no exception, so there is no operation that takes one and none that returns from one
(60_exceptions R116, R121, R122). -/

namespace Sys2Proof.Machine

/-! ## The host buffer -/

/-- `BufRead(c, f)`: nothing at a position that is not legal (R10, R38). -/
def bufRead (b : Memory) (c f : Nat) : Option Word :=
  if c = 0 then b.ch0[f]? else if c = 1 then b.ch1[f]? else none

/-- `BufWrite(c, f, v)`: nothing at a position that is not legal (R10, R38). -/
def bufWrite (b : Memory) (c f : Nat) (v : Word) : Option Memory :=
  if c = 0 then (if f < b.ch0.length then some { b with ch0 := b.ch0.set f v } else none)
  else if c = 1 then (if f < b.ch1.length then some { b with ch1 := b.ch1.set f v } else none)
  else none

/-! ## Writes of the state's fields -/

def State.setInP (s : State) (p : Params) : State := { s with inP := p }
/-- `out.y_valid`, `out.y0` and `out.y1`: `none` is `y_valid = 0` (R52). -/
def State.setOut (s : State) (y : Option Frame) : State := { s with out := y }
def State.setPos (s : State) (n : BitVec 7) : State := { s with pos := n }
def State.setBuf (s : State) (b : Memory) : State := { s with buf := b }
def State.setScript (s : State) (es : List HostEvent) : State := { s with script := es }
def State.setDraws (s : State) (n : Nat) : State := { s with draws := n }
/-- The four snapshot registers are written in one transaction (R75, R77). -/
def State.setSnapshot (s : State) (p : Params) : State :=
  { s with sWet := p.wet, sAdd := p.add, sMult := p.mult, sRes := p.res }

/-! ## Operations of the commands -/

/-- The capture: the P bundle into the snapshot registers when `POS = 0`, nothing otherwise (R75, R76). -/
def State.capture (s : State) : State := if s.pos = 0#7 then s.setSnapshot s.inP else s

/-- `POS <- (POS + 1) mod 128` (10_state R31). -/
def State.advancePos (s : State) : State := s.setPos (s.pos + 1#7)

/-- The two output words of a FRAME on `x0` and `x1`: both lanes use the one snapshot (10_state R34), and each
lane has NaN draws of its own (R85, R110). -/
def State.frameResult (s : State) (x0 x1 : Word) : Frame :=
  { ch0 := (lane s.cfg.subnormal s.draws x0 s.frameParams).y,
    ch1 := (lane s.cfg.subnormal (s.draws + drawsPerLane) x1 s.frameParams).y }

/-- A reset transaction (R53, R130): the block's registers take the values of 10_state R35 and no output is given.
It touches neither the host buffer (R131) nor anything else of the host's. -/
def State.resetBlock (s : State) : State :=
  ((s.setSnapshot { wet := 0x3F800000#32, add := 0x00000000#32, mult := 0x3F800000#32, res := false }).setPos
    0#7).setOut none

/-- What the block does while nothing is presented: it holds its state (60_exceptions R119, R128). -/
def State.idle (s : State) : State := s

end Sys2Proof.Machine
end

