-- ==== Sys2Proof/Machine/Sampler.lean ====
section
/-! DEFINITION. The meanings of NOP, BEGIN and the reserved code (40_parameter_sampler R80, R81, 30_encoding R58). -/

namespace Sys2Proof.Machine

/-- NOP: no output, and no state is written (R80). -/
def execNop (s : State) : Host.Outcome State Fault Refusal := .next (s.setOut none)

/-- BEGIN: `POS <- 0`, no output; the snapshot registers are not written (R81). -/
def execBegin (s : State) : Host.Outcome State Fault Refusal := .next ((s.setPos 0#7).setOut none)

/-- `cmd = 11`: behaves exactly as NOP (R58). -/
def execRsvd (s : State) : Host.Outcome State Fault Refusal := .next (s.setOut none)

end Sys2Proof.Machine
end

