-- ==== Sys2Proof/Machine/Stereo.lean ====
section
/-! DEFINITION. The meaning of FRAME (42_crossfader_frame R110). -/

namespace Sys2Proof.Machine

/-- FRAME: capture when `POS = 0`, the two lanes, the output, and `POS` advanced. Every read is of the state before
the command (00_scope R9), and it completes on every operand (R112). -/
def execFrame (x0 x1 : Word) (s : State) : Host.Outcome State Fault Refusal :=
  .next (((s.capture.advancePos).setOut (some (s.frameResult x0 x1))).setDraws (s.draws + 2 * drawsPerLane))

end Sys2Proof.Machine
end

