-- ==== Sys2Proof/Machine/Dispatch.lean ====
section
/-! DEFINITION. One arm per command of the opcode table (30_encoding R57). -/

namespace Sys2Proof.Machine

def exec (i : Instr) (s : State) : Host.Outcome State Fault Refusal :=
  match i with
  | .nop => Sys2Proof.Machine.execNop s
  | .begin => Sys2Proof.Machine.execBegin s
  | .frame x0 x1 => Sys2Proof.Machine.execFrame x0 x1 s
  | .rsvd => Sys2Proof.Machine.execRsvd s

end Sys2Proof.Machine
end

