-- ==== Sys2Proof/Machine/Transaction.lean ====
section
/-! DEFINITION. One transaction on the block's interface, and the host's procedure PROCESS_BUFFER as transactions
(30_encoding R50, R53; 42_crossfader_frame R114). -/

namespace Sys2Proof.Machine

/-- A transaction (R50): the P bundle stands on the port, and with `in.rst = 1` the block resets and ignores the
command (R53, R120); otherwise it runs the packet's command. -/
def transact (rst : Bool) (c : BitVec 66) (p : BitVec 97) (s : State) : Host.Outcome State Fault Refusal :=
  if rst then .next ((s.setInP (unpackP p)).resetBlock) else exec (decode c) (s.setInP (unpackP p))

/-- The host's write-back of the output words to the positions their inputs came from (20_memory R44). -/
def writeBack (f : Nat) (s : State) : Host.Outcome State Fault Refusal :=
  match s.out with
  | none => .next s
  | some y =>
    match (bufWrite s.buf 0 f y.ch0).bind fun b => bufWrite b 1 f y.ch1 with
    | some b => .next (s.setBuf b)
    | none => .refused .bufferPosition

/-- The host supplies a fresh buffer, which replaces the last one (R37), and the block sees nothing of it (R39). A
buffer that is not two channels of equal length is refused (R38, R118). -/
def supplyBuffer (channels : List (List Word)) (s : State) : Host.Outcome State Fault Refusal :=
  if channelCountOk channels = false then .refused .channelCount
  else if channelLengthsOk channels = false then .refused .channelLengths
  else .next (s.setBuf { ch0 := channels.getD 0 [], ch1 := channels.getD 1 [] })

/-- A callback begins as R114 has it: the host supplies its buffer and issues BEGIN. -/
def runCallback (channels : List (List Word)) (p : BitVec 97) (s : State) : Host.Outcome State Fault Refusal :=
  match supplyBuffer channels s with
  | .next s' => transact false (encode .begin) p s'
  | .fault r => .fault r
  | .refused r => .refused r

/-- One turn of PROCESS_BUFFER's loop: FRAME on `BufRead(0, f)` and `BufRead(1, f)`, and the write-back of its
results to the same positions (R114). -/
def runFrameAt (f : Nat) (p : BitVec 97) (s : State) : Host.Outcome State Fault Refusal :=
  match bufRead s.buf 0 f, bufRead s.buf 1 f with
  | some x0, some x1 =>
    match transact false (encode (.frame x0 x1)) p s with
    | .next s' => writeBack f s'
    | .fault r => .fault r
    | .refused r => .refused r
  | _, _ => .refused .bufferPosition

def runEvent (e : HostEvent) (s : State) : Host.Outcome State Fault Refusal :=
  match e with
  | .present rst c p => transact rst c p s
  | .supply channels => supplyBuffer channels s
  | .callback channels p => runCallback channels p s
  | .frameAt f p => runFrameAt f p s

/-- The host's next event is taken and run; with none, the block holds its state (R45, R128; log entry 4). -/
def hostStep (s : State) : Host.Outcome State Fault Refusal :=
  match s.script with
  | [] => .next s.idle
  | e :: rest => runEvent e (s.setScript rest)

/-- The event of a command packet whose low `nbits` bits are those of `w`, presented without reset and with the
parameter values that stand on the port (log entry 5). -/
def packetEvent (s : State) (nbits w : Nat) : HostEvent :=
  .present false (BitVec.ofNat 66 (w % 2 ^ nbits)) (packP s.inP)

/-! ## PROCESS_BUFFER (R114) -/

/-- The loop's turns from frame `f` on, with the parameter bundle the host presents at each. -/
def frameEvents : Nat → List (BitVec 97) → List HostEvent
  | _, [] => []
  | f, p :: ps => .frameAt f p :: frameEvents (f + 1) ps

/-- `PROCESS_BUFFER(buf, M)`: one BEGIN and then one FRAME per frame, in increasing order. `ps` holds the bundle the
host presents at each of the `M` frames; the one it presents with BEGIN is don't-care (R59). -/
def processBuffer (ch0 ch1 : List Word) (p : BitVec 97) (ps : List (BitVec 97)) : List HostEvent :=
  .callback [ch0, ch1] p :: frameEvents 0 ps

/-- The same by a host that skips BEGIN at the start of the callback (70_reset_and_hazards R134). -/
def processBufferSkippingBegin (ch0 ch1 : List Word) (ps : List (BitVec 97)) : List HostEvent :=
  .supply [ch0, ch1] :: frameEvents 0 ps

end Sys2Proof.Machine
end

