-- ==== Sys2Proof/Machine/Step.lean ====
section
/-! DEFINITION. One step is at most one transaction (70_reset_and_hazards R137; log entry 4). -/

namespace Sys2Proof.Machine

def step (s : State) : Host.Outcome State Fault Refusal := hostStep s

/-- `s` with that packet as the next thing the host presents: the block has no program counter and fetches no
instructions, and its program is what the host presents, one command per transaction (10_state R25). -/
def State.withFetchWord (s : State) (nbits w : Nat) : State := s.setScript (packetEvent s nbits w :: s.script)

end Sys2Proof.Machine
end

