-- ==== Sys2Proof/Machine/Asm.lean ====
section
/-! DEFINITION. The assembler: the textual form of a command stream and the transactions it stands for (30_encoding R65 to R68).
Textual only; no behaviour of the block depends on it (D28). -/

namespace Sys2Proof.Machine

/-- One line of a command stream (R65, R68). -/
inductive AsmLine where
  | nop
  | begin
  | frame (x0 x1 : Word)
  | rsvd
  /-- `.params`: the keys that are given (R67). -/
  | params (wet add mult : Option Word) (res : Option Bool)
  | reset
  /-- The pseudo-instruction `BUFFER` (R68). -/
  | buffer (frames : List Frame)
deriving DecidableEq, Repr

/-- A line, or the lines between a `.rept` and its `.endr`; blocks do not nest (R68). -/
inductive AsmItem where
  | line (l : AsmLine)
  | rept (n : Nat) (body : List AsmLine)
deriving DecidableEq, Repr

/-! ## From lines to transactions -/

/-- The lines an item stands for: `.rept n` is `n` copies of its lines, in order (R68). -/
def AsmItem.expand : AsmItem → List AsmLine
  | .line l => [l]
  | .rept n body => (List.replicate n body).flatten

/-- A command under the bundle the host presents. -/
def presentInstr (p : Params) (i : Instr) : HostEvent := .present false (encode i) (packP p)

/-- The transactions of one line under the bundle `p` (R65, R67, R68). `.params` has none. -/
def AsmLine.events (p : Params) : AsmLine → List HostEvent
  | .nop => [presentInstr p .nop]
  | .begin => [presentInstr p .begin]
  | .frame x0 x1 => [presentInstr p (.frame x0 x1)]
  | .rsvd => [presentInstr p .rsvd]
  | .params _ _ _ _ => []
  | .reset => [.present true (encode .nop) (packP p)]
  | .buffer fs => presentInstr p .begin :: fs.map fun f => presentInstr p (.frame f.ch0 f.ch1)

/-- The bundle after one line: `.params` sets the keys it gives, and omitted keys keep their value (R67). -/
def AsmLine.bundleAfter (p : Params) : AsmLine → Params
  | .params wet add mult res =>
    { wet := wet.getD p.wet, add := add.getD p.add, mult := mult.getD p.mult, res := res.getD p.res }
  | _ => p

/-- The transactions of a list of lines under the bundle that stands before them. -/
def assembleLines : Params → List AsmLine → List HostEvent
  | _, [] => []
  | p, l :: ls => l.events p ++ assembleLines (l.bundleAfter p) ls

/-- The transactions of a command stream. Before its first `.params` the bundle holds the defaults (R67). -/
def assemble (items : List AsmItem) : List HostEvent :=
  assembleLines Params.defaults (items.flatMap AsmItem.expand)

/-! ## From text to lines (R65, R66; log entry 14) -/

def digitOf (c : Char) : Option Nat :=
  if '0' ≤ c ∧ c ≤ '9' then some (c.toNat - 48) else none

def hexDigitOf (c : Char) : Option Nat :=
  if 'a' ≤ c ∧ c ≤ 'f' then some (c.toNat - 87)
  else if 'A' ≤ c ∧ c ≤ 'F' then some (c.toNat - 55)
  else digitOf c

/-- The number that digits in base `b` spell, most significant first. -/
def numberOf (b : Nat) (digit : Char → Option Nat) : Nat → List Char → Option Nat
  | n, [] => some n
  | n, c :: cs => (digit c).bind fun d => numberOf b digit (b * n + d) cs

/-- A decimal integer of at least one digit. -/
def decimalOf (cs : List Char) : Option Nat := if cs = [] then none else numberOf 10 digitOf 0 cs

/-- The exponent part of a decimal literal: nothing, or `e` and a signed integer, as a pair of its sign and size. -/
def exponentOf : List Char → Option (Bool × Nat)
  | [] => some (false, 0)
  | 'e' :: '-' :: cs => (decimalOf cs).map fun n => (true, n)
  | 'e' :: '+' :: cs => (decimalOf cs).map fun n => (false, n)
  | 'e' :: cs => (decimalOf cs).map fun n => (false, n)
  | _ => none

/-- `round32` of the exact decimal value `±digits × 10^exponent`; a zero has the literal's sign (R66). -/
def decimalWord (m : SubnormalMode) (neg : Bool) (digits num den : Nat) : Word :=
  if digits = 0 then zeroOf neg else round32 m neg (digits * num * 2 ^ 149) den

/-- An unsigned decimal literal: digits, perhaps a point and more digits, perhaps an exponent. -/
def unsignedDecimal (m : SubnormalMode) (neg : Bool) (cs : List Char) : Option Word :=
  let whole := cs.takeWhile Char.isDigit
  let rest := cs.dropWhile Char.isDigit
  let frac := match rest with
    | '.' :: r => r.takeWhile Char.isDigit
    | _ => []
  let tail := match rest with
    | '.' :: r => r.dropWhile Char.isDigit
    | r => r
  (decimalOf (whole ++ frac)).bind fun digits => (exponentOf tail).map fun e =>
    if e.1 then decimalWord m neg digits 1 (10 ^ (frac.length + e.2))
    else decimalWord m neg digits (10 ^ e.2) (10 ^ frac.length)

/-- A float operand (R66): a hexadecimal word, a decimal literal, or `inf`, `-inf` or `nan`. -/
def floatOf (m : SubnormalMode) (cs : List Char) : Option Word :=
  match cs with
  | '0' :: 'x' :: hex => if hex.length = 8 then (numberOf 16 hexDigitOf 0 hex).map (BitVec.ofNat 32) else none
  | ['i', 'n', 'f'] => some fInf
  | ['-', 'i', 'n', 'f'] => some fNInf
  | ['n', 'a', 'n'] => some fQNaN
  | '-' :: cs => unsignedDecimal m true cs
  | cs => unsignedDecimal m false cs

/-- A token that is complete, if it has any character. -/
def flushToken (cur : List Char) : List (List Char) := if cur = [] then [] else [cur.reverse]

/-- The tokens of a line up to its comment: words, and each of `,` `=` `[` `]` alone. -/
def tokens : List Char → List Char → List (List Char)
  | cur, [] => flushToken cur
  | cur, c :: cs =>
    if c = ';' then flushToken cur
    else if c.isWhitespace then flushToken cur ++ tokens [] cs
    else if c = ',' ∨ c = '=' ∨ c = '[' ∨ c = ']' then flushToken cur ++ [c] :: tokens [] cs
    else tokens (c :: cur) cs

/-- The operands of `BUFFER`. -/
def bufferOf (m : SubnormalMode) : List (List Char) → Option (List Frame)
  | [['['], a, [','], b, [']']] =>
    (floatOf m a).bind fun x0 => (floatOf m b).map fun x1 => [{ ch0 := x0, ch1 := x1 }]
  | ['['] :: a :: [','] :: b :: [']'] :: [','] :: rest =>
    (floatOf m a).bind fun x0 => (floatOf m b).bind fun x1 =>
      (bufferOf m rest).map fun fs => { ch0 := x0, ch1 := x1 } :: fs
  | _ => none

/-- One `key=value` of `.params`, added to the keys read so far. -/
def paramOf (m : SubnormalMode) (key value : List Char) : AsmLine → Option AsmLine
  | .params w a u r =>
    if key = "wet".toList then (floatOf m value).map fun v => .params (some v) a u r
    else if key = "add".toList then (floatOf m value).map fun v => .params w (some v) u r
    else if key = "mult".toList then (floatOf m value).map fun v => .params w a (some v) r
    else if key = "res".toList then
      if value = ['1'] then some (.params w a u (some true))
      else if value = ['0'] then some (.params w a u (some false))
      else none
    else none
  | _ => none

/-- The operands of `.params`, at least one: that a line which omits all four keys is none of R65's forms is the model's
choice, since R67 does not say that a line may omit them all (log entry 14). -/
def paramsOf (m : SubnormalMode) : AsmLine → List (List Char) → Option AsmLine
  | acc, [key, ['='], value] => paramOf m key value acc
  | acc, key :: ['='] :: value :: [','] :: rest => (paramOf m key value acc).bind fun acc' => paramsOf m acc' rest
  | _, _ => none

/-- A line's tokens as a line; the first is a mnemonic or a directive, in capitals or not (R65). -/
def lineOf (m : SubnormalMode) : List (List Char) → Option AsmLine
  | [] => none
  | head :: rest =>
    let h := head.map Char.toLower
    if h = "nop".toList then (if rest = [] then some .nop else none)
    else if h = "begin".toList then (if rest = [] then some .begin else none)
    else if h = "rsvd".toList then (if rest = [] then some .rsvd else none)
    else if h = ".reset".toList then (if rest = [] then some .reset else none)
    else if h = ".params".toList then paramsOf m (.params none none none none) rest
    else if h = "buffer".toList then (if rest = [] then some (.buffer []) else (bufferOf m rest).map .buffer)
    else if h = "frame".toList then
      match rest with
      | [a, [','], b] => (floatOf m a).bind fun x0 => (floatOf m b).map fun x1 => .frame x0 x1
      | _ => none
    else none

/-- `.rept <n>` as its count. -/
def reptOf : List (List Char) → Option Nat
  | [head, n] => if head.map Char.toLower = ".rept".toList then decimalOf n else none
  | _ => none

/-- `.endr`. -/
def isEndr (ts : List (List Char)) : Bool := ts.map (·.map Char.toLower) == [".endr".toList]

/-- The items of a text, line by line. `block` holds the count and the lines, in order, of an open `.rept`. -/
def itemsOf (m : SubnormalMode) : Option (Nat × List AsmLine) → List (List (List Char)) → Option (List AsmItem)
  | none, [] => some []
  | some _, [] => none
  | block, [] :: ls => itemsOf m block ls
  | none, ts :: ls =>
    match reptOf ts with
    | some n => itemsOf m (some (n, [])) ls
    | none => (lineOf m ts).bind fun l => (itemsOf m none ls).map fun is => .line l :: is
  | some (n, body), ts :: ls =>
    if isEndr ts then (itemsOf m none ls).map fun is => .rept n body :: is
    else (lineOf m ts).bind fun l => itemsOf m (some (n, body ++ [l])) ls

/-- The lines of a text. -/
def textLines : List Char → List Char → List (List Char)
  | cur, [] => [cur.reverse]
  | cur, c :: cs => if c = '\n' then cur.reverse :: textLines [] cs else textLines (c :: cur) cs

/-- A command stream's text as its transactions; nothing where a line has none of R65's forms. -/
def assembleText (m : SubnormalMode) (text : String) : Option (List HostEvent) :=
  (itemsOf m none ((textLines [] text.toList).map (tokens []))).map assemble

end Sys2Proof.Machine
end

