-- ==== Sys2Proof/Safety.lean ====
section
/-! DEFINITION. The terms claims are stated in: the value a word stands for (00_scope R12), what it is to round a real number
(R15), and what a nominal run is (40_parameter_sampler R69, 42_crossfader_frame R105). -/

namespace Sys2Proof.Machine

/-! ## Values -/

/-- The value of a finite word, in R12's own form. -/
def value32 (w : Word) : Rat :=
  (if signBit w then -1 else 1) *
    (if expField w = 0 then (fracField w : Rat) / 2 ^ 23 * (2 : Rat) ^ (-126 : Int)
     else (1 + (fracField w : Rat) / 2 ^ 23) * (2 : Rat) ^ ((expField w : Int) - 127))

/-- The value of a word that is no NaN, the infinities included (R12). -/
def valueExt (w : Word) : WithBot (WithTop Rat) :=
  if isInf32 w then (if signBit w then ⊥ else ((⊤ : WithTop Rat) : WithBot (WithTop Rat)))
  else (((value32 w : Rat) : WithTop Rat) : WithBot (WithTop Rat))

/-- `v` is the finite word of `r`'s sign nearest to `r`; on a tie its fraction field is even (R15). -/
def IsNearestEven (r : Rat) (v : Word) : Prop :=
  isFinite32 v = true ∧ signBit v = decide (r < 0) ∧
    ∀ u : Word, isFinite32 u = true →
      |r - value32 v| ≤ |r - value32 u| ∧
        (|r - value32 u| = |r - value32 v| → value32 u ≠ value32 v → fracField v % 2 = 0)

/-- `w` is what R15's text says `round32(r)` is, for a nonzero `r`. That FTZ_DAZ flushes after the rounding and not before it is
the model's reading (log entry 10). -/
def Rounds (m : SubnormalMode) (r : Rat) (w : Word) : Prop :=
  if (2 : Rat) ^ 128 - 2 ^ 103 ≤ |r| then w = infOf (decide (r < 0))
  else ∃ v, IsNearestEven r v ∧
    w = if m = .ftzDaz ∧ isSubnormal32 v = true then zeroOf (signBit v) else v

/-- A finite word of a value in [-1, 1]: the nominal range of a sample (R21). -/
def IsNominal (w : Word) : Prop := isFinite32 w = true ∧ |value32 w| ≤ 1

/-- A finite word of a value in [0, 1]: a crossfade fraction. -/
def IsFraction (w : Word) : Prop := isFinite32 w = true ∧ 0 ≤ value32 w ∧ value32 w ≤ 1

/-- A supply of NaN results: every word of it is a NaN, and nothing else is known of it (R85). -/
def AllNaN (nan : Nat → Word) : Prop := ∀ n, isNaN32 (nan n) = true

/-- The intermediate words `t1` to `t5` of a lane are all finite (R96). -/
def Lane.finiteUpToT5 (l : Lane) : Prop :=
  isFinite32 l.t1 = true ∧ isFinite32 l.t2 = true ∧ isFinite32 l.t3 = true ∧
    isFinite32 l.t4 = true ∧ isFinite32 l.t5 = true

/-- The output words of a FRAME on `x0` and `x1` with snapshot `p`, lane 0 taking its NaN draws from the `k`-th on. -/
def outputsOf (m : SubnormalMode) (k : Nat) (x0 x1 : Word) (p : Params) : Frame :=
  { ch0 := (lane m k x0 p).y, ch1 := (lane m (k + 9) x1 p).y }

/-! ## Transactions -/

/-- What one step does to the block: nothing is presented (the host has nothing left, or supplies a buffer only), a reset,
a command, or a host error. -/
inductive Transaction where
  | idle
  | reset
  | command (i : Instr)
  | hostError
deriving DecidableEq, Repr

/-- The transaction that the next step of a state is. -/
def State.transaction (s : State) : Transaction :=
  match s.script with
  | [] => .idle
  | .present true _ _ :: _ => .reset
  | .present false c _ :: _ => .command (decode c)
  | .supply channels :: _ => if channelCountOk channels && channelLengthsOk channels then .idle else .hostError
  | .callback channels _ :: _ =>
    if channelCountOk channels && channelLengthsOk channels then .command .begin else .hostError
  | .frameAt f _ :: _ =>
    match bufRead s.buf 0 f, bufRead s.buf 1 f with
    | some x0, some x1 => .command (.frame x0 x1)
    | _, _ => .hostError

/-- The bundle the next step puts on the port; with nothing presented the port keeps its own. -/
def State.nextP (s : State) : Params :=
  match s.script with
  | [] => s.inP
  | .present _ _ p :: _ => unpackP p
  | .supply _ :: _ => s.inP
  | .callback _ p :: _ => unpackP p
  | .frameAt _ p :: _ => unpackP p

/-- Two outcomes are the same but for the bundle on the input port. -/
def SameButPort : Host.Outcome State Fault Refusal → Host.Outcome State Fault Refusal → Prop
  | .next s, .next t => s.setInP t.inP = t
  | .fault _, .fault _ => True
  | .refused q, .refused r => q = r
  | _, _ => False

/-! ## Nominal runs -/

def Frame.IsNominal (y : Frame) : Prop := Machine.IsNominal y.ch0 ∧ Machine.IsNominal y.ch1

/-- A host that keeps its side: nominal samples, and parameters inside their declared ranges at every FRAME. -/
def HostEvent.IsNominal : HostEvent → Prop
  | .present rst c p =>
    rst = true ∨ ∀ x0 x1, decode c = .frame x0 x1 →
      Machine.IsNominal x0 ∧ Machine.IsNominal x1 ∧ (unpackP p).inContract = true
  | .supply channels => ∀ ch ∈ channels, ∀ x ∈ ch, Machine.IsNominal x
  | .callback channels _ => ∀ ch ∈ channels, ∀ x ∈ ch, Machine.IsNominal x
  | .frameAt _ p => (unpackP p).inContract = true

/-- A snapshot inside the declared ranges, a nominal host from here on, and nominal samples in the buffer and on the
output port. -/
def State.IsNominal (s : State) : Prop :=
  s.snapshot.inContract = true ∧ (∀ e ∈ s.script, e.IsNominal) ∧
    (∀ x ∈ s.buf.ch0, Machine.IsNominal x) ∧ (∀ x ∈ s.buf.ch1, Machine.IsNominal x) ∧
    ∀ y, s.out = some y → Frame.IsNominal y

end Sys2Proof.Machine
end

