-- ==== Sys2Proof/Certificates/Slice0/Obligations.lean ====
section
/-! DEFINITION. The statements about the model. A statement over every subnormal mode `m`, or over every state, holds in both
modes: `condition m w` is `w` itself under IEEE, and the operand as FTZ_DAZ reads it otherwise (00_scope R16). A statement over
NaN supplies `nan` holds for every NaN a result may be (41_distortion_path R85). -/

open Sys2Proof Sys2Proof.Machine

/-! ## Formats and decoding -/

/-- R54, R55, R56: every field of the three formats, by its bit position. -/
def Obligations.FormatFieldPositions : Prop :=
  (∀ c : BitVec 66, (packetCmd c).toNat = c.toNat % 2 ^ 2 ∧ (packetX0 c).toNat = c.toNat / 2 ^ 2 % 2 ^ 32 ∧
    (packetX1 c).toNat = c.toNat / 2 ^ 34) ∧
  (∀ x0 x1 : Word, (encode (.frame x0 x1)).toNat = x1.toNat * 2 ^ 34 + x0.toNat * 2 ^ 2 + 2) ∧
  (∀ p : Params, (packP p).toNat =
    p.res.toNat * 2 ^ 96 + p.mult.toNat * 2 ^ 64 + p.add.toNat * 2 ^ 32 + p.wet.toNat) ∧
  (∀ p : Params, unpackP (packP p) = p) ∧ (∀ b : BitVec 97, packP (unpackP b) = b) ∧
  (∀ (wires : BitVec 64) (y : Frame),
    (packY wires (some y)).toNat = y.ch1.toNat * 2 ^ 33 + y.ch0.toNat * 2 + 1) ∧
  (∀ wires : BitVec 64, (packY wires none).toNat % 2 = 0) ∧
  ∀ (wires : BitVec 64) (y : Option Frame), unpackY (packY wires y) = y

/-- R57, R64: the four rows of the command map cover every packet, each packet matches exactly the row of the command
it decodes to, and that command is the one of its code. -/
def Obligations.CommandMapIsTheOpcodeTable : Prop :=
  (∀ c : BitVec 66, ∀ r ∈ opcodeTable, r.matchesPacket c = true ↔ (decode c).mnemonic = r.mnemonic) ∧
  (∀ c : BitVec 66, ∃ r ∈ opcodeTable, r.matchesPacket c = true) ∧
  (∀ c : BitVec 66, packetCmd c = 0b00#2 → decode c = .nop) ∧
  (∀ c : BitVec 66, packetCmd c = 0b01#2 → decode c = .begin) ∧
  (∀ c : BitVec 66, packetCmd c = 0b10#2 → decode c = .frame (packetX0 c) (packetX1 c)) ∧
  ∀ c : BitVec 66, packetCmd c = 0b11#2 → decode c = .rsvd

/-- All the packets and bundles that 95_test_vectors prints for programs P1 to P5, as written there. -/
def Obligations.PrintedPacketsDecode : Prop :=
  decode 0x00000000000000000#66 = .nop ∧ decode 0x00000000000000001#66 = .begin ∧
  decode 0x00000000000000003#66 = .rsvd ∧
  decode 0x0FC000000F7333336#66 = .frame 0x3DCCCCCD#32 0x3F000000#32 ∧
  decode 0x0FE000002F7333336#66 = .frame 0xBDCCCCCD#32 0x3F800000#32 ∧
  decode 0x200000000F9333336#66 = .frame 0x3E4CCCCD#32 0x80000000#32 ∧
  decode 0x2FA666668FA66666A#66 = .frame 0x3E99999A#32 0xBE99999A#32 ∧
  decode 0x2FE000000FE000002#66 = .frame 0x3F800000#32 0xBF800000#32 ∧
  decode 0x1FE000001FC000002#66 = .frame 0x7F000000#32 0x7F800000#32 ∧
  decode 0x100000001FF000002#66 = .frame 0x7FC00000#32 0x40000000#32 ∧
  decode 0x100000003FE000002#66 = .frame 0xFF800000#32 0x40000000#32 ∧
  decode 0x2F9333334F9333336#66 = .frame 0x3E4CCCCD#32 0xBE4CCCCD#32 ∧
  unpackP 0x03F800000497424003F800000#97 = ⟨0x3F800000#32, 0x49742400#32, 0x3F800000#32, false⟩ ∧
  unpackP 0x03F8000004A8000003F800000#97 = ⟨0x3F800000#32, 0x4A800000#32, 0x3F800000#32, false⟩ ∧
  unpackP 0x03F800000000000003F800000#97 = ⟨0x3F800000#32, 0x00000000#32, 0x3F800000#32, false⟩ ∧
  unpackP 0x13FA666664A8000003F000000#97 = ⟨0x3F000000#32, 0x4A800000#32, 0x3FA66666#32, true⟩ ∧
  unpackP 0x044800000000000003F800000#97 = ⟨0x3F800000#32, 0x00000000#32, 0x44800000#32, false⟩ ∧
  unpackP 0x0448000000000000000000000#97 = ⟨0x00000000#32, 0x00000000#32, 0x44800000#32, false⟩

/-- Decoding an encoded command gives it back with every operand, through the number interface too, and two packets
decode alike exactly when their codes agree and, for FRAME, every bit of them does (R54, R57, R59). -/
def Obligations.DecodeEncodeAgree : Prop :=
  (∀ i : Instr, i.wf = true → decode (encode i) = i ∧ decodeTableWord 66 (encode i).toNat = some i) ∧
  ∀ c c' : BitVec 66, decode c = decode c' ↔
    packetCmd c = packetCmd c' ∧ (packetCmd c = 0b10#2 → c = c')

/-- R59: no value of a field that a command does not read changes any state or output. The bundle itself stays on the
input port, so the outcomes are compared but for that port. -/
def Obligations.UnreadFieldsAreDontCare : Prop :=
  (∀ (s : State) (c c' : BitVec 66) (p p' : BitVec 97) (rest : List HostEvent),
    packetCmd c = packetCmd c' → packetCmd c ≠ 0b10#2 →
    SameButPort (step { s with script := .present false c p :: rest })
      (step { s with script := .present false c' p' :: rest })) ∧
  (∀ (s : State) (c : BitVec 66) (p p' : BitVec 97) (rest : List HostEvent),
    packetCmd c = 0b10#2 → s.pos ≠ 0#7 →
    SameButPort (step { s with script := .present false c p :: rest })
      (step { s with script := .present false c p' :: rest })) ∧
  ∀ (s : State) (c c' : BitVec 66) (p p' : BitVec 97) (rest : List HostEvent),
    SameButPort (step { s with script := .present true c p :: rest })
      (step { s with script := .present true c' p' :: rest })

/-- R67, R68: `.params` is no command and sets the keys it gives for what follows it, the defaults stand before the
first; `.reset` is a transaction with `rst = 1` under the bundle that stands, whatever packet goes with it; `BUFFER` is BEGIN
and then one FRAME per frame; `.rept n` is `n` copies of its lines. -/
def Obligations.AssemblerDirectivesExpand : Prop :=
  (∀ (p : Params) (wet add mult : Option Word) (res : Option Bool) (ls : List AsmLine),
    assembleLines p (.params wet add mult res :: ls) =
      assembleLines ⟨wet.getD p.wet, add.getD p.add, mult.getD p.mult, res.getD p.res⟩ ls) ∧
  (∃ c : BitVec 66, ∀ (p : Params) (ls : List AsmLine),
    assembleLines p (.reset :: ls) = .present true c (packP p) :: assembleLines p ls) ∧
  (∀ items : List AsmItem, assemble items =
    assembleLines ⟨0x3F800000#32, 0x00000000#32, 0x3F800000#32, false⟩ (items.flatMap AsmItem.expand)) ∧
  (∀ (p : Params) (fs : List Frame) (ls : List AsmLine), assembleLines p (.buffer fs :: ls) =
    assembleLines p (.begin :: (fs.map (fun f => AsmLine.frame f.ch0 f.ch1) ++ ls))) ∧
  (∀ (body : List AsmLine), (AsmItem.rept 0 body).expand = []) ∧
  ∀ (n : Nat) (body : List AsmLine),
    (AsmItem.rept (n + 1) body).expand = body ++ (AsmItem.rept n body).expand

/-! ## Reset -/

/-- R35: what the block's registers hold after reset. -/
def Obligations.ResetRegisterValues : Prop :=
  State.reset.sWet = 0x3F800000#32 ∧ State.reset.sAdd = 0x00000000#32 ∧ State.reset.sMult = 0x3F800000#32 ∧
    State.reset.sRes = false ∧ State.reset.pos = 0#7

/-- R53, R130: a transaction with `in.rst = 1` resets the block whatever the command, gives no output, and leaves
everything of the host's as it is; power-on leaves the block the same. -/
def Obligations.ResetTransactionResetsBlock : Prop :=
  (∀ (s : State) (c : BitVec 66) (p : BitVec 97) (rest : List HostEvent),
    s.script = .present true c p :: rest →
    step s = .next { s with sWet := 0x3F800000#32, sAdd := 0x00000000#32, sMult := 0x3F800000#32, sRes := false,
                            pos := 0#7, out := none, inP := unpackP p, script := rest }) ∧
  State.reset.snapshot = ⟨0x3F800000#32, 0x00000000#32, 0x3F800000#32, false⟩ ∧ State.reset.pos = 0#7 ∧
    State.reset.out = none

/-- R131: a reset between two FRAMEs ends the sub-block, so the next FRAME captures; the host buffer is not touched. -/
def Obligations.FrameAfterResetCaptures : Prop :=
  ∀ (s : State) (c c' : BitVec 66) (p p' : BitVec 97) (rest : List HostEvent) (x0 x1 : Word),
    s.script = .present true c p :: .present false c' p' :: rest → decode c' = .frame x0 x1 →
    ∃ t : State, Sys2Proof.core.run 2 s = .next t ∧ t.snapshot = unpackP p' ∧ t.pos = 1#7 ∧
      t.out = some (outputsOf s.cfg.subnormal s.draws x0 x1 (unpackP p')) ∧ t.buf = s.buf

/-- R36: the reset values of the four snapshot registers are never observable, and neither is what they hold at a BEGIN: the
FRAME that follows gives the same state and the same output whatever they held. -/
def Obligations.ResetSnapshotIsUnobservable : Prop :=
  State.reset.pos = 0#7 ∧
  (∀ (s : State) (q : Params) (x0 x1 : Word), s.pos = 0#7 →
    exec (.frame x0 x1) (s.setSnapshot q) = exec (.frame x0 x1) s) ∧
  ∀ (s : State) (q : Params) (x0 x1 : Word), ∃ t t' : State,
    exec .begin s = .next t ∧ exec .begin (s.setSnapshot q) = .next t' ∧
    exec (.frame x0 x1) t' = exec (.frame x0 x1) t

/-! ## The commands -/

/-- R58, R80: NOP and the reserved code complete, give no output and change no other state. -/
def Obligations.NopAndReservedChangeNothing : Prop :=
  ∀ s : State, exec .nop s = .next { s with out := none } ∧ exec .rsvd s = .next { s with out := none } ∧
    exec .rsvd s = exec .nop s

/-- R81: BEGIN completes, sets `POS` to 0, gives no output and changes no other state; two are the same as one, and the
next FRAME captures. -/
def Obligations.BeginStartsSubBlock : Prop :=
  ∀ s : State, exec .begin s = .next { s with pos := 0#7, out := none } ∧
    exec .begin { s with pos := 0#7, out := none } = .next { s with pos := 0#7, out := none } ∧
    ({ s with pos := 0#7, out := none } : State).frameParams = s.inP

/-- R75, R76: at `POS = 0` a FRAME captures all four fields of the P bundle and computes with them; otherwise it computes
with the held snapshot, keeps it, and ignores the bundle. -/
def Obligations.FrameSelectsSnapshot : Prop :=
  ∀ (s : State) (x0 x1 : Word),
    (s.pos = 0#7 → ∃ t : State, exec (.frame x0 x1) s = .next t ∧ t.snapshot = s.inP ∧
      t.out = some (outputsOf s.cfg.subnormal s.draws x0 x1 s.inP)) ∧
    (s.pos ≠ 0#7 → ∃ t : State, exec (.frame x0 x1) s = .next t ∧ t.snapshot = s.snapshot ∧
      t.out = some (outputsOf s.cfg.subnormal s.draws x0 x1 s.snapshot) ∧
      ∀ q : Params, exec (.frame x0 x1) (s.setInP q) = .next (t.setInP q))

/-- FRAME completes for every value of every input word and writes exactly this; all else is unchanged (from R110). The
`draws` field and its advance by 18 are the model's own (log entry 3). Equal samples give equal words but for NaNs, and R110's example holds. -/
def Obligations.FrameResult : Prop :=
  (∀ (s : State) (x0 x1 : Word) (q : Params),
    q = (if s.pos = 0#7 then s.inP else ⟨s.sWet, s.sAdd, s.sMult, s.sRes⟩) →
    exec (.frame x0 x1) s =
      .next { s with sWet := q.wet, sAdd := q.add, sMult := q.mult, sRes := q.res,
                     pos := BitVec.ofNat 7 ((s.pos.toNat + 1) % 128),
                     out := some (outputsOf s.cfg.subnormal s.draws x0 x1 q), draws := s.draws + 18 }) ∧
  (∀ (m : SubnormalMode) (k : Nat) (x : Word) (q : Params) (y : Frame), y = outputsOf m k x x q →
    y.ch0 = y.ch1 ∨ (isNaN32 y.ch0 = true ∧ isNaN32 y.ch1 = true)) ∧
  ∃ t : State,
    exec (.frame 0x3DCCCCCD#32 0x3F000000#32)
      (State.reset.setInP ⟨0x3F800000#32, 0x49742400#32, 0x3F800000#32, false⟩) = .next t ∧
    t.out = some ⟨0x3E000000#32, 0x3F000000#32⟩ ∧ t.pos = 1#7 ∧
    t.snapshot = ⟨0x3F800000#32, 0x49742400#32, 0x3F800000#32, false⟩

/-- R111: each output word depends only on its own lane's input word and the snapshot: from any two states of one
configuration in which a FRAME uses the same snapshot, whatever else they hold, lane 0 gives the same word for the same `x0`
and lane 1 for the same `x1`, or two NaNs; and bit for bit the same where the two states take the same NaN draws. -/
def Obligations.LanesAreIndependent : Prop :=
  ∀ (s s' : State) (x0 x1 x0' x1' : Word), s'.frameParams = s.frameParams → s'.cfg = s.cfg →
    ∃ (t t0 t1 : State) (y y0 y1 : Frame), exec (.frame x0 x1) s = .next t ∧ t.out = some y ∧
      exec (.frame x0 x1') s' = .next t0 ∧ t0.out = some y0 ∧
      exec (.frame x0' x1) s' = .next t1 ∧ t1.out = some y1 ∧
      (y0.ch0 = y.ch0 ∨ (isNaN32 y0.ch0 = true ∧ isNaN32 y.ch0 = true)) ∧
      (y1.ch1 = y.ch1 ∨ (isNaN32 y1.ch1 = true ∧ isNaN32 y.ch1 = true)) ∧
      (s'.draws = s.draws → y0.ch0 = y.ch0 ∧ y1.ch1 = y.ch1)

/-- R112: FRAME completes in one transaction for every state and every input word, with two output words, and the only
freedom is the NaN pattern: under two supplies of NaNs a lane's words up to the clamp's result are the same from `t6` on, and
its output word is the same or a NaN in both. -/
def Obligations.OnlyFreedomIsNaNPattern : Prop :=
  (∀ (s : State) (x0 x1 : Word), ∃ (t : State) (y : Frame), exec (.frame x0 x1) s = .next t ∧ t.out = some y) ∧
  ∀ (m : SubnormalMode) (nan nan' : Nat → Word) (x : Word) (p : Params), AllNaN nan → AllNaN nan' →
    (laneWith m nan x p).t6 = (laneWith m nan' x p).t6 ∧ (laneWith m nan x p).t7 = (laneWith m nan' x p).t7 ∧
    ((laneWith m nan x p).y = (laneWith m nan' x p).y ∨
      (isNaN32 (laneWith m nan x p).y = true ∧ isNaN32 (laneWith m nan' x p).y = true))

/-! ## Steps -/

/-- What a step adds around a command (R50, R57, R114): the event is taken and its bundle stands on the port; a
callback supplies its buffer, with BEGIN or, by a host that skips it (R134; log entry 7), without; with nothing presented
the state is held (R128; log entry 4). `withFetchWord` places exactly the command its word encodes. -/
def Obligations.StepRunsTheDecodedCommand : Prop :=
  (∀ (s : State) (c : BitVec 66) (p : BitVec 97) (rest : List HostEvent), s.script = .present false c p :: rest →
    step s = exec (decode c) { s with script := rest, inP := unpackP p }) ∧
  (∀ (s : State) (i : Instr), step (s.withFetchWord 66 (encode i).toNat) = exec i s) ∧
  (∀ (s : State) (ch0 ch1 : List Word) (p : BitVec 97) (rest : List HostEvent),
    s.script = .callback [ch0, ch1] p :: rest → ch0.length = ch1.length →
    step s = exec .begin { s with script := rest, inP := unpackP p, buf := ⟨ch0, ch1⟩ }) ∧
  (∀ (s : State) (ch0 ch1 : List Word) (rest : List HostEvent),
    s.script = .supply [ch0, ch1] :: rest → ch0.length = ch1.length →
    step s = .next { s with script := rest, buf := ⟨ch0, ch1⟩ }) ∧
  ∀ s : State, s.script = [] → step s = .next s

/-- R31: a FRAME at `POS = 0` captures; what writes `POS`, and that nothing else does. -/
def Obligations.PosHasThreeWriters : Prop :=
  (∀ (s : State) (x0 x1 : Word), s.pos = 0#7 → ∃ t : State, exec (.frame x0 x1) s = .next t ∧ t.snapshot = s.inP) ∧
  ∀ s t : State, step s = .next t → t.pos.toNat =
    match s.transaction with
    | .reset => 0
    | .command .begin => 0
    | .command (.frame _ _) => (s.pos.toNat + 1) % 128
    | .command .nop => s.pos.toNat
    | .command .rsvd => s.pos.toNat
    | .idle => s.pos.toNat
    | .hostError => s.pos.toNat

/-- R32, R74: the snapshot registers are written only by the capture, with exactly the words presented, and by reset. -/
def Obligations.SnapshotHasTwoWriters : Prop :=
  ∀ s t : State, step s = .next t → t.snapshot =
    match s.transaction with
    | .reset => ⟨0x3F800000#32, 0x00000000#32, 0x3F800000#32, false⟩
    | .command (.frame _ _) => if s.pos = 0#7 then s.nextP else s.snapshot
    | .command .begin => s.snapshot
    | .command .nop => s.snapshot
    | .command .rsvd => s.snapshot
    | .idle => s.snapshot
    | .hostError => s.snapshot

/-- R52: `out.y_valid` is 1 exactly when the transaction was a FRAME that completed. -/
def Obligations.OutputIsValidExactlyAfterFrame : Prop :=
  ∀ s t : State, step s = .next t → s.transaction ≠ .idle →
    (t.out.isSome = true ↔ ∃ x0 x1 : Word, s.transaction = .command (.frame x0 x1))

/-- Which steps stop, and how (R116, R118, R129): none faults, and exactly the host errors are refused, each by its
name. That channels of unequal length are such an error is read from R21 and R38 (log entry 8). -/
def Obligations.OnlyHostErrorsAreRefused : Prop :=
  (∀ (s : State) (r : Fault), step s ≠ .fault r) ∧
  (∀ s : State, (∃ t : State, step s = .next t) ↔ s.transaction ≠ .hostError) ∧
  (∀ (s : State) (channels : List (List Word)) (p : BitVec 97) (rest : List HostEvent),
    s.script = .callback channels p :: rest ∨ s.script = .supply channels :: rest →
    channels.length ≠ 2 → step s = .refused .channelCount) ∧
  (∀ (s : State) (ch0 ch1 : List Word) (p : BitVec 97) (rest : List HostEvent),
    s.script = .callback [ch0, ch1] p :: rest ∨ s.script = .supply [ch0, ch1] :: rest →
    ch0.length ≠ ch1.length → step s = .refused .channelLengths) ∧
  ∀ (s : State) (f : Nat) (p : BitVec 97) (rest : List HostEvent),
    s.script = .frameAt f p :: rest → (bufRead s.buf 0 f = none ∨ bufRead s.buf 1 f = none) →
    step s = .refused .bufferPosition

/-! ## The host buffer -/

/-- R38: the buffer is read and written exactly at its legal positions, and a turn at any other is refused. -/
def Obligations.IllegalBufferPositionIsRefused : Prop :=
  ∀ b : Memory, b.wf = true →
    (∀ c f : Nat, (bufRead b c f).isSome = true ↔ c < 2 ∧ f < b.frames) ∧
    (∀ (c f : Nat) (v : Word), (bufWrite b c f v).isSome = true ↔ c < 2 ∧ f < b.frames) ∧
    (∀ (c f : Nat) (v : Word) (b' : Memory), bufWrite b c f v = some b' → bufRead b' c f = some v ∧
      ∀ d g : Nat, (d, g) ≠ (c, f) → bufRead b' d g = bufRead b d g) ∧
    ∀ (s : State) (f : Nat) (p : BitVec 97) (rest : List HostEvent), s.buf = b →
      s.script = .frameAt f p :: rest → b.frames ≤ f → step s = .refused .bufferPosition

/-- R44: a turn runs FRAME on the two words at position `f` and writes each result back to the position its input came
from; every other position reads as before, and nothing but the buffer differs from the command's own effect. -/
def Obligations.ResultsAreWrittenBackInPlace : Prop :=
  ∀ (s : State) (f : Nat) (p : BitVec 97) (rest : List HostEvent) (x0 x1 : Word),
    s.script = .frameAt f p :: rest → bufRead s.buf 0 f = some x0 → bufRead s.buf 1 f = some x1 →
    ∃ (t u : State) (y : Frame),
      exec (.frame x0 x1) { s with script := rest, inP := unpackP p } = .next u ∧ u.out = some y ∧
      step s = .next t ∧ t = { u with buf := t.buf } ∧
      bufRead t.buf 0 f = some y.ch0 ∧ bufRead t.buf 1 f = some y.ch1 ∧
      ∀ c g : Nat, g ≠ f → bufRead t.buf c g = bufRead s.buf c g

/-- What touches the host buffer and the configuration (R23, R37, R39, R131): nothing writes the configuration; a
presented packet or reset leaves the buffer as it is, and a callback, with BEGIN or without, replaces it by the one it
supplies. -/
def Obligations.OnlyHostTurnsTouchTheBuffer : Prop :=
  ∀ s t : State, step s = .next t → t.cfg = s.cfg ∧
    (∀ (rst : Bool) (c : BitVec 66) (p : BitVec 97) (rest : List HostEvent),
      s.script = .present rst c p :: rest → t.buf = s.buf) ∧
    ∀ (ch0 ch1 : List Word) (p : BitVec 97) (rest : List HostEvent),
      s.script = .callback [ch0, ch1] p :: rest ∨ s.script = .supply [ch0, ch1] :: rest → t.buf = ⟨ch0, ch1⟩

/-- Every step keeps the buffer's canonical form, and only a callback's supply changes its length (R38, C7). -/
def Obligations.StepKeepsBufferForm : Prop :=
  ∀ s t : State, s.buf.wf = true → step s = .next t → t.buf.wf = true ∧
    ((∀ channels p rest, s.script ≠ .callback channels p :: rest ∧ s.script ≠ .supply channels :: rest) →
      t.buf.frames = s.buf.frames)

/-- PROCESS_BUFFER from any state (from R114). It takes one BEGIN and one FRAME per frame; it ends with every sample replaced
by the lane's word for it, under the bundle presented at the first frame of its sub-block; and `POS` counts the frames. The
numbers of the NaN draws of a frame are the model's own (log entry 3). -/
def Obligations.ProcessBufferRewritesEverySample : Prop :=
  ∀ (s : State) (ch0 ch1 : List Word) (p : BitVec 97) (ps : List (BitVec 97)) (rest : List HostEvent),
    ch0.length = ps.length → ch1.length = ps.length →
    ∃ t : State,
      Sys2Proof.core.run (ps.length + 1) { s with script := processBuffer ch0 ch1 p ps ++ rest } = .next t ∧
      t.script = rest ∧ t.cfg = s.cfg ∧ t.pos.toNat = ps.length % 128 ∧
      t.buf.wf = true ∧ t.buf.frames = ps.length ∧
      ∀ (f : Nat) (x0 x1 : Word) (q : BitVec 97),
        ch0[f]? = some x0 → ch1[f]? = some x1 → ps[f / 128 * 128]? = some q →
        bufRead t.buf 0 f = some (lane s.cfg.subnormal (s.draws + 18 * f) x0 (unpackP q)).y ∧
        bufRead t.buf 1 f = some (lane s.cfg.subnormal (s.draws + 18 * f + 9) x1 (unpackP q)).y

/-- R115: the output of one buffer depends only on its samples and the bundles presented at its sub-block starts, not on
what the block or the buffer held before. The two runs take the same NaN draws. -/
def Obligations.BufferOutputForgetsThePast : Prop :=
  ∀ (s t : State) (ch0 ch1 : List Word) (p p' : BitVec 97) (ps ps' : List (BitVec 97)) (rest rest' : List HostEvent),
    ch0.length = ps.length → ch1.length = ps.length → ps'.length = ps.length →
    (∀ f : Nat, f % 128 = 0 → ps[f]? = ps'[f]?) → s.cfg = t.cfg → s.draws = t.draws →
    ∃ s' t' : State,
      Sys2Proof.core.run (ps.length + 1) { s with script := processBuffer ch0 ch1 p ps ++ rest } = .next s' ∧
      Sys2Proof.core.run (ps.length + 1) { t with script := processBuffer ch0 ch1 p' ps' ++ rest' } = .next t' ∧
      s'.buf = t'.buf

/-- A host that skips BEGIN (from R134): from any state the frames of the new buffer are computed with the old snapshot until
`POS` wraps; frame `f` stands at position `k + f` of the sub-blocks counted on, `k` the old `POS`, and where that is 128 or
more, or `k` is 0, it uses the bundle presented at the first frame of its sub-block. The numbers of the NaN draws are the
model's own (log entry 3), and so is the event that supplies a buffer alone (log entry 7). -/
def Obligations.SkippedBeginContinuesSubBlock : Prop :=
  ∀ (s : State) (ch0 ch1 : List Word) (ps : List (BitVec 97)) (rest : List HostEvent),
    ch0.length = ps.length → ch1.length = ps.length →
    ∃ t : State,
      Sys2Proof.core.run (ps.length + 1) { s with script := processBufferSkippingBegin ch0 ch1 ps ++ rest } = .next t ∧
      t.script = rest ∧ t.cfg = s.cfg ∧ t.pos.toNat = (s.pos.toNat + ps.length) % 128 ∧
      t.buf.wf = true ∧ t.buf.frames = ps.length ∧
      ∀ (f : Nat) (x0 x1 : Word) (q : Params), ch0[f]? = some x0 → ch1[f]? = some x1 →
        ((s.pos.toNat ≠ 0 ∧ s.pos.toNat + f < 128 ∧ q = s.snapshot) ∨
          ((s.pos.toNat = 0 ∨ 128 ≤ s.pos.toNat + f) ∧
            ∃ b, ps[(s.pos.toNat + f) / 128 * 128 - s.pos.toNat]? = some b ∧ q = unpackP b)) →
        bufRead t.buf 0 f = some (lane s.cfg.subnormal (s.draws + 18 * f) x0 q).y ∧
        bufRead t.buf 1 f = some (lane s.cfg.subnormal (s.draws + 18 * f + 9) x1 q).y

/-- R76: the FRAMEs that are left of a sub-block all compute with the snapshot that is held, whatever bundles are
presented with them, and leave it as it is; the counter returns to 0 with the last. -/
def Obligations.SnapshotHeldThroughSubBlock : Prop :=
  ∀ (s : State) (es rest : List HostEvent),
    (∀ e ∈ es, ∃ (c : BitVec 66) (p : BitVec 97) (x0 x1 : Word), e = .present false c p ∧ decode c = .frame x0 x1) →
    s.pos ≠ 0#7 → s.pos.toNat + es.length ≤ 128 → s.script = es ++ rest →
    (∀ k < es.length, ∃ u : State, Sys2Proof.core.run k s = .next u ∧ u.frameParams = s.snapshot) ∧
    ∃ t : State, Sys2Proof.core.run es.length s = .next t ∧ t.snapshot = s.snapshot ∧ t.script = rest ∧
      t.buf = s.buf ∧ t.pos.toNat = (s.pos.toNat + es.length) % 128

/-! ## The number format and its arithmetic -/

/-- R13, R14: the named encodings stand for the values and classes R13 names them by, and the two tests are R14's. -/
def Obligations.NamedWordsAndClassTests : Prop :=
  (value32 fZero = 0 ∧ signBit fZero = false ∧ value32 fOne = 1 ∧ value32 fNegOne = -1 ∧
    value32 fMax = (2 - 1 / 2 ^ 23) * 2 ^ 127 ∧ value32 f1024 = 1024 ∧ value32 f4M = 4194304) ∧
  (isInf32 fInf = true ∧ signBit fInf = false ∧ isInf32 fNInf = true ∧ signBit fNInf = true ∧ isNaN32 fQNaN = true) ∧
  (∀ w : Word, isFinite32 w = true → value32 w ≤ value32 fMax) ∧
  ∀ w : Word, (isFinite32 w = true ↔ w.extractLsb' 23 8 ≠ 0xFF#8) ∧
    (isNaN32 w = true ↔ w.extractLsb' 23 8 = 0xFF#8 ∧ w.extractLsb' 0 23 ≠ 0#23)

/-- The model's integer unit counts are R12's values, in units of 2^-149. -/
def Obligations.UnitCountsAreValues : Prop :=
  ∀ w : Word, isFinite32 w = true →
    (units w : Rat) / 2 ^ 149 = value32 w ∧ (magUnits w : Rat) / 2 ^ 149 = |value32 w|

/-- `round32` of the nonzero real `±(n / d) × 2^-149` is what R15's text says, in both subnormal modes. That FTZ_DAZ flushes
after the rounding, so that a number that rounds up to 2^-126 is kept, is the model's reading (log entry 10). -/
def Obligations.RoundToNearestEven : Prop :=
  ∀ (m : SubnormalMode) (neg : Bool) (n d : Nat), 0 < n → 0 < d →
    Rounds m ((if neg then -1 else 1) * ((n : Rat) / d) / 2 ^ 149) (round32 m neg n d)

/-- R15's text determines one word: no nonzero real has two roundings. -/
def Obligations.RoundingIsUnique : Prop :=
  ∀ (m : SubnormalMode) (r : Rat) (v w : Word), r ≠ 0 → Rounds m r v → Rounds m r w → v = w

/-- R16: under FTZ_DAZ every primitive and comparison reads a subnormal operand as the zero of its sign, and under IEEE
every operand is used as encoded. -/
def Obligations.SubnormalOperandsReadAsZero : Prop :=
  (∀ w : Word, condition .ieee w = w) ∧
  ∀ (nan a b z : Word), isSubnormal32 a = true → z = (if signBit a then fNegZero else fZero) →
    fadd32 .ftzDaz nan a b = fadd32 .ftzDaz nan z b ∧ fadd32 .ftzDaz nan b a = fadd32 .ftzDaz nan b z ∧
    fsub32 .ftzDaz nan a b = fsub32 .ftzDaz nan z b ∧ fsub32 .ftzDaz nan b a = fsub32 .ftzDaz nan b z ∧
    fmul32 .ftzDaz nan a b = fmul32 .ftzDaz nan z b ∧ fmul32 .ftzDaz nan b a = fmul32 .ftzDaz nan b z ∧
    fdiv32 .ftzDaz nan a b = fdiv32 .ftzDaz nan z b ∧ fdiv32 .ftzDaz nan b a = fdiv32 .ftzDaz nan b z ∧
    flt32 .ftzDaz a b = flt32 .ftzDaz z b ∧ flt32 .ftzDaz b a = flt32 .ftzDaz b z ∧
    fgt32 .ftzDaz a b = fgt32 .ftzDaz z b ∧ fgt32 .ftzDaz b a = fgt32 .ftzDaz b z

/-- R17: the six cases of addition, and subtraction, on the operands as the mode reads them. -/
def Obligations.AdditionCases : Prop :=
  (∀ (m : SubnormalMode) (nan a b a' b' : Word), a' = condition m a → b' = condition m b →
    (isNaN32 a' = true ∨ isNaN32 b' = true → fadd32 m nan a b = nan) ∧
    ((a' = fInf ∧ b' = fNInf) ∨ (a' = fNInf ∧ b' = fInf) → fadd32 m nan a b = nan) ∧
    (isInf32 a' = true → isNaN32 b' = false → (isInf32 b' = true → b' = a') → fadd32 m nan a b = a') ∧
    (isInf32 b' = true → isNaN32 a' = false → (isInf32 a' = true → a' = b') → fadd32 m nan a b = b') ∧
    (isZero32 a' = true → isZero32 b' = true →
      fadd32 m nan a b = if a' = fNegZero ∧ b' = fNegZero then fNegZero else fZero) ∧
    (isFinite32 a' = true → isFinite32 b' = true → ¬(isZero32 a' = true ∧ isZero32 b' = true) →
      value32 a' + value32 b' = 0 → fadd32 m nan a b = fZero) ∧
    (isFinite32 a' = true → isFinite32 b' = true → value32 a' + value32 b' ≠ 0 →
      Rounds m (value32 a' + value32 b') (fadd32 m nan a b))) ∧
  ∀ (m : SubnormalMode) (nan a b : Word), fsub32 m nan a b = fadd32 m nan a (b ^^^ 0x80000000#32)

/-- R18: the five cases of multiplication. -/
def Obligations.MultiplicationCases : Prop :=
  ∀ (m : SubnormalMode) (nan a b a' b' : Word) (s : Bool), a' = condition m a → b' = condition m b →
    s = (signBit a != signBit b) →
    (isNaN32 a' = true ∨ isNaN32 b' = true → fmul32 m nan a b = nan) ∧
    ((isInf32 a' = true ∧ isZero32 b' = true) ∨ (isZero32 a' = true ∧ isInf32 b' = true) → fmul32 m nan a b = nan) ∧
    (isNaN32 a' = false → isNaN32 b' = false → isZero32 a' = false → isZero32 b' = false →
      isInf32 a' = true ∨ isInf32 b' = true → fmul32 m nan a b = if s then fNInf else fInf) ∧
    (isFinite32 a' = true → isFinite32 b' = true → isZero32 a' = true ∨ isZero32 b' = true →
      fmul32 m nan a b = if s then fNegZero else fZero) ∧
    (isFinite32 a' = true → isFinite32 b' = true → isZero32 a' = false → isZero32 b' = false →
      Rounds m (value32 a' * value32 b') (fmul32 m nan a b) ∧ signBit (fmul32 m nan a b) = s)

/-- R19: the eight cases of division. -/
def Obligations.DivisionCases : Prop :=
  ∀ (m : SubnormalMode) (nan a b a' b' : Word) (s : Bool), a' = condition m a → b' = condition m b →
    s = (signBit a != signBit b) →
    (isNaN32 a' = true ∨ isNaN32 b' = true → fdiv32 m nan a b = nan) ∧
    (isInf32 a' = true → isInf32 b' = true → fdiv32 m nan a b = nan) ∧
    (isZero32 a' = true → isZero32 b' = true → fdiv32 m nan a b = nan) ∧
    (isInf32 a' = true → isFinite32 b' = true → fdiv32 m nan a b = if s then fNInf else fInf) ∧
    (isFinite32 a' = true → isInf32 b' = true → fdiv32 m nan a b = if s then fNegZero else fZero) ∧
    (isFinite32 a' = true → isZero32 a' = false → isZero32 b' = true →
      fdiv32 m nan a b = if s then fNInf else fInf) ∧
    (isZero32 a' = true → isFinite32 b' = true → isZero32 b' = false →
      fdiv32 m nan a b = if s then fNegZero else fZero) ∧
    (isFinite32 a' = true → isFinite32 b' = true → isZero32 a' = false → isZero32 b' = false →
      Rounds m (value32 a' / value32 b') (fdiv32 m nan a b) ∧ signBit (fdiv32 m nan a b) = s)

/-- R20: the comparisons are the order of the values, false on a NaN, and the two zeros are equal. -/
def Obligations.ComparisonIsOrderOfValues : Prop :=
  ∀ (m : SubnormalMode) (a b a' b' : Word), a' = condition m a → b' = condition m b →
    (flt32 m a b = true ↔ isNaN32 a' = false ∧ isNaN32 b' = false ∧ valueExt a' < valueExt b') ∧
    fgt32 m a b = flt32 m b a ∧
    flt32 m fZero fNegZero = false ∧ flt32 m fNegZero fZero = false

/-- R92, R93, R100: a clamp saturates outside its bounds and returns the word itself, bit for bit, inside them and on a
NaN; the bounds of the two clamp stages. The comparisons read words as the mode does. -/
def Obligations.ClampsSaturate : Prop :=
  (∀ (m : SubnormalMode) (v lo hi : Word), isNaN32 lo = false → isNaN32 hi = false → valueExt lo ≤ valueExt hi →
    (isNaN32 v = true → clampF m v lo hi = v) ∧
    (isNaN32 v = false →
      (valueExt (condition m v) < valueExt (condition m lo) → clampF m v lo hi = lo) ∧
      (valueExt (condition m hi) < valueExt (condition m v) → clampF m v lo hi = hi) ∧
      (valueExt (condition m lo) ≤ valueExt (condition m v) →
        valueExt (condition m v) ≤ valueExt (condition m hi) → clampF m v lo hi = v))) ∧
  (∀ (m : SubnormalMode) (t6 : Word),
    (isNaN32 t6 = true → stageClamp m t6 = t6) ∧
    (isNaN32 t6 = false →
      (valueExt fOne < valueExt t6 → stageClamp m t6 = fOne) ∧
      (valueExt t6 < valueExt fNegOne → stageClamp m t6 = fNegOne) ∧
      (valueExt fNegOne ≤ valueExt t6 → valueExt t6 ≤ valueExt fOne → stageClamp m t6 = t6)) ∧
    stageClamp m fNegZero = fNegZero ∧ stageClamp m 0x3FC00000#32 = 0x3F800000#32) ∧
  ∀ (m : SubnormalMode) (w : Word),
    (isNaN32 w = true → stageWClamp m w = w) ∧
    (isNaN32 w = false →
      (valueExt (condition m w) < valueExt fZero → stageWClamp m w = fZero) ∧
      (valueExt fOne < valueExt w → stageWClamp m w = fOne) ∧
      (valueExt fZero ≤ valueExt (condition m w) → valueExt w ≤ valueExt fOne → stageWClamp m w = w)) ∧
    stageWClamp m fNegZero = fNegZero ∧ stageWClamp m 0x3FC00000#32 = 0x3F800000#32

/-- R85: a primitive that yields a NaN yields the NaN supplied to it, and the supply can be any NaN word and nothing else;
a NaN that passes through the fallback or a clamp keeps its bits. -/
def Obligations.NaNResultIsAnyNaN : Prop :=
  (∀ n : Nat, isNaN32 (nanDraw n) = true) ∧ (∀ d : BitVec 32, isNaN32 (nanOf d) = true) ∧
  (∀ w : Word, isNaN32 w = true → ∃ d : BitVec 32, nanOf d = w) ∧
  (∀ (m : SubnormalMode) (nan a b : Word),
    (isNaN32 (fadd32 m nan a b) = true → fadd32 m nan a b = nan) ∧
    (isNaN32 (fsub32 m nan a b) = true → fsub32 m nan a b = nan) ∧
    (isNaN32 (fmul32 m nan a b) = true → fmul32 m nan a b = nan) ∧
    (isNaN32 (fdiv32 m nan a b) = true → fdiv32 m nan a b = nan)) ∧
  (∀ t5 x : Word, isFinite32 t5 = false → stageFinite t5 x = x) ∧
  ∀ (m : SubnormalMode) (v lo hi : Word), isNaN32 v = true → clampF m v lo hi = v

/-- R71: inside the declared range the multiply amount is at least 1, so it is finite, no NaN and no zero, and the
division never divides by zero. -/
def Obligations.ContractExcludesDivisionByZero : Prop :=
  ∀ (m : SubnormalMode) (p : Params), p.inContract = true →
    isFinite32 p.mult = true ∧ isNaN32 p.mult = false ∧ 1 ≤ value32 p.mult ∧ value32 p.mult ≤ 1024 ∧
    isZero32 (condition m p.mult) = false

/-! ## The stages of a lane -/

/-- R82, R101: the stages of a lane, in this order, each a rounding of its own on the named operands; R101's example. -/
def Obligations.LaneIsTheStagesInOrder : Prop :=
  (∀ (m : SubnormalMode) (nan : Nat → Word) (x : Word) (p : Params) (l : Lane) (t : Word),
    l = laneWith m nan x p → t = clampF m p.wet fZero fOne →
    l.t1 = fmul32 m (nan 0) x p.mult ∧ l.t2 = fadd32 m (nan 1) l.t1 p.add ∧
    l.t3 = fsub32 m (nan 2) l.t2 p.add ∧ l.t4 = fdiv32 m (nan 3) l.t3 p.mult ∧
    l.t5 = (if p.res then fsub32 m (nan 4) l.t4 x else l.t4) ∧
    l.t6 = (if isFinite32 l.t5 then l.t5 else x) ∧ l.t7 = clampF m l.t6 fNegOne fOne ∧
    l.y = fadd32 m (nan 8) (fmul32 m (nan 6) (fsub32 m (nan 5) fOne t) x) (fmul32 m (nan 7) t l.t7)) ∧
  ∀ (m : SubnormalMode) (nan : Nat → Word),
    xfadeWords m nan 0x3F000000#32 0x3E800000#32 0x3F000000#32 =
      ⟨0x3F000000#32, 0x3F000000#32, 0x3E800000#32, 0x3E000000#32, 0x3EC00000#32⟩

/-- Stage MUL and its corner cases (from R86); on an overflow the lane falls back to `x`. Under IEEE `condition m x` is `x`
itself. That a subnormal `x` gives the zero of its sign under FTZ_DAZ is deduced, and not R86's (log entry 15). -/
def Obligations.StageMulCorners : Prop :=
  ∀ (m : SubnormalMode) (nan x mu : Word),
    stageMul m nan x mu = fmul32 m nan x mu ∧
    (isNaN32 x = false → stageMul m nan x fOne = condition m x) ∧
    (isZero32 x = true → isFinite32 mu = true →
      stageMul m nan x mu = if signBit x != signBit mu then fNegZero else fZero) ∧
    (isFinite32 x = true → isFinite32 mu = true → (2 : Rat) ^ 128 - 2 ^ 103 ≤ |value32 x| * value32 mu →
      stageMul m nan x mu = (if signBit x then fNInf else fInf) ∧
      ∀ (nan' : Nat → Word) (p : Params), AllNaN nan' → p.mult = mu → (laneWith m nan' x p).t6 = x) ∧
    (isNaN32 x = true ∨ isNaN32 mu = true → stageMul m nan x mu = nan) ∧
    (isInf32 x = true → isZero32 mu = true → stageMul m nan x mu = nan) ∧
    stageMul m nan 0x3F000000#32 0x40000000#32 = 0x3F800000#32

/-- Stage ADD and its corner cases (from R87), with the grids it names. That a subnormal `t1` and `A = +0` give +0 under
FTZ_DAZ is deduced, and not R87's (log entry 15). -/
def Obligations.StageAddCorners : Prop :=
  ∀ (m : SubnormalMode) (nan t1 a : Word),
    stageAdd m nan t1 a = fadd32 m nan t1 a ∧
    (isNaN32 t1 = false →
      stageAdd m nan t1 fZero = if isZero32 (condition m t1) then fZero else condition m t1) ∧
    (isFinite32 (stageAdd m nan t1 a) = true →
      ((2 : Rat) ^ 22 ≤ |value32 (stageAdd m nan t1 a)| → |value32 (stageAdd m nan t1 a)| < 2 ^ 23 →
        ∃ k : Int, value32 (stageAdd m nan t1 a) = k / 2) ∧
      ((2 : Rat) ^ 19 ≤ |value32 (stageAdd m nan t1 a)| → |value32 (stageAdd m nan t1 a)| < 2 ^ 20 →
        ∃ k : Int, value32 (stageAdd m nan t1 a) = k / 16)) ∧
    (isInf32 t1 = true → isNaN32 a = false → (isInf32 a = true → a = t1) → stageAdd m nan t1 a = t1) ∧
    (isNaN32 t1 = true ∨ isNaN32 a = true → stageAdd m nan t1 a = nan) ∧
    stageAdd m nan 0x3DCCCCCD#32 0x49742400#32 = 0x49742402#32

/-- Stage SUB and its corner cases (from R88). A difference of operands within a factor of two of each other is exact; that
FTZ_DAZ replaces a subnormal difference by a zero is deduced, and not R88's (log entry 15). -/
def Obligations.StageSubCorners : Prop :=
  ∀ (m : SubnormalMode) (nan nan' t2 a t1 : Word),
    stageSub m nan t2 a = fsub32 m nan t2 a ∧
    (isFinite32 t2 = true → isFinite32 a = true →
      value32 (condition m a) / 2 ≤ value32 (condition m t2) →
      value32 (condition m t2) ≤ 2 * value32 (condition m a) →
      value32 (stageSub m nan t2 a) = value32 (condition m t2) - value32 (condition m a) ∨
      (m = .ftzDaz ∧ |value32 (condition m t2) - value32 (condition m a)| < 1 / 2 ^ 126 ∧
        isZero32 (stageSub m nan t2 a) = true)) ∧
    (isFinite32 a = true → 4096 ≤ value32 a → isFinite32 t1 = true → |value32 t1| ≤ 1024 →
      value32 (stageSub m nan (stageAdd m nan' t1 a) a) = value32 (stageAdd m nan' t1 a) - value32 a) ∧
    (isFinite32 a = true → stageSub m nan a a = fZero) ∧
    (isInf32 t2 = true → isFinite32 a = true → stageSub m nan t2 a = t2) ∧
    (isNaN32 t2 = true ∨ isNaN32 a = true → stageSub m nan t2 a = nan) ∧
    stageSub m nan 0x49742402#32 0x49742400#32 = 0x3E000000#32

/-- Stage DIV and its corner cases (from R89). What FTZ_DAZ makes of a subnormal `t3`, the zero of its sign for `Mu = 1` and a
NaN over a zero, is deduced, and not R89's (log entry 15). -/
def Obligations.StageDivCorners : Prop :=
  ∀ (m : SubnormalMode) (nan t3 mu : Word) (s : Bool), s = (signBit t3 != signBit mu) →
    stageDiv m nan t3 mu = fdiv32 m nan t3 mu ∧
    (isNaN32 t3 = false → stageDiv m nan t3 fOne = condition m t3) ∧
    stageDiv m nan (stageMul m nan 0x3F5EDD42#32 0x40400000#32) 0x40400000#32 ≠ 0x3F5EDD42#32 ∧
    (isInf32 t3 = true → isFinite32 mu = true → stageDiv m nan t3 mu = if s then fNInf else fInf) ∧
    (isNaN32 t3 = false → isZero32 mu = true → stageDiv m nan t3 mu =
      if isZero32 (condition m t3) then nan else if s then fNInf else fInf) ∧
    (isFinite32 t3 = true → isInf32 mu = true → stageDiv m nan t3 mu = if s then fNegZero else fZero) ∧
    (isInf32 t3 = true → isInf32 mu = true → stageDiv m nan t3 mu = nan) ∧
    stageDiv m nan 0x3F800000#32 0x40000000#32 = 0x3F000000#32

/-- R90: stage RESIDUE and its corner cases; on an infinite sample of an in-contract residue lane the fallback fires. -/
def Obligations.StageResidueCorners : Prop :=
  ∀ (m : SubnormalMode) (nan t4 x : Word),
    stageResidue m nan t4 x true = fsub32 m nan t4 x ∧ stageResidue m nan t4 x false = t4 ∧
    (isFinite32 x = true → stageResidue m nan x x true = fZero) ∧
    (isZero32 x = true → stageResidue m nan fZero x true = fZero) ∧
    (isInf32 x = true → stageResidue m nan x x true = nan ∧
      ∀ (nan' : Nat → Word) (p : Params), AllNaN nan' → p.inContract = true → p.res = true →
        (laneWith m nan' x p).t4 = x ∧ isNaN32 (laneWith m nan' x p).t5 = true ∧ (laneWith m nan' x p).t6 = x) ∧
    stageResidue m nan 0x3E000000#32 0x3DCCCCCD#32 true = 0x3CCCCCCC#32

/-- R91, R98: the safety net copies the lane's input word where `t5` is not finite; so `t7` is a value in [-1, 1] for every
input, or a NaN, which it is only when `x` is one; R91's example. -/
def Obligations.SafetyNetAndRange : Prop :=
  (∀ t5 x : Word, (isFinite32 t5 = true → stageFinite t5 x = t5) ∧ (isFinite32 t5 = false → stageFinite t5 x = x)) ∧
  (∀ (m : SubnormalMode) (nan : Nat → Word) (x : Word) (p : Params), AllNaN nan →
    IsNominal (laneWith m nan x p).t7 ∨ (isNaN32 (laneWith m nan x p).t7 = true ∧ isNaN32 x = true)) ∧
  ∀ (m : SubnormalMode) (nan : Nat → Word) (wet : Word),
    (laneWith m nan 0x7F000000#32 ⟨wet, fZero, 0x44800000#32, false⟩).t5 = fInf ∧
    (laneWith m nan 0x7F000000#32 ⟨wet, fZero, 0x44800000#32, false⟩).t6 = 0x7F000000#32

/-! ## Properties of the path -/

/-- With multiply amount 1 and add amount +0 the path is the identity, but that -0 becomes +0; in residue mode it is +0, and
a non-finite sample falls back to itself (from R94, R95). That a subnormal becomes +0 under FTZ_DAZ is deduced, and not
R94's (log entry 15). -/
def Obligations.NeutralParametersAreIdentity : Prop :=
  ∀ (m : SubnormalMode) (nan : Nat → Word) (x wet : Word) (rs : Bool), AllNaN nan →
    (isFinite32 x = true →
      (laneWith m nan x ⟨wet, fZero, fOne, rs⟩).t4 =
        (if isZero32 (condition m x) then fZero else condition m x) ∧
      (laneWith m nan x ⟨wet, fZero, fOne, true⟩).t5 = fZero ∧
      (laneWith m nan x ⟨wet, fZero, fOne, true⟩).t7 = fZero) ∧
    (isFinite32 x = false → (laneWith m nan x ⟨wet, fZero, fOne, true⟩).t6 = x)

/-- R96: inside the declared ranges and for `|x| <= 2^100` every word up to `t5` is finite and the fallback does not
fire; and, inside the ranges, for which samples it does (the cases R97 gives there). -/
def Obligations.FallbackFiresExactlyOnOverflow : Prop :=
  ∀ (m : SubnormalMode) (nan : Nat → Word) (x : Word) (p : Params), AllNaN nan → p.inContract = true →
    (isFinite32 x = true → |value32 x| ≤ 2 ^ 100 →
      (laneWith m nan x p).finiteUpToT5 ∧ (laneWith m nan x p).t6 = (laneWith m nan x p).t5) ∧
    (isFinite32 (laneWith m nan x p).t5 = false ↔
      isFinite32 x = false ∨ (2 : Rat) ^ 128 - 2 ^ 103 ≤ |value32 x| * value32 p.mult)

/-- The grid of the largest add amount, on which the low bits of a sample are lost (from R99): the subtraction is exact, its
result is a multiple of 1/4, and it differs from the scaled sample by at most 1/4. -/
def Obligations.LargestAddQuantises : Prop :=
  ∀ (m : SubnormalMode) (nan : Nat → Word) (x : Word) (p : Params) (l : Lane), IsNominal x → p.inContract = true →
    p.add = f4M → l = laneWith m nan x p →
    |value32 l.t1| ≤ 1024 ∧ (2 : Rat) ^ 22 - 1024 ≤ value32 l.t2 ∧ value32 l.t2 ≤ 2 ^ 22 + 1024 ∧
    value32 l.t3 = value32 l.t2 - 2 ^ 22 ∧ (∃ k : Int, value32 l.t3 = k / 4) ∧
    |value32 l.t3 - value32 l.t1| ≤ 1 / 4

/-- R102: `(1 - T) + T` rounds to 1 for every fraction, in both subnormal modes. -/
def Obligations.WeightsSumToOne : Prop :=
  ∀ (m : SubnormalMode) (nan nan' t : Word), IsFraction t →
    fadd32 m nan (fsub32 m nan' fOne t) t = fOne

/-- At fraction 0 the output is the input, and at fraction 1 it is the processed value, bit for bit but for the signs of
zeros; an infinite sample at fraction 1 gives a NaN (from R103, R104). That a subnormal gives a zero under FTZ_DAZ is
deduced, and not those rules' (log entry 15). -/
def Obligations.FullDryAndFullWet : Prop :=
  (∀ (m : SubnormalMode) (nan : Nat → Word) (x o w x' : Word), isZero32 w = true → isFinite32 x = true →
    isFinite32 o = true → x' = condition m x →
    xfade m nan x o w =
      if isZero32 x' then
        (if x' = fNegZero ∧ signBit w ≠ signBit o then fNegZero else fZero)
      else x') ∧
  (∀ (m : SubnormalMode) (nan : Nat → Word) (x o o' : Word), isFinite32 x = true → isNaN32 o = false →
    o' = condition m o →
    xfade m nan x o fOne =
      if isZero32 o' then (if signBit x = true ∧ signBit o = true then fNegZero else fZero) else o') ∧
  ∀ (m : SubnormalMode) (nan : Nat → Word) (x o : Word), AllNaN nan → isInf32 x = true →
    isNaN32 (xfade m nan x o fOne) = true

/-- R105: nominal words and a fraction in [0, 1] give a nominal word, so a nominal sample under an in-contract snapshot
gives one; the bound fails for a sample outside [-1, 1] at fraction 0. -/
def Obligations.OutputBoundedForNominalSamples : Prop :=
  (∀ (m : SubnormalMode) (nan : Nat → Word) (x o w : Word), IsNominal x → IsNominal o → IsFraction w →
    IsNominal (xfade m nan x o w)) ∧
  (∀ (s : State) (x0 x1 : Word), s.frameParams.inContract = true → IsNominal x0 → IsNominal x1 →
    ∃ (t : State) (y : Frame), exec (.frame x0 x1) s = .next t ∧ t.out = some y ∧ Frame.IsNominal y) ∧
  ∀ (m : SubnormalMode) (nan : Nat → Word),
    (laneWith m nan 0x40000000#32 ⟨fZero, fZero, f1024, false⟩).y = 0x40000000#32

/-- R106, R107: a finite sample gives a finite output under every fraction that is no NaN; a NaN sample gives a NaN; an
infinite one gives itself below fraction 1 and a NaN at it. -/
def Obligations.FiniteAndNonFiniteSamples : Prop :=
  (∀ (m : SubnormalMode) (nan : Nat → Word) (x o w : Word), isFinite32 x = true → IsNominal o →
    isNaN32 w = false → isFinite32 (xfade m nan x o w) = true) ∧
  ∀ (m : SubnormalMode) (nan : Nat → Word) (x : Word) (p : Params) (l : Lane), AllNaN nan →
    l = laneWith m nan x p →
    (isFinite32 x = true → isNaN32 p.wet = false → isFinite32 l.y = true) ∧
    (isNaN32 x = true → l.t7 = x ∧ isNaN32 l.y = true) ∧
    (isInf32 x = true → isNaN32 p.wet = false →
      l.t7 = (if signBit x then fNegOne else fOne) ∧
      (value32 (stageWClamp m p.wet) < 1 → l.y = x) ∧
      (value32 (stageWClamp m p.wet) = 1 → isNaN32 l.y = true))

/-- The scenario `x = 0.5`, `A = 0`, `Mu = 1` (from R108): without residue the output is 0.5 at every fraction; in residue
mode the processed value is +0 and the output is the dry share. -/
def Obligations.HalfSampleScenario : Prop :=
  ∀ (m : SubnormalMode) (nan : Nat → Word) (w : Word), IsFraction w →
    (laneWith m nan 0x3F000000#32 ⟨w, fZero, fOne, false⟩).t7 = 0x3F000000#32 ∧
    (laneWith m nan 0x3F000000#32 ⟨w, fZero, fOne, false⟩).y = 0x3F000000#32 ∧
    (laneWith m nan 0x3F000000#32 ⟨w, fZero, fOne, true⟩).t7 = fZero ∧
    (laneWith m nan 0x3F000000#32 ⟨w, fZero, fOne, true⟩).y =
      fmul32 m (nan 6) (fsub32 m (nan 5) fOne w) 0x3F000000#32

/-- R108's last words, that in residue mode the output "equals 0.5 only at `T = 0`". Expected to FAIL: a fraction so small that
`1 - T` rounds to 1 gives 0.5 as well (log entry 15). -/
def Obligations.ResidueGivesHalfOnlyAtZeroFraction : Prop :=
  ∀ (m : SubnormalMode) (nan : Nat → Word) (w : Word), AllNaN nan → IsFraction w →
    (laneWith m nan 0x3F000000#32 ⟨w, fZero, fOne, true⟩).y = 0x3F000000#32 → isZero32 w = true

/-- R109: how far the rounded interpolation may lie from the exact one, under IEEE, and its two examples. The second bound,
for FTZ_DAZ, where a share may be flushed, is the model's own and no rule's (log entry 15). -/
def Obligations.InterpolationErrorBound : Prop :=
  (∀ (nan : Nat → Word) (x o t : Word), isFinite32 x = true → isFinite32 o = true → IsFraction t →
    isFinite32 (xfade .ieee nan x o t) = true ∧
    |value32 (xfade .ieee nan x o t) - ((1 - value32 t) * value32 x + value32 t * value32 o)| <
      1 / 2 ^ 22 * max |value32 x| |value32 o| + 1 / 2 ^ 147) ∧
  (∀ (nan : Nat → Word) (x o t : Word), isFinite32 x = true → isFinite32 o = true → IsFraction t →
    isFinite32 (xfade .ftzDaz nan x o t) = true ∧
    |value32 (xfade .ftzDaz nan x o t) - ((1 - value32 t) * value32 x + value32 t * value32 o)| <
      1 / 2 ^ 22 * max |value32 x| |value32 o| + 1 / 2 ^ 123) ∧
  ∀ nan : Nat → Word,
    xfade .ieee nan 0x3F7FFFFF#32 0x3F7FFFFF#32 0x3EAAAAAB#32 = 0x3F7FFFFE#32 ∧
    xfade .ieee nan 0x007FFFFF#32 0x007FFFFF#32 0x3F000000#32 = 0x00800000#32

/-! ## Nominal runs -/

/-- Every step keeps a nominal run nominal: with a host that presents nominal samples and in-contract parameters, every
output word and every sample in the buffer is finite and in [-1, 1] (from R105, R70). -/
def Obligations.NominalRunsStayNominal : Prop :=
  ∀ s t : State, s.IsNominal → step s = .next t → t.IsNominal

/-- The invariants hold right after reset. -/
def Obligations.InvariantsHoldAtReset : Prop :=
  State.reset.buf.wf = true ∧ State.reset.IsNominal
end

