-- ==== Sys2Proof/Laws/Formats.lean ====
section
/-! SUPPORT. The fields of an encoded packet, as numbers and as bits (30_encoding R54, R55). -/

namespace Sys2Proof

/-- A concatenation as a number: the more significant part counts units of the other's width (00_scope R8). -/
theorem toNat_append_eq {v w : Nat} (a : BitVec v) (b : BitVec w) :
    (a ++ b).toNat = a.toNat * 2 ^ w + b.toNat := by
  rw [BitVec.toNat_append, ← Nat.shiftLeft_add_eq_or_of_lt b.isLt, Nat.shiftLeft_eq]

theorem encode_frame_toNat (x0 x1 : Word) :
    (encode (.frame x0 x1)).toNat = (x1.toNat * 2 ^ 32 + x0.toNat) * 2 ^ 2 + 2 :=
  (toNat_append_eq (x1 ++ x0) (0b10#2)).trans (by rw [toNat_append_eq]; rfl)

@[simp] theorem packetCmd_encode (i : Instr) : packetCmd (encode i) = i.code := by
  cases i with
  | nop => rfl
  | begin => rfl
  | frame x0 x1 =>
    apply BitVec.eq_of_toNat_eq
    simp only [packetCmd, BitVec.extractLsb'_toNat, encode_frame_toNat, Instr.code, Nat.shiftRight_zero]
    simp
  | rsvd => rfl

theorem code_cases (c : BitVec 2) : c = 0b00#2 ∨ c = 0b01#2 ∨ c = 0b10#2 ∨ c = 0b11#2 := by
  revert c; decide

end Sys2Proof
end

