-- ==== Sys2Proof/Laws/Binary32.lean ====
section
/-! SUPPORT. Words, their fields and their classes (00_scope R12, R14), input conditioning (R16), NaN results
(41_distortion_path R85), and what each rounding primitive can answer. -/

namespace Sys2Proof.Machine

/-! ## Fields -/

theorem signBit_eq (w : Word) : signBit w = decide (2 ^ 31 ≤ w.toNat) := by
  have := w.isLt
  rw [signBit, BitVec.getLsbD, Nat.testBit_eq_decide_div_mod_eq, decide_eq_decide]
  omega

theorem expField_eq (w : Word) : expField w = w.toNat / 2 ^ 23 % 2 ^ 8 := by
  simp [expField, BitVec.extractLsb'_toNat, Nat.shiftRight_eq_div_pow]

theorem fracField_eq (w : Word) : fracField w = w.toNat % 2 ^ 23 := by
  simp [fracField, BitVec.extractLsb'_toNat]

theorem expField_lt (w : Word) : expField w < 256 := by rw [expField_eq]; omega
theorem fracField_lt (w : Word) : fracField w < 2 ^ 23 := by rw [fracField_eq]; omega

/-- A word is its three fields (R12). -/
theorem toNat_eq_fields (w : Word) :
    w.toNat = (signBit w).toNat * 2 ^ 31 + (expField w * 2 ^ 23 + fracField w) := by
  have := w.isLt
  rw [signBit_eq, expField_eq, fracField_eq]
  by_cases h : 2 ^ 31 ≤ w.toNat
  · rw [decide_eq_true h, Bool.toNat_true]; omega
  · rw [decide_eq_false h, Bool.toNat_false]; omega

theorem mkWord_toNat (neg : Bool) {mag : Nat} (h : mag < 2 ^ 31) :
    (mkWord neg mag).toNat = neg.toNat * 2 ^ 31 + mag := by
  refine (toNat_append_eq (BitVec.ofBool neg) (BitVec.ofNat 31 mag)).trans ?_
  rw [BitVec.toNat_ofNat, Nat.mod_eq_of_lt h, BitVec.toNat_ofBool]

theorem word_eq_mkWord (w : Word) : w = mkWord (signBit w) (expField w * 2 ^ 23 + fracField w) := by
  have he := expField_lt w
  have hf := fracField_lt w
  exact BitVec.eq_of_toNat_eq (by rw [mkWord_toNat _ (by omega)]; exact toNat_eq_fields w)

@[simp] theorem signBit_mkWord (neg : Bool) (mag : Nat) : signBit (mkWord neg mag) = neg := by
  have : (mkWord neg mag).toNat = neg.toNat * 2 ^ 31 + mag % 2 ^ 31 := by
    refine (toNat_append_eq (BitVec.ofBool neg) (BitVec.ofNat 31 mag)).trans ?_
    rw [BitVec.toNat_ofNat, BitVec.toNat_ofBool]
  rw [signBit_eq, this]
  cases neg
  · simp; omega
  · simp

theorem expField_mkWord (neg : Bool) {mag : Nat} (h : mag < 2 ^ 31) :
    expField (mkWord neg mag) = mag / 2 ^ 23 := by
  rw [expField_eq, mkWord_toNat neg h]
  cases neg <;> (simp; omega)

theorem fracField_mkWord (neg : Bool) {mag : Nat} (h : mag < 2 ^ 31) :
    fracField (mkWord neg mag) = mag % 2 ^ 23 := by
  rw [fracField_eq, mkWord_toNat neg h]
  cases neg
  · simp
  · simp; omega

/-! ## Classes: a word is finite, an infinity or a NaN, and never two of them -/

theorem isFinite32_iff (w : Word) : isFinite32 w = true ↔ expField w ≠ 255 := by simp [isFinite32]
theorem isNaN32_iff (w : Word) : isNaN32 w = true ↔ expField w = 255 ∧ fracField w ≠ 0 := by simp [isNaN32]
theorem isInf32_iff (w : Word) : isInf32 w = true ↔ expField w = 255 ∧ fracField w = 0 := by simp [isInf32]
theorem isZero32_iff (w : Word) : isZero32 w = true ↔ expField w = 0 ∧ fracField w = 0 := by simp [isZero32]
theorem isSubnormal32_iff (w : Word) : isSubnormal32 w = true ↔ expField w = 0 ∧ fracField w ≠ 0 := by
  simp [isSubnormal32]

theorem class_cases (w : Word) :
    (isFinite32 w = true ∧ isInf32 w = false ∧ isNaN32 w = false) ∨
      (isFinite32 w = false ∧ isInf32 w = true ∧ isNaN32 w = false) ∨
      (isFinite32 w = false ∧ isInf32 w = false ∧ isNaN32 w = true) := by
  by_cases he : expField w = 255 <;> by_cases hf : fracField w = 0 <;>
    simp [isFinite32, isInf32, isNaN32, he, hf]

theorem isFinite32_of_isZero32 {w : Word} (h : isZero32 w = true) : isFinite32 w = true := by
  rw [isZero32_iff] at h
  rw [isFinite32_iff]
  omega

/-- An infinity is one of the two words R13 names. -/
theorem eq_infOf_of_isInf32 {w : Word} (h : isInf32 w = true) : w = infOf (signBit w) := by
  rw [isInf32_iff] at h
  conv_lhs => rw [word_eq_mkWord w, h.1, h.2]
  rfl

/-- A zero is `+0` or `-0`. -/
theorem eq_zeroOf_of_isZero32 {w : Word} (h : isZero32 w = true) : w = zeroOf (signBit w) := by
  rw [isZero32_iff] at h
  conv_lhs => rw [word_eq_mkWord w, h.1, h.2]
  rfl

@[simp] theorem signBit_zeroOf (neg : Bool) : signBit (zeroOf neg) = neg := signBit_mkWord ..
@[simp] theorem signBit_infOf (neg : Bool) : signBit (infOf neg) = neg := signBit_mkWord ..
@[simp] theorem isZero32_zeroOf (neg : Bool) : isZero32 (zeroOf neg) = true := by cases neg <;> decide
@[simp] theorem isInf32_infOf (neg : Bool) : isInf32 (infOf neg) = true := by cases neg <;> decide
@[simp] theorem isNaN32_zeroOf (neg : Bool) : isNaN32 (zeroOf neg) = false := by cases neg <;> decide
@[simp] theorem isNaN32_infOf (neg : Bool) : isNaN32 (infOf neg) = false := by cases neg <;> decide
@[simp] theorem zeroOf_true : zeroOf true = fNegZero := by decide
@[simp] theorem zeroOf_false : zeroOf false = fZero := by decide
@[simp] theorem infOf_true : infOf true = fNInf := by decide
@[simp] theorem infOf_false : infOf false = fInf := by decide

/-! ## Input conditioning (R16) -/

@[simp] theorem condition_ieee (w : Word) : condition .ieee w = w := rfl

/-- Conditioning keeps a word or replaces a subnormal by the zero of its sign. -/
theorem condition_cases (m : SubnormalMode) (w : Word) :
    condition m w = w ∨ (m = .ftzDaz ∧ isSubnormal32 w = true ∧ condition m w = zeroOf (signBit w)) := by
  cases m with
  | ieee => exact .inl rfl
  | ftzDaz =>
    by_cases h : isSubnormal32 w = true
    · exact .inr ⟨rfl, h, by simp [condition, h]⟩
    · exact .inl (by simp [condition, h])

theorem condition_of_not_subnormal (m : SubnormalMode) {w : Word} (h : isSubnormal32 w = false) :
    condition m w = w := by
  cases m <;> simp [condition, h]

@[simp] theorem signBit_condition (m : SubnormalMode) (w : Word) : signBit (condition m w) = signBit w := by
  obtain h | ⟨-, -, h⟩ := condition_cases m w <;> simp [h]

/-- A subnormal word, and the zero it may be read as, are finite. -/
theorem condition_class (m : SubnormalMode) (w : Word) :
    isFinite32 (condition m w) = isFinite32 w ∧ isInf32 (condition m w) = isInf32 w ∧
      isNaN32 (condition m w) = isNaN32 w := by
  obtain h | ⟨-, hs, h⟩ := condition_cases m w
  · simp [h]
  · obtain ⟨he, hf⟩ := (isSubnormal32_iff w).mp hs
    rw [h]
    cases signBit w <;> simp [isFinite32, isInf32, isNaN32, he] <;> decide

@[simp] theorem isFinite32_condition (m : SubnormalMode) (w : Word) : isFinite32 (condition m w) = isFinite32 w :=
  (condition_class m w).1
@[simp] theorem isInf32_condition (m : SubnormalMode) (w : Word) : isInf32 (condition m w) = isInf32 w :=
  (condition_class m w).2.1
@[simp] theorem isNaN32_condition (m : SubnormalMode) (w : Word) : isNaN32 (condition m w) = isNaN32 w :=
  (condition_class m w).2.2

@[simp] theorem condition_condition (m : SubnormalMode) (w : Word) : condition m (condition m w) = condition m w := by
  obtain h | ⟨rfl, -, h⟩ := condition_cases m w
  · rw [h, h]
  · rw [h]
    cases signBit w <;> decide

/-! ## NaN results (R85) -/

theorem isNaN32_nanOf (d : BitVec 32) : isNaN32 (nanOf d) = true := by
  have hf := fracField_lt d
  rw [isNaN32_iff]
  unfold nanOf
  split
  · rw [expField_mkWord _ (by decide), fracField_mkWord _ (by decide)]
    decide
  · rw [expField_mkWord _ (by omega), fracField_mkWord _ (by omega)]
    omega

theorem isNaN32_nanDraw (n : Nat) : isNaN32 (nanDraw n) = true := isNaN32_nanOf _

theorem nanOf_self {w : Word} (h : isNaN32 w = true) : nanOf w = w := by
  obtain ⟨he, hf⟩ := (isNaN32_iff w).mp h
  rw [nanOf, if_neg hf]
  conv_rhs => rw [word_eq_mkWord w, he]
  rfl

/-! ## What the primitives can answer -/

/-- Everything `round32` can answer: an infinity, the nearest word, or under FTZ_DAZ a zero, each of the sign given. -/
theorem round32_cases (m : SubnormalMode) (neg : Bool) (n d : Nat) :
    round32 m neg n d = infOf neg ∨ round32 m neg n d = mkWord neg (nearestMag n d) ∨
      (m = .ftzDaz ∧ round32 m neg n d = zeroOf neg) := by
  unfold round32
  split
  · exact .inl rfl
  · cases m with
    | ieee => exact .inr (.inl rfl)
    | ftzDaz =>
      dsimp only
      split
      · exact .inr (.inr ⟨rfl, rfl⟩)
      · exact .inr (.inl rfl)

@[simp] theorem signBit_round32 (m : SubnormalMode) (neg : Bool) (n d : Nat) :
    signBit (round32 m neg n d) = neg := by
  obtain h | h | ⟨-, h⟩ := round32_cases m neg n d <;> simp [h]

/-- Everything a clamp can answer: a bound, or the word itself. -/
theorem clampF_cases (m : SubnormalMode) (v lo hi : Word) :
    (flt32 m v lo = true ∧ clampF m v lo hi = lo) ∨
      (flt32 m v lo = false ∧ flt32 m hi v = true ∧ clampF m v lo hi = hi) ∨
      (flt32 m v lo = false ∧ flt32 m hi v = false ∧ clampF m v lo hi = v) := by
  unfold clampF fgt32
  cases flt32 m v lo <;> cases flt32 m hi v <;> simp

/-- A NaN operand makes every arithmetic primitive answer the NaN supplied to it (R17 to R19, case 1). -/
theorem fadd32_nan {m : SubnormalMode} {nan a b : Word} (h : isNaN32 a = true ∨ isNaN32 b = true) :
    fadd32 m nan a b = nan := by
  obtain h | h := h <;> simp [fadd32, addCases, h]

/-- Inverting bit 31 turns the sign and nothing else (R17). -/
theorem negate_mkWord (neg : Bool) (mag : Nat) : negate (mkWord neg mag) = mkWord (!neg) mag := by
  have h : (0x80000000#32 : Word) = BitVec.ofBool true ++ 0#31 := by decide
  rw [negate, h]
  refine (BitVec.xor_append (x₁ := BitVec.ofBool neg)).trans ?_
  rw [BitVec.xor_zero]
  cases neg <;> rfl

theorem negate_eq (b : Word) : negate b = mkWord (!signBit b) (expField b * 2 ^ 23 + fracField b) := by
  conv_lhs => rw [word_eq_mkWord b, negate_mkWord]

@[simp] theorem signBit_negate (b : Word) : signBit (negate b) = !signBit b := by rw [negate_eq, signBit_mkWord]

@[simp] theorem expField_negate (b : Word) : expField (negate b) = expField b := by
  have := expField_lt b
  have := fracField_lt b
  rw [negate_eq, expField_mkWord _ (by omega)]
  omega

@[simp] theorem fracField_negate (b : Word) : fracField (negate b) = fracField b := by
  have := expField_lt b
  have := fracField_lt b
  rw [negate_eq, fracField_mkWord _ (by omega)]
  omega

theorem isNaN32_negate (b : Word) : isNaN32 (negate b) = isNaN32 b := by simp [isNaN32]

theorem fsub32_nan {m : SubnormalMode} {nan a b : Word} (h : isNaN32 a = true ∨ isNaN32 b = true) :
    fsub32 m nan a b = nan := fadd32_nan (h.imp_right fun h => by rw [isNaN32_negate, h])

theorem fmul32_nan {m : SubnormalMode} {nan a b : Word} (h : isNaN32 a = true ∨ isNaN32 b = true) :
    fmul32 m nan a b = nan := by
  obtain h | h := h <;> simp [fmul32, mulCases, h]

theorem fdiv32_nan {m : SubnormalMode} {nan a b : Word} (h : isNaN32 a = true ∨ isNaN32 b = true) :
    fdiv32 m nan a b = nan := by
  obtain h | h := h <;> simp [fdiv32, divCases, h]

end Sys2Proof.Machine
end

