-- ==== Sys2Proof/Laws/Buffer.lean ====
section
/-! SUPPORT. The host buffer: reads after writes, what a write leaves alone, and that every operation keeps the canonical
form (20_memory R38). -/

namespace Sys2Proof.Machine

/-! ## One write -/

/-- Everything a write can do: it is to channel 0 or channel 1, at a position inside it, and sets that word only. -/
theorem bufWrite_cases {b b' : Memory} {c f : Nat} {v : Word} (h : bufWrite b c f v = some b') :
    (c = 0 ∧ f < b.ch0.length ∧ b' = { b with ch0 := b.ch0.set f v }) ∨
      (c = 1 ∧ f < b.ch1.length ∧ b' = { b with ch1 := b.ch1.set f v }) := by
  unfold bufWrite at h
  split at h
  · split at h
    · exact .inl ⟨‹_›, ‹_›, (Option.some.inj h).symm⟩
    · cases h
  · split at h
    · split at h
      · exact .inr ⟨‹_›, ‹_›, (Option.some.inj h).symm⟩
      · cases h
    · cases h

theorem bufRead_after_write {b b' : Memory} {c f : Nat} {v : Word} (h : bufWrite b c f v = some b') :
    bufRead b' c f = some v := by
  obtain ⟨rfl, hf, rfl⟩ | ⟨rfl, hf, rfl⟩ := bufWrite_cases h <;> simp [bufRead, hf]

theorem bufRead_other_after_write {b b' : Memory} {c f d g : Nat} {v : Word} (h : bufWrite b c f v = some b')
    (hne : (d, g) ≠ (c, f)) : bufRead b' d g = bufRead b d g := by
  obtain ⟨rfl, hf, rfl⟩ | ⟨rfl, hf, rfl⟩ := bufWrite_cases h
  · by_cases hd : d = 0
    · subst hd
      have : f ≠ g := fun e => hne (by rw [e])
      simp [bufRead, List.getElem?_set_ne this]
    · simp [bufRead, hd]
  · by_cases hd : d = 1
    · subst hd
      have : f ≠ g := fun e => hne (by rw [e])
      simp [bufRead, List.getElem?_set_ne this]
    · simp [bufRead, hd]

theorem bufWrite_wf {b b' : Memory} {c f : Nat} {v : Word} (h : bufWrite b c f v = some b') : b'.wf = b.wf := by
  obtain ⟨-, -, rfl⟩ | ⟨-, -, rfl⟩ := bufWrite_cases h <;> simp [Memory.wf]

theorem bufWrite_frames {b b' : Memory} {c f : Nat} {v : Word} (h : bufWrite b c f v = some b') :
    b'.frames = b.frames := by
  obtain ⟨-, -, rfl⟩ | ⟨-, -, rfl⟩ := bufWrite_cases h <;> simp [Memory.frames]

theorem bufRead_isSome_iff {b : Memory} (hwf : b.wf = true) (c f : Nat) :
    (bufRead b c f).isSome = true ↔ c < 2 ∧ f < b.frames := by
  have hlen : b.ch0.length = b.ch1.length := by simpa [Memory.wf] using hwf
  unfold bufRead Memory.frames
  split
  · simp [*]
  · split
    · simp [*]
    · simp; omega

theorem bufWrite_of_read {b : Memory} {c f : Nat} {x : Word} (h : bufRead b c f = some x) (v : Word) :
    ∃ b', bufWrite b c f v = some b' := by
  unfold bufRead at h
  unfold bufWrite
  split at h
  · obtain ⟨hf, -⟩ := List.getElem?_eq_some_iff.mp h
    simp [*]
  · split at h
    · obtain ⟨hf, -⟩ := List.getElem?_eq_some_iff.mp h
      simp [*]
    · cases h

/-! ## The write-back of a frame (20_memory R44) -/

/-- Everything a write-back at a legal position does. -/
theorem writeBack_legal {s : State} {f : Nat} {x0 x1 : Word} {y : Frame} (hy : s.out = some y)
    (h0 : bufRead s.buf 0 f = some x0) (h1 : bufRead s.buf 1 f = some x1) :
    ∃ b, writeBack f s = .next (s.setBuf b) ∧ bufRead b 0 f = some y.ch0 ∧ bufRead b 1 f = some y.ch1 ∧
      (∀ c g, g ≠ f → bufRead b c g = bufRead s.buf c g) ∧ b.wf = s.buf.wf ∧ b.frames = s.buf.frames := by
  obtain ⟨b0, hb0⟩ := bufWrite_of_read h0 y.ch0
  have h1' : bufRead b0 1 f = some x1 := by rw [bufRead_other_after_write hb0 (by simp), h1]
  obtain ⟨b1, hb1⟩ := bufWrite_of_read h1' y.ch1
  refine ⟨b1, by simp [writeBack, hy, hb0, hb1], ?_, bufRead_after_write hb1, ?_,
    (bufWrite_wf hb1).trans (bufWrite_wf hb0), (bufWrite_frames hb1).trans (bufWrite_frames hb0)⟩
  · rw [bufRead_other_after_write hb1 (by simp), bufRead_after_write hb0]
  · intro c g hg
    rw [bufRead_other_after_write hb1 (by simp [hg]), bufRead_other_after_write hb0 (by simp [hg])]

end Sys2Proof.Machine
end

