-- ==== Sys2Proof/Laws/State.lean ====
section
/-! SUPPORT. One lemma per field of State and per write of a field, and what the composed operations leave in each
field, so that no later proof unfolds a record update. -/

namespace Sys2Proof.Machine

section
variable (s : State) (p : Params)
@[simp] theorem setInP_sWet : (s.setInP p).sWet = s.sWet := rfl
@[simp] theorem setInP_sAdd : (s.setInP p).sAdd = s.sAdd := rfl
@[simp] theorem setInP_sMult : (s.setInP p).sMult = s.sMult := rfl
@[simp] theorem setInP_sRes : (s.setInP p).sRes = s.sRes := rfl
@[simp] theorem setInP_pos : (s.setInP p).pos = s.pos := rfl
@[simp] theorem setInP_inP : (s.setInP p).inP = p := rfl
@[simp] theorem setInP_out : (s.setInP p).out = s.out := rfl
@[simp] theorem setInP_buf : (s.setInP p).buf = s.buf := rfl
@[simp] theorem setInP_script : (s.setInP p).script = s.script := rfl
@[simp] theorem setInP_draws : (s.setInP p).draws = s.draws := rfl
@[simp] theorem setInP_cfg : (s.setInP p).cfg = s.cfg := rfl
@[simp] theorem setInP_snapshot : (s.setInP p).snapshot = s.snapshot := rfl
end

section
variable (s : State) (y : Option Frame)
@[simp] theorem setOut_sWet : (s.setOut y).sWet = s.sWet := rfl
@[simp] theorem setOut_sAdd : (s.setOut y).sAdd = s.sAdd := rfl
@[simp] theorem setOut_sMult : (s.setOut y).sMult = s.sMult := rfl
@[simp] theorem setOut_sRes : (s.setOut y).sRes = s.sRes := rfl
@[simp] theorem setOut_pos : (s.setOut y).pos = s.pos := rfl
@[simp] theorem setOut_inP : (s.setOut y).inP = s.inP := rfl
@[simp] theorem setOut_out : (s.setOut y).out = y := rfl
@[simp] theorem setOut_buf : (s.setOut y).buf = s.buf := rfl
@[simp] theorem setOut_script : (s.setOut y).script = s.script := rfl
@[simp] theorem setOut_draws : (s.setOut y).draws = s.draws := rfl
@[simp] theorem setOut_cfg : (s.setOut y).cfg = s.cfg := rfl
@[simp] theorem setOut_snapshot : (s.setOut y).snapshot = s.snapshot := rfl
end

section
variable (s : State) (n : BitVec 7)
@[simp] theorem setPos_sWet : (s.setPos n).sWet = s.sWet := rfl
@[simp] theorem setPos_sAdd : (s.setPos n).sAdd = s.sAdd := rfl
@[simp] theorem setPos_sMult : (s.setPos n).sMult = s.sMult := rfl
@[simp] theorem setPos_sRes : (s.setPos n).sRes = s.sRes := rfl
@[simp] theorem setPos_pos : (s.setPos n).pos = n := rfl
@[simp] theorem setPos_inP : (s.setPos n).inP = s.inP := rfl
@[simp] theorem setPos_out : (s.setPos n).out = s.out := rfl
@[simp] theorem setPos_buf : (s.setPos n).buf = s.buf := rfl
@[simp] theorem setPos_script : (s.setPos n).script = s.script := rfl
@[simp] theorem setPos_draws : (s.setPos n).draws = s.draws := rfl
@[simp] theorem setPos_cfg : (s.setPos n).cfg = s.cfg := rfl
@[simp] theorem setPos_snapshot : (s.setPos n).snapshot = s.snapshot := rfl
end

section
variable (s : State) (b : Memory)
@[simp] theorem setBuf_sWet : (s.setBuf b).sWet = s.sWet := rfl
@[simp] theorem setBuf_sAdd : (s.setBuf b).sAdd = s.sAdd := rfl
@[simp] theorem setBuf_sMult : (s.setBuf b).sMult = s.sMult := rfl
@[simp] theorem setBuf_sRes : (s.setBuf b).sRes = s.sRes := rfl
@[simp] theorem setBuf_pos : (s.setBuf b).pos = s.pos := rfl
@[simp] theorem setBuf_inP : (s.setBuf b).inP = s.inP := rfl
@[simp] theorem setBuf_out : (s.setBuf b).out = s.out := rfl
@[simp] theorem setBuf_buf : (s.setBuf b).buf = b := rfl
@[simp] theorem setBuf_script : (s.setBuf b).script = s.script := rfl
@[simp] theorem setBuf_draws : (s.setBuf b).draws = s.draws := rfl
@[simp] theorem setBuf_cfg : (s.setBuf b).cfg = s.cfg := rfl
@[simp] theorem setBuf_snapshot : (s.setBuf b).snapshot = s.snapshot := rfl
end

section
variable (s : State) (es : List HostEvent)
@[simp] theorem setScript_sWet : (s.setScript es).sWet = s.sWet := rfl
@[simp] theorem setScript_sAdd : (s.setScript es).sAdd = s.sAdd := rfl
@[simp] theorem setScript_sMult : (s.setScript es).sMult = s.sMult := rfl
@[simp] theorem setScript_sRes : (s.setScript es).sRes = s.sRes := rfl
@[simp] theorem setScript_pos : (s.setScript es).pos = s.pos := rfl
@[simp] theorem setScript_inP : (s.setScript es).inP = s.inP := rfl
@[simp] theorem setScript_out : (s.setScript es).out = s.out := rfl
@[simp] theorem setScript_buf : (s.setScript es).buf = s.buf := rfl
@[simp] theorem setScript_script : (s.setScript es).script = es := rfl
@[simp] theorem setScript_draws : (s.setScript es).draws = s.draws := rfl
@[simp] theorem setScript_cfg : (s.setScript es).cfg = s.cfg := rfl
@[simp] theorem setScript_snapshot : (s.setScript es).snapshot = s.snapshot := rfl
end

section
variable (s : State) (k : Nat)
@[simp] theorem setDraws_sWet : (s.setDraws k).sWet = s.sWet := rfl
@[simp] theorem setDraws_sAdd : (s.setDraws k).sAdd = s.sAdd := rfl
@[simp] theorem setDraws_sMult : (s.setDraws k).sMult = s.sMult := rfl
@[simp] theorem setDraws_sRes : (s.setDraws k).sRes = s.sRes := rfl
@[simp] theorem setDraws_pos : (s.setDraws k).pos = s.pos := rfl
@[simp] theorem setDraws_inP : (s.setDraws k).inP = s.inP := rfl
@[simp] theorem setDraws_out : (s.setDraws k).out = s.out := rfl
@[simp] theorem setDraws_buf : (s.setDraws k).buf = s.buf := rfl
@[simp] theorem setDraws_script : (s.setDraws k).script = s.script := rfl
@[simp] theorem setDraws_draws : (s.setDraws k).draws = k := rfl
@[simp] theorem setDraws_cfg : (s.setDraws k).cfg = s.cfg := rfl
@[simp] theorem setDraws_snapshot : (s.setDraws k).snapshot = s.snapshot := rfl
end

section
variable (s : State) (p : Params)
@[simp] theorem setSnapshot_sWet : (s.setSnapshot p).sWet = p.wet := rfl
@[simp] theorem setSnapshot_sAdd : (s.setSnapshot p).sAdd = p.add := rfl
@[simp] theorem setSnapshot_sMult : (s.setSnapshot p).sMult = p.mult := rfl
@[simp] theorem setSnapshot_sRes : (s.setSnapshot p).sRes = p.res := rfl
@[simp] theorem setSnapshot_pos : (s.setSnapshot p).pos = s.pos := rfl
@[simp] theorem setSnapshot_inP : (s.setSnapshot p).inP = s.inP := rfl
@[simp] theorem setSnapshot_out : (s.setSnapshot p).out = s.out := rfl
@[simp] theorem setSnapshot_buf : (s.setSnapshot p).buf = s.buf := rfl
@[simp] theorem setSnapshot_script : (s.setSnapshot p).script = s.script := rfl
@[simp] theorem setSnapshot_draws : (s.setSnapshot p).draws = s.draws := rfl
@[simp] theorem setSnapshot_cfg : (s.setSnapshot p).cfg = s.cfg := rfl
@[simp] theorem setSnapshot_snapshot : (s.setSnapshot p).snapshot = p := rfl
end

section
variable (s : State)

@[simp] theorem setSnapshot_own_snapshot : s.setSnapshot s.snapshot = s := rfl

/-- A capture writes the snapshot the FRAME uses, whether or not `POS = 0`. -/
theorem capture_eq_setSnapshot : s.capture = s.setSnapshot s.frameParams := by
  unfold State.capture State.frameParams
  split <;> rfl

@[simp] theorem capture_snapshot : s.capture.snapshot = s.frameParams := by
  rw [capture_eq_setSnapshot, setSnapshot_snapshot]

@[simp] theorem capture_pos : s.capture.pos = s.pos := by rw [capture_eq_setSnapshot, setSnapshot_pos]
@[simp] theorem capture_inP : s.capture.inP = s.inP := by rw [capture_eq_setSnapshot, setSnapshot_inP]
@[simp] theorem capture_out : s.capture.out = s.out := by rw [capture_eq_setSnapshot, setSnapshot_out]
@[simp] theorem capture_buf : s.capture.buf = s.buf := by rw [capture_eq_setSnapshot, setSnapshot_buf]
@[simp] theorem capture_script : s.capture.script = s.script := by rw [capture_eq_setSnapshot, setSnapshot_script]
@[simp] theorem capture_draws : s.capture.draws = s.draws := by rw [capture_eq_setSnapshot, setSnapshot_draws]
@[simp] theorem capture_cfg : s.capture.cfg = s.cfg := by rw [capture_eq_setSnapshot, setSnapshot_cfg]

@[simp] theorem advancePos_sWet : s.advancePos.sWet = s.sWet := rfl
@[simp] theorem advancePos_sAdd : s.advancePos.sAdd = s.sAdd := rfl
@[simp] theorem advancePos_sMult : s.advancePos.sMult = s.sMult := rfl
@[simp] theorem advancePos_sRes : s.advancePos.sRes = s.sRes := rfl
@[simp] theorem advancePos_inP : s.advancePos.inP = s.inP := rfl
@[simp] theorem advancePos_out : s.advancePos.out = s.out := rfl
@[simp] theorem advancePos_buf : s.advancePos.buf = s.buf := rfl
@[simp] theorem advancePos_script : s.advancePos.script = s.script := rfl
@[simp] theorem advancePos_draws : s.advancePos.draws = s.draws := rfl
@[simp] theorem advancePos_cfg : s.advancePos.cfg = s.cfg := rfl
@[simp] theorem advancePos_snapshot : s.advancePos.snapshot = s.snapshot := rfl
@[simp] theorem advancePos_pos : s.advancePos.pos = s.pos + 1#7 := rfl

@[simp] theorem resetBlock_inP : s.resetBlock.inP = s.inP := rfl
@[simp] theorem resetBlock_buf : s.resetBlock.buf = s.buf := rfl
@[simp] theorem resetBlock_script : s.resetBlock.script = s.script := rfl
@[simp] theorem resetBlock_draws : s.resetBlock.draws = s.draws := rfl
@[simp] theorem resetBlock_cfg : s.resetBlock.cfg = s.cfg := rfl
@[simp] theorem resetBlock_snapshot : s.resetBlock.snapshot = Params.defaults := rfl
@[simp] theorem resetBlock_pos : s.resetBlock.pos = 0#7 := rfl
@[simp] theorem resetBlock_out : s.resetBlock.out = none := rfl

@[simp] theorem frameParams_of_pos_zero {s : State} (h : s.pos = 0#7) : s.frameParams = s.inP := if_pos h
@[simp] theorem frameParams_of_pos_ne_zero {s : State} (h : s.pos ≠ 0#7) : s.frameParams = s.snapshot := if_neg h

end

/-- The counter advances modulo 128 (10_state R31). -/
theorem pos_add_one_toNat (n : BitVec 7) : (n + 1#7).toNat = (n.toNat + 1) % 128 := by
  simp [BitVec.toNat_add]

/-- The block's five registers and every other field determine a state. -/
theorem state_ext {s t : State} (h1 : s.snapshot = t.snapshot) (h2 : s.pos = t.pos) (h3 : s.inP = t.inP)
    (h4 : s.out = t.out) (h5 : s.buf = t.buf) (h6 : s.script = t.script) (h7 : s.draws = t.draws)
    (h8 : s.cfg = t.cfg) : s = t := by
  obtain ⟨w, a, m, r, pos, inP, out, buf, script, draws, cfg⟩ := s
  obtain ⟨w', a', m', r', pos', inP', out', buf', script', draws', cfg'⟩ := t
  simp only [State.snapshot, Params.mk.injEq] at h1
  simp_all

end Sys2Proof.Machine
end

