-- ==== Sys2Proof/Laws/Commands.lean ====
section
/-! SUPPORT. What each command does, once, and what one step can do: the lemmas that claims about steps cite instead of
unfolding `exec`, `transact` and `hostStep`. -/

namespace Sys2Proof.Machine

/-! ## The commands -/

@[simp] theorem exec_nop_eq (s : State) : exec .nop s = .next (s.setOut none) := rfl
@[simp] theorem exec_begin_eq (s : State) : exec .begin s = .next ((s.setPos 0#7).setOut none) := rfl
@[simp] theorem exec_rsvd_eq (s : State) : exec .rsvd s = .next (s.setOut none) := rfl

/-- FRAME as four writes: the snapshot it uses, the counter, the output and the model's draw counter (R110). -/
@[simp] theorem exec_frame_eq (x0 x1 : Word) (s : State) :
    exec (.frame x0 x1) s =
      .next ((((s.setSnapshot s.frameParams).setPos (s.pos + 1#7)).setOut (some (s.frameResult x0 x1))).setDraws
        (s.draws + 2 * drawsPerLane)) := by
  show execFrame x0 x1 s = _
  simp [execFrame, capture_eq_setSnapshot, State.advancePos]

theorem frameResult_eq (s : State) (x0 x1 : Word) :
    s.frameResult x0 x1 = outputsOf s.cfg.subnormal s.draws x0 x1 s.frameParams := rfl

/-- The state a command leaves. -/
def afterCommand (i : Instr) (s : State) : State :=
  match i with
  | .nop => s.setOut none
  | .begin => (s.setPos 0#7).setOut none
  | .frame x0 x1 => (((s.setSnapshot s.frameParams).setPos (s.pos + 1#7)).setOut
      (some (s.frameResult x0 x1))).setDraws (s.draws + 2 * drawsPerLane)
  | .rsvd => s.setOut none

/-- Every command completes (60_exceptions R116, R129). -/
theorem exec_eq_next (i : Instr) (s : State) : exec i s = .next (afterCommand i s) := by
  cases i with
  | nop => rfl
  | begin => rfl
  | frame x0 x1 => exact exec_frame_eq x0 x1 s
  | rsvd => rfl

/-- No command touches the host's side of the interface or the configuration. -/
theorem afterCommand_frame (i : Instr) (s : State) :
    (afterCommand i s).inP = s.inP ∧ (afterCommand i s).buf = s.buf ∧ (afterCommand i s).script = s.script ∧
      (afterCommand i s).cfg = s.cfg := by
  cases i <;> exact ⟨rfl, rfl, rfl, rfl⟩

/-! ## Transactions -/

@[simp] theorem transact_reset (c : BitVec 66) (p : BitVec 97) (s : State) :
    transact true c p s = .next ((s.setInP (unpackP p)).resetBlock) := rfl

@[simp] theorem transact_command (c : BitVec 66) (p : BitVec 97) (s : State) :
    transact false c p s = .next (afterCommand (decode c) (s.setInP (unpackP p))) := by
  simp [transact, exec_eq_next]

/-- Everything the supply of a buffer can do: it is two channels of equal length, and they replace the buffer. -/
theorem supplyBuffer_cases {channels : List (List Word)} {s t : State} (h : supplyBuffer channels s = .next t) :
    channelCountOk channels = true ∧ channelLengthsOk channels = true ∧
      t = s.setBuf { ch0 := channels.getD 0 [], ch1 := channels.getD 1 [] } := by
  unfold supplyBuffer at h
  split at h
  · cases h
  · next hc =>
    split at h
    · cases h
    · next hl => exact ⟨by simpa using hc, by simpa using hl, (Host.Outcome.next.inj h).symm⟩

theorem supplyBuffer_pair (ch0 ch1 : List Word) (s : State) (h : ch0.length = ch1.length) :
    supplyBuffer [ch0, ch1] s = .next (s.setBuf { ch0 := ch0, ch1 := ch1 }) := by
  simp [supplyBuffer, channelCountOk, channelCount, channelLengthsOk, h]

theorem supplyBuffer_wf {channels : List (List Word)} {s t : State} (h : supplyBuffer channels s = .next t) :
    t.buf.wf = true := by
  obtain ⟨hc, hl, rfl⟩ := supplyBuffer_cases h
  match channels, hc, hl with
  | [ch0, ch1], _, hl =>
    have hlen : ch1.length = ch0.length := by simpa [channelLengthsOk] using hl
    simp [Memory.wf, hlen]

/-- A callback that goes on is the supply of its buffer and then BEGIN. -/
theorem runCallback_cases {channels : List (List Word)} {p : BitVec 97} {s t : State}
    (h : runCallback channels p s = .next t) :
    ∃ u, supplyBuffer channels s = .next u ∧ t = afterCommand (decode (encode .begin)) (u.setInP (unpackP p)) := by
  unfold runCallback at h
  split at h
  · next u hu => exact ⟨u, hu, by simpa using h.symm⟩
  · cases h
  · cases h

/-- Everything one step can do when it gives a next state: nothing is presented; a reset; a presented command; a buffer is
supplied; a callback with its buffer, which is BEGIN; or a frame's turn, which is FRAME and the write-back of its results. -/
theorem step_cases {s t : State} (h : step s = .next t) :
    (s.script = [] ∧ t = s) ∨
    (∃ c p rest, s.script = .present true c p :: rest ∧
      t = ((s.setScript rest).setInP (unpackP p)).resetBlock) ∨
    (∃ c p rest, s.script = .present false c p :: rest ∧
      t = afterCommand (decode c) ((s.setScript rest).setInP (unpackP p))) ∨
    (∃ channels rest, s.script = .supply channels :: rest ∧
      channelCountOk channels = true ∧ channelLengthsOk channels = true ∧
      t = (s.setScript rest).setBuf { ch0 := channels.getD 0 [], ch1 := channels.getD 1 [] }) ∨
    (∃ channels p rest, s.script = .callback channels p :: rest ∧
      channelCountOk channels = true ∧ channelLengthsOk channels = true ∧
      t = afterCommand (decode (encode .begin)) (((s.setScript rest).setBuf
        { ch0 := channels.getD 0 [], ch1 := channels.getD 1 [] }).setInP (unpackP p))) ∨
    (∃ f p rest x0 x1, s.script = .frameAt f p :: rest ∧ bufRead s.buf 0 f = some x0 ∧ bufRead s.buf 1 f = some x1 ∧
      writeBack f (afterCommand (decode (encode (.frame x0 x1))) ((s.setScript rest).setInP (unpackP p))) = .next t) := by
  unfold step hostStep at h
  split at h
  · next hs => exact .inl ⟨hs, (Host.Outcome.next.inj h).symm⟩
  · next e rest hs =>
    cases e with
    | present rst c p =>
      cases rst with
      | true => exact .inr (.inl ⟨c, p, rest, hs, by simpa [runEvent] using h.symm⟩)
      | false => exact .inr (.inr (.inl ⟨c, p, rest, hs, by simpa [runEvent] using h.symm⟩))
    | supply channels => exact .inr (.inr (.inr (.inl ⟨channels, rest, hs, supplyBuffer_cases h⟩)))
    | callback channels p =>
      obtain ⟨u, hu, rfl⟩ := runCallback_cases h
      obtain ⟨hc, hl, rfl⟩ := supplyBuffer_cases hu
      exact .inr (.inr (.inr (.inr (.inl ⟨channels, p, rest, hs, hc, hl, rfl⟩))))
    | frameAt f p =>
      refine .inr (.inr (.inr (.inr (.inr ?_))))
      simp only [runEvent, runFrameAt, setScript_buf] at h
      split at h
      · next x0 x1 h0 h1 => exact ⟨f, p, rest, x0, x1, hs, h0, h1, by simpa using h⟩
      · cases h

end Sys2Proof.Machine
end

