-- ==== Sys2Proof/Laws/PerInstr.lean ====
section
/-! SUPPORT. What holds of every command as syntax, one lemma per command. -/

namespace Sys2Proof.Laws.TableRow

/-- The packet of a command matches the opcode table's row of its mnemonic (30_encoding R64). -/
def Statement (i : Instr) : Prop :=
  ∃ r ∈ opcodeTable, r.mnemonic = i.mnemonic ∧ r.matchesPacket (encode i) = true

theorem nop : Statement .nop := by unfold Statement; decide
theorem begin : Statement .begin := by unfold Statement; decide
theorem frame (x0 x1 : Word) : Statement (.frame x0 x1) := by
  refine ⟨⟨"FRAME", 0x2, 0x3⟩, by decide, rfl, ?_⟩
  have h3 : (3 : Nat) = 2 ^ 2 - 1 := by decide
  simp only [OpcodeRow.matchesPacket, h3, Nat.and_two_pow_sub_one_eq_mod, encode_frame_toNat]
  simp
theorem rsvd : Statement .rsvd := by unfold Statement; decide

end Sys2Proof.Laws.TableRow
end

