-- ==== Sys2Proof/Tests/Slice0.lean ====
section
/-! SUPPORT. Tests: ill-formed terms that the checks refuse, packets written out from the spec's formats, one step of each
command with the results that 95_test_vectors.md prints, and a witness for the hypotheses of each statement. -/

namespace Sys2Proof.Tests

open Sys2Proof Sys2Proof.Machine

/-! ## Each check refuses an ill-formed term -/

theorem test_contract_refuses_wet_above_one : Params.inContract ⟨0x3F800001#32, fZero, fOne, false⟩ = false := by decide
theorem test_contract_refuses_negative_wet : Params.inContract ⟨0xBF000000#32, fZero, fOne, false⟩ = false := by decide
theorem test_contract_refuses_add_above_range : Params.inContract ⟨fOne, 0x4A800001#32, fOne, false⟩ = false := by decide
theorem test_contract_refuses_mult_below_one : Params.inContract ⟨fOne, fZero, 0x3F7FFFFF#32, false⟩ = false := by decide
theorem test_contract_refuses_nan_mult : Params.inContract ⟨fOne, fZero, fQNaN, false⟩ = false := by decide
theorem test_one_channel_refused : channelCountOk [[fOne]] = false := by decide
theorem test_three_channels_refused : channelCountOk [[fOne], [fOne], [fOne]] = false := by decide
theorem test_unequal_channels_refused : channelLengthsOk [[fOne], []] = false := by decide
theorem test_unequal_buffer_refused : Memory.wf ⟨[fOne], []⟩ = false := by decide
theorem test_number_wider_than_packet_refused : decodeNumber (2 ^ 66) = .error .widerThanPacket := by decide
theorem test_every_command_is_well_formed : ∀ i ∈ [Instr.nop, .begin, .frame fQNaN fNInf, .rsvd], i.wf = true := by
  decide

/-! ## Packets written out from format C (R54): `x1` in bits [65:34], `x0` in bits [33:2], `cmd` in bits [1:0] -/

theorem test_decode_nop : decode (0xFFFFFFFF#32 ++ 0x12345678#32 ++ 0b00#2) = .nop := by decide
theorem test_decode_begin : decode (0xFFFFFFFF#32 ++ 0x12345678#32 ++ 0b01#2) = .begin := by decide
theorem test_decode_frame : decode (0x3F000000#32 ++ 0x3DCCCCCD#32 ++ 0b10#2) = .frame 0x3DCCCCCD#32 0x3F000000#32 := by
  decide
theorem test_decode_rsvd : decode (0xFFFFFFFF#32 ++ 0x12345678#32 ++ 0b11#2) = .rsvd := by decide
/-- Program P1's second FRAME, as 95_test_vectors prints it, through the number interface. -/
theorem test_decode_number : decodeTableWord 72 0x0FE000002F7333336 = some (.frame 0xBDCCCCCD#32 0x3F800000#32) := by
  decide
theorem test_decode_row_bits_only : decodeTableWord 8 2 = some (.frame 0#32 0#32) := by decide
/-- Program P3's bundle as printed. -/
theorem test_unpack_bundle :
    unpackP 0x13FA666664A8000003F000000#97 = ⟨0x3F000000#32, 0x4A800000#32, 0x3FA66666#32, true⟩ := by decide

/-! ## One step of each command -/

/-- A state with a snapshot, a position, and a bundle on the port. -/
def stateAt (snap : Params) (pos : BitVec 7) (p : Params) : State :=
  ((State.reset.setSnapshot snap).setPos pos).setInP p

/-- The bundles P1 and P2 of 95_test_vectors 2.2. -/
def bundle1 : Params := ⟨0x3F000000#32, 0x4A800000#32, 0x3FA66666#32, true⟩
def bundle2 : Params := ⟨0x3F800000#32, 0x00000000#32, 0x3F800000#32, false⟩

/-- What a test compares of an outcome. -/
def seen (o : Host.Outcome State Fault Refusal) : Option (Params × BitVec 7 × Option Frame) :=
  match o with
  | .next t => some (t.snapshot, t.pos, t.out)
  | _ => none

/-- Row Q4. -/
theorem test_nop_keeps_state : seen (exec .nop (stateAt bundle1 2#7 bundle2)) = some (bundle1, 2#7, none) := by decide
/-- R80's example, as a step on the packet `0...0`. -/
theorem test_nop_step : seen (step ((stateAt bundle1 5#7 bundle2).withFetchWord 66 0)) = some (bundle1, 5#7, none) := by
  decide
/-- Row Q6. -/
theorem test_begin_clears_pos : seen (exec .begin (stateAt bundle1 2#7 bundle2)) = some (bundle1, 0#7, none) := by decide
/-- Row Q10. -/
theorem test_begin_at_zero : seen (exec .begin (stateAt bundle2 0#7 bundle1)) = some (bundle2, 0#7, none) := by decide
/-- Row Q5, as a step on the packet `0...011`. -/
theorem test_reserved_acts_as_nop :
    seen (step ((stateAt bundle1 2#7 bundle2).withFetchWord 66 3)) = some (bundle1, 2#7, none) := by decide
/-- Program P1's first FRAME: it captures, and the large add amount turns 0.1 into 0.125. -/
theorem test_frame_captures :
    seen (step ((stateAt bundle2 0#7 ⟨fOne, 0x49742400#32, fOne, false⟩).withFetchWord 66 0x0FC000000F7333336)) =
      some (⟨fOne, 0x49742400#32, fOne, false⟩, 1#7, some ⟨0x3E000000#32, 0x3F000000#32⟩) := by decide +kernel
/-- Rows Q8, V6 and V8: at `POS = 127` the held snapshot is used and kept, and the counter wraps. -/
theorem test_frame_holds_and_wraps :
    seen (exec (.frame 0x3E99999A#32 0xBE99999A#32) (stateAt ⟨fOne, f4M, fOne, false⟩ 127#7 bundle2)) =
      some (⟨fOne, f4M, fOne, false⟩, 0#7, some ⟨0x3F000000#32, 0xBE800000#32⟩) := by decide +kernel
/-- Row Q12: reset wins over the FRAME presented with it. -/
theorem test_reset_wins :
    seen (step ((stateAt bundle1 5#7 bundle1).setScript [.present true 0x0FC000000F7333336#66 (packP bundle1)])) =
      some (bundle2, 0#7, none) := by decide

/-! ## The host's side -/

/-- A FRAME's results go back to the position its samples came from (R44), here position 1 of two; values of P1. -/
theorem test_write_back :
    (match step (((stateAt ⟨fOne, 0x49742400#32, fOne, false⟩ 1#7 bundle2).setBuf
        ⟨[fOne, 0xBDCCCCCD#32], [fOne, 0x3F800000#32]⟩).setScript [.frameAt 1 (packP bundle2)]) with
      | .next t => some t.buf
      | _ => none) = some ⟨[fOne, 0xBE000000#32], [fOne, 0x3F800000#32]⟩ := by decide +kernel
/-- H3: a buffer supplied without BEGIN in the middle of a sub-block replaces the old one, and no register changes. -/
theorem test_supply_without_begin :
    (match step ((stateAt ⟨fOne, f4M, fOne, false⟩ 100#7 bundle2).setScript [.supply [[0x3E99999A#32], [fOne]]]) with
      | .next t => some (t.buf, t.snapshot, t.pos)
      | _ => none) = some (⟨[0x3E99999A#32], [fOne]⟩, ⟨fOne, f4M, fOne, false⟩, 100#7) := by decide
/-- H3: the frame after it is computed with the old snapshot, and the bundle presented with it is ignored. -/
theorem test_frame_after_skipped_begin :
    (match step (((stateAt ⟨fOne, f4M, fOne, false⟩ 100#7 bundle2).setBuf ⟨[0x3E99999A#32], [fOne]⟩).setScript
        [.frameAt 0 (packP bundle2)]) with
      | .next t => some (t.buf.ch0, t.pos)
      | _ => none) = some ([0x3F000000#32], 101#7) := by decide +kernel
theorem test_position_outside_refused :
    (match step (((stateAt bundle2 1#7 bundle2).setBuf ⟨[fOne], [fOne]⟩).setScript [.frameAt 1 (packP bundle2)]) with
      | .refused r => some r
      | _ => none) = some .bufferPosition := by decide
/-- A `.params` without a key is refused, a choice of the model's (log entry 14). -/
theorem test_bare_params_refused : assembleText .ieee ".params" = none := by decide
/-- Lines of program P2: a partial `.params` keeps the other keys. -/
theorem test_assemble_text :
    assembleText .ieee ".params add=4194304.0\nFRAME 0.3, -0.3 ; frame 0\n.params add=0.0\nbegin" =
      some [.present false 0x2FA666668FA66666A#66 0x03F8000004A8000003F800000#97,
        .present false 1#66 0x03F800000000000003F800000#97] := by decide +kernel
/-- Row F11, which tells the two subnormal modes apart; IEEE gives row X17's word. -/
theorem test_subnormal_modes :
    (lane .ftzDaz 0 0x007FFFFF#32 ⟨0x3F000000#32, fZero, fOne, false⟩).y = 0x00000000#32 ∧
      (lane .ieee 0 0x007FFFFF#32 ⟨0x3F000000#32, fZero, fOne, false⟩).y = 0x00800000#32 := by decide +kernel

/-! ## Witnesses: for each statement with hypotheses, operands that meet them, clause by clause -/

/-- The supply of NaNs the witnesses use. -/
def someNaNs : Nat → Word := fun _ => fQNaN
theorem witness_allNaN : AllNaN someNaNs := fun _ => (by decide : isNaN32 fQNaN = true)
theorem witness_isNominal : IsNominal fOne ∧ IsNominal fNegOne ∧ IsNominal fNegZero := by
  refine ⟨⟨?_, ?_⟩, ⟨?_, ?_⟩, ?_, ?_⟩ <;> decide +kernel
theorem witness_isFraction : IsFraction fZero ∧ IsFraction fOne ∧ IsFraction fNegZero ∧ IsFraction 0x00000001#32 := by
  refine ⟨⟨?_, ?_, ?_⟩, ⟨?_, ?_, ?_⟩, ⟨?_, ?_, ?_⟩, ?_, ?_, ?_⟩ <;> decide +kernel

theorem witness_CommandMapIsTheOpcodeTable : packetCmd 0#66 = 0b00#2 ∧ packetCmd 1#66 = 0b01#2 ∧
    packetCmd 2#66 = 0b10#2 ∧ packetCmd 3#66 = 0b11#2 ∧ opcodeTable ≠ [] := by decide
theorem witness_DecodeEncodeAgree : (Instr.frame 0xFFFFFFFF#32 0xFFFFFFFF#32).wf = true := by decide
theorem witness_UnreadFieldsAreDontCare : packetCmd 0#66 = packetCmd (0#66 + 4#66) ∧ packetCmd 0#66 ≠ 0b10#2 ∧
    packetCmd 2#66 = 0b10#2 ∧ (stateAt bundle1 127#7 bundle2).pos ≠ 0#7 := by decide

/-- A state whose next event is `e`. -/
def stateFor (e : HostEvent) : State :=
  ((stateAt bundle1 0#7 bundle2).setBuf ⟨[fOne], [fNegOne]⟩).setScript [e]
def resetEvent : HostEvent := .present true 2#66 (packP bundle1)
def frameEvent : HostEvent := .present false 2#66 (packP bundle2)
def callbackEvent : HostEvent := .callback [[fOne, fZero], [fZero, fOne]] (packP bundle1)
def supplyEvent : HostEvent := .supply [[fOne, fZero], [fZero, fOne]]

theorem witness_ResetTransactionResetsBlock : (stateFor resetEvent).script = .present true 2#66 (packP bundle1) :: [] := rfl
theorem witness_FrameAfterResetCaptures :
    ((stateAt bundle1 5#7 bundle1).setScript [resetEvent, frameEvent]).script =
      .present true 2#66 (packP bundle1) :: .present false 2#66 (packP bundle2) :: [] ∧
    decode 2#66 = .frame 0#32 0#32 := by decide
theorem witness_ResetSnapshotIsUnobservable : (stateAt bundle1 0#7 bundle2).pos = 0#7 := rfl
theorem witness_FrameSelectsSnapshot :
    (stateAt bundle1 0#7 bundle2).pos = 0#7 ∧ (stateAt bundle1 1#7 bundle2).pos ≠ 0#7 ∧
      (stateAt bundle1 127#7 bundle2).pos ≠ 0#7 := by decide
theorem witness_FrameResult : bundle2 = (if (stateAt bundle1 0#7 bundle2).pos = 0#7 then
    (stateAt bundle1 0#7 bundle2).inP else bundle1) ∧
    outputsOf .ieee 0 fOne fOne bundle2 = outputsOf .ieee 0 fOne fOne bundle2 := ⟨rfl, rfl⟩
/-- Two states of different `POS` and registers in which a FRAME uses the same snapshot, with equal draws and without. -/
theorem witness_LanesAreIndependent :
    (stateAt bundle2 0#7 bundle1).frameParams = (stateAt bundle1 127#7 bundle2).frameParams ∧
    (stateAt bundle2 0#7 bundle1).cfg = (stateAt bundle1 127#7 bundle2).cfg ∧
    (stateAt bundle2 0#7 bundle1).draws = (stateAt bundle1 127#7 bundle2).draws ∧
    ((stateAt bundle2 0#7 bundle1).setDraws 18).frameParams = (stateAt bundle1 127#7 bundle2).frameParams := by decide
theorem witness_OnlyFreedomIsNaNPattern : AllNaN someNaNs ∧ AllNaN nanDraw := ⟨witness_allNaN, isNaN32_nanDraw⟩
theorem witness_StepRunsTheDecodedCommand :
    (stateFor frameEvent).script = .present false 2#66 (packP bundle2) :: [] ∧
    (stateFor callbackEvent).script = .callback [[fOne, fZero], [fZero, fOne]] (packP bundle1) :: [] ∧
    (stateFor supplyEvent).script = .supply [[fOne, fZero], [fZero, fOne]] :: [] ∧
    [fOne, fZero].length = [fZero, fOne].length ∧ State.reset.script = [] := ⟨rfl, rfl, rfl, rfl, rfl⟩

/-- A step of every kind of transaction that goes on. -/
theorem witness_steps_of_every_kind :
    (∃ t, step State.reset = .next t ∧ State.reset.transaction = .idle) ∧
    (∃ t, step (stateFor resetEvent) = .next t ∧ (stateFor resetEvent).transaction = .reset) ∧
    (∃ t, step (stateFor frameEvent) = .next t ∧ (stateFor frameEvent).transaction = .command (.frame 0#32 0#32)) ∧
    (∃ t, step (stateFor (.present false 0#66 0#97)) = .next t ∧
      (stateFor (.present false 0#66 0#97)).transaction = .command .nop) ∧
    (∃ t, step (stateFor (.present false 3#66 0#97)) = .next t ∧
      (stateFor (.present false 3#66 0#97)).transaction = .command .rsvd) ∧
    (∃ t, step (stateFor callbackEvent) = .next t ∧ (stateFor callbackEvent).transaction = .command .begin) ∧
    (∃ t, step (stateFor supplyEvent) = .next t ∧ (stateFor supplyEvent).transaction = .idle) ∧
    ∃ t, step (stateFor (.frameAt 0 0#97)) = .next t ∧
      (stateFor (.frameAt 0 0#97)).transaction = .command (.frame fOne fNegOne) :=
  ⟨⟨_, rfl, rfl⟩, ⟨_, rfl, rfl⟩, ⟨_, rfl, by decide⟩, ⟨_, rfl, by decide⟩, ⟨_, rfl, by decide⟩, ⟨_, rfl, by decide⟩,
    ⟨_, rfl, by decide⟩, ⟨_, rfl, by decide⟩⟩
theorem witness_PosHasThreeWriters :
    (stateFor frameEvent).pos = 0#7 ∧ ∃ t, step (stateFor frameEvent) = .next t := ⟨rfl, _, rfl⟩
theorem witness_SnapshotHasTwoWriters : ∃ t, step (stateFor frameEvent) = .next t := witness_PosHasThreeWriters.2
theorem witness_OutputIsValidExactlyAfterFrame :
    ∃ t, step (stateFor frameEvent) = .next t ∧ (stateFor frameEvent).transaction ≠ .idle := ⟨_, rfl, by decide⟩
theorem witness_OnlyHostErrorsAreRefused :
    [[fOne]].length ≠ 2 ∧ [[fOne], [fOne], [fOne]].length ≠ 2 ∧ [fOne].length ≠ ([] : List Word).length ∧
      bufRead ⟨[fOne], [fOne]⟩ 0 1 = none ∧ bufRead ⟨[fOne], []⟩ 1 0 = none ∧
      (stateFor (.supply [[fOne]])).script = .supply [[fOne]] :: [] ∧
      (stateFor (.callback [[fOne], []] 0#97)).script = .callback [[fOne], []] 0#97 :: [] := by decide
theorem witness_IllegalBufferPositionIsRefused :
    Memory.wf ⟨[fOne], [fOne]⟩ = true ∧ (Memory.frames ⟨[fOne], [fOne]⟩) ≤ 1 ∧
      (bufWrite ⟨[fOne], [fOne]⟩ 1 0 fZero).isSome = true ∧
      (((stateFor frameEvent).setBuf ⟨[fOne], [fOne]⟩).setScript [.frameAt 1 0#97]).script = [.frameAt 1 0#97] := by decide
theorem witness_ResultsAreWrittenBackInPlace :
    (stateFor (.frameAt 0 0#97)).script = .frameAt 0 0#97 :: [] ∧
      bufRead (stateFor (.frameAt 0 0#97)).buf 0 0 = some fOne ∧
      bufRead (stateFor (.frameAt 0 0#97)).buf 1 0 = some fNegOne := by decide
theorem witness_OnlyHostTurnsTouchTheBuffer :
    (∃ t, step (stateFor frameEvent) = .next t) ∧ (∃ t, step (stateFor callbackEvent) = .next t) ∧
      ∃ t, step (stateFor supplyEvent) = .next t := ⟨⟨_, rfl⟩, ⟨_, rfl⟩, _, rfl⟩
theorem witness_StepKeepsBufferForm :
    (stateFor (.frameAt 0 0#97)).buf.wf = true ∧ (∃ t, step (stateFor (.frameAt 0 0#97)) = .next t) ∧
      ∀ channels p rest, (stateFor (.frameAt 0 0#97)).script ≠ .callback channels p :: rest ∧
        (stateFor (.frameAt 0 0#97)).script ≠ .supply channels :: rest :=
  ⟨by decide, ⟨_, rfl⟩, fun _ _ _ => ⟨nofun, nofun⟩⟩
/-- The last frame of the first sub-block and the first frame of the second. -/
theorem witness_ProcessBufferRewritesEverySample :
    (List.replicate 129 fOne).length = (List.replicate 129 (packP bundle1)).length ∧
      (List.replicate 129 fOne)[127]? = some fOne ∧ (List.replicate 129 fOne)[128]? = some fOne ∧
      (List.replicate 129 (packP bundle1))[127 / 128 * 128]? = some (packP bundle1) ∧
      (List.replicate 129 (packP bundle1))[128 / 128 * 128]? = some (packP bundle1) := by simp
theorem witness_BufferOutputForgetsThePast :
    (∀ f : Nat, f % 128 = 0 → [packP bundle1, packP bundle1][f]? = [packP bundle1, packP bundle2][f]?) ∧
      [fOne, fOne].length = [packP bundle1, packP bundle1].length ∧
      [packP bundle1, packP bundle2].length = [packP bundle1, packP bundle1].length ∧
      (stateAt bundle1 7#7 bundle1).cfg = State.reset.cfg ∧ (stateAt bundle1 7#7 bundle1).draws = State.reset.draws := by
  refine ⟨fun f hf => ?_, rfl, rfl, rfl, rfl⟩
  match f, hf with
  | 0, _ => rfl
  | n + 2, _ => rfl
/-- H3: from `POS = 100`, the last frame under the old snapshot and the first that captures; and from `POS = 0`. -/
theorem witness_SkippedBeginContinuesSubBlock :
    (List.replicate 29 fOne).length = (List.replicate 29 (packP bundle2)).length ∧
    ((stateAt bundle1 100#7 bundle2).pos.toNat ≠ 0 ∧ (stateAt bundle1 100#7 bundle2).pos.toNat + 27 < 128 ∧
      bundle1 = (stateAt bundle1 100#7 bundle2).snapshot ∧ (List.replicate 29 fOne)[27]? = some fOne) ∧
    (128 ≤ (stateAt bundle1 100#7 bundle2).pos.toNat + 28 ∧ (List.replicate 29 fOne)[28]? = some fOne ∧
      (List.replicate 29 (packP bundle2))[(100 + 28) / 128 * 128 - 100]? = some (packP bundle2)) ∧
    ((stateAt bundle1 0#7 bundle2).pos.toNat = 0 ∧
      (List.replicate 29 (packP bundle2))[(0 + 28) / 128 * 128 - 0]? = some (packP bundle2)) := by decide
/-- One frame that ends a sub-block, and the 127 that follow its first. -/
theorem witness_SnapshotHeldThroughSubBlock :
    (∀ e ∈ [frameEvent], ∃ (c : BitVec 66) (p : BitVec 97) (x0 x1 : Word),
      e = .present false c p ∧ decode c = .frame x0 x1) ∧
    (stateAt bundle1 127#7 bundle2).pos ≠ 0#7 ∧ (127#7).toNat + [frameEvent].length ≤ 128 ∧
    (1#7).toNat + (List.replicate 127 frameEvent).length ≤ 128 ∧
    ((stateAt bundle1 127#7 bundle2).setScript [frameEvent]).script = [frameEvent] ++ [] := by
  refine ⟨fun e he => ?_, by decide, by decide, by simp, rfl⟩
  rw [List.mem_singleton.mp he]
  exact ⟨2#66, packP bundle2, 0#32, 0#32, rfl, by decide⟩

theorem witness_NamedWordsAndClassTests : isFinite32 fMax = true := by decide
theorem witness_UnitCountsAreValues : isFinite32 0x80000001#32 = true ∧ isFinite32 fMax = true := by decide
theorem witness_RoundToNearestEven : 0 < 1 ∧ 0 < 2 ^ 200 := by decide
theorem witness_RoundingIsUnique :
    ((2 : Rat) ^ 128 ≠ 0 ∧ Rounds .ieee ((2 : Rat) ^ 128) fInf) ∧ Rounds .ieee 1 fOne := by
  refine ⟨⟨by norm_num, ?_⟩, ?_⟩
  · rw [Rounds, if_pos (by norm_num), decide_eq_false (by norm_num), infOf_false]
  · have hv : value32 fOne = 1 := by decide +kernel
    rw [Rounds, if_neg (by norm_num)]
    refine ⟨fOne, ⟨by decide, by decide +kernel, fun u _ => ?_⟩, rfl⟩
    rw [hv, sub_self, abs_zero]
    exact ⟨abs_nonneg _, fun h hne => absurd (by linarith [abs_eq_zero.mp h]) hne⟩
theorem witness_SubnormalOperandsReadAsZero : isSubnormal32 0x80000001#32 = true ∧ isSubnormal32 0x007FFFFF#32 = true ∧
    fNegZero = (if signBit 0x80000001#32 then fNegZero else fZero) := by decide
theorem witness_AdditionCases :
    isNaN32 (condition .ftzDaz fQNaN) = true ∧ (fInf = condition .ieee fInf ∧ fNInf = condition .ieee fNInf) ∧
    (isInf32 fInf = true ∧ isNaN32 fOne = false ∧ (isInf32 fOne = true → fOne = fInf)) ∧
    (isInf32 fInf = true ∧ isNaN32 fInf = false) ∧ (isZero32 fNegZero = true ∧ isZero32 fZero = true) ∧
    (isFinite32 fOne = true ∧ isFinite32 fNegOne = true ∧ ¬(isZero32 fOne = true ∧ isZero32 fNegOne = true) ∧
      value32 fOne + value32 fNegOne = 0) ∧
    (isFinite32 fMax = true ∧ value32 fMax + value32 fMax ≠ 0) := by decide +kernel
theorem witness_MultiplicationCases :
    isNaN32 fQNaN = true ∧ (isInf32 fInf = true ∧ isZero32 (condition .ftzDaz 0x00000001#32) = true) ∧
    (isNaN32 fInf = false ∧ isZero32 fInf = false ∧ isInf32 fInf = true ∧ isZero32 fOne = false) ∧
    (isFinite32 fZero = true ∧ isZero32 fZero = true) ∧
    (isFinite32 0x00000001#32 = true ∧ isZero32 (condition .ieee 0x00000001#32) = false) ∧
    true = (signBit fOne != signBit fNegOne) := by decide
theorem witness_DivisionCases :
    isNaN32 fQNaN = true ∧ (isInf32 fInf = true ∧ isInf32 fNInf = true) ∧
    (isZero32 fZero = true ∧ isZero32 fNegZero = true) ∧ (isFinite32 fOne = true ∧ isZero32 fOne = false) ∧
    (isFinite32 fMax = true ∧ isZero32 fMax = false ∧ true = (signBit fMax != signBit fNegOne)) := by decide
theorem witness_ComparisonIsOrderOfValues : fZero = condition .ftzDaz 0x00000001#32 ∧ fNInf = condition .ieee fNInf := by
  decide
theorem witness_ClampsSaturate :
    (isNaN32 fNegOne = false ∧ isNaN32 fOne = false ∧ valueExt fNegOne ≤ valueExt fOne) ∧
    isNaN32 fQNaN = true ∧ (isNaN32 fNInf = false ∧ valueExt fNInf < valueExt fNegOne) ∧
    valueExt fOne < valueExt 0x3F800001#32 ∧
    (valueExt fNegOne ≤ valueExt fNegOne ∧ valueExt fNegOne ≤ valueExt fOne) ∧
    valueExt (condition .ieee 0x80000001#32) < valueExt fZero ∧
    (valueExt fZero ≤ valueExt (condition .ftzDaz 0x80000001#32) ∧ valueExt 0x80000001#32 ≤ valueExt fOne) := by
  decide +kernel
theorem witness_NaNResultIsAnyNaN :
    isNaN32 (fadd32 .ieee fQNaN fInf fNInf) = true ∧ isNaN32 (fsub32 .ieee fQNaN fInf fInf) = true ∧
    isNaN32 (fmul32 .ieee fQNaN fInf fZero) = true ∧ isNaN32 (fdiv32 .ieee fQNaN fZero fZero) = true ∧
    isFinite32 fInf = false ∧ isNaN32 0xFF800001#32 = true := by decide
theorem witness_ContractExcludesDivisionByZero :
    Params.inContract ⟨fZero, f4M, fOne, true⟩ = true ∧ Params.inContract ⟨fOne, fZero, f1024, false⟩ = true := by decide
theorem witness_LaneIsTheStagesInOrder : (laneWith .ieee someNaNs fOne bundle1) = laneWith .ieee someNaNs fOne bundle1 ∧
    clampF .ieee bundle1.wet fZero fOne = clampF .ieee bundle1.wet fZero fOne := ⟨rfl, rfl⟩
theorem witness_StageMulCorners :
    isNaN32 fInf = false ∧ (isZero32 fNegZero = true ∧ isFinite32 fZero = true) ∧
    (isFinite32 0x7F000000#32 = true ∧ isFinite32 f1024 = true ∧
      (2 : Rat) ^ 128 - 2 ^ 103 ≤ |value32 0x7F000000#32| * value32 f1024) ∧
    (AllNaN someNaNs ∧ (⟨fOne, f4M, f1024, true⟩ : Params).mult = f1024) ∧
    (isInf32 fNInf = true ∧ isZero32 fZero = true) ∧ isNaN32 fQNaN = true :=
  ⟨by decide, by decide, by decide +kernel, ⟨witness_allNaN, rfl⟩, by decide, by decide⟩
theorem witness_StageAddCorners :
    isNaN32 fNegZero = false ∧ isFinite32 (stageAdd .ieee fQNaN fZero f4M) = true ∧
    ((2 : Rat) ^ 22 ≤ |value32 (stageAdd .ieee fQNaN fZero f4M)| ∧ |value32 (stageAdd .ieee fQNaN fZero f4M)| < 2 ^ 23) ∧
    ((2 : Rat) ^ 19 ≤ |value32 (stageAdd .ieee fQNaN fZero 0x49742400#32)| ∧
      |value32 (stageAdd .ieee fQNaN fZero 0x49742400#32)| < 2 ^ 20) ∧
    (isInf32 fNInf = true ∧ isNaN32 fMax = false ∧ (isInf32 fMax = true → fMax = fNInf)) ∧
    (isInf32 fInf = true ∧ isNaN32 fInf = false) ∧ isNaN32 fQNaN = true := by decide +kernel
theorem witness_StageSubCorners :
    (isFinite32 0x40000000#32 = true ∧ isFinite32 fOne = true ∧
      value32 (condition .ieee fOne) / 2 ≤ value32 (condition .ieee 0x40000000#32) ∧
      value32 (condition .ieee 0x40000000#32) ≤ 2 * value32 (condition .ieee fOne)) ∧
    (isFinite32 0x45800000#32 = true ∧ 4096 ≤ value32 0x45800000#32 ∧ isFinite32 f1024 = true ∧ |value32 f1024| ≤ 1024) ∧
    (isInf32 fInf = true ∧ isFinite32 fMax = true) ∧ isNaN32 fQNaN = true := by decide +kernel
theorem witness_StageDivCorners :
    true = (signBit fNInf != signBit fOne) ∧ isNaN32 fNInf = false ∧ (isInf32 fNInf = true ∧ isFinite32 fZero = true) ∧
    (isNaN32 0x00000001#32 = false ∧ isZero32 fNegZero = true) ∧ (isFinite32 fMax = true ∧ isInf32 fInf = true) := by decide
theorem witness_StageResidueCorners : isFinite32 fMax = true ∧ isZero32 fNegZero = true ∧
    (isInf32 fNInf = true ∧ AllNaN someNaNs ∧ bundle1.inContract = true ∧ bundle1.res = true) :=
  ⟨by decide, by decide, by decide, witness_allNaN, by decide, by decide⟩
theorem witness_SafetyNetAndRange : isFinite32 fMax = true ∧ isFinite32 fNInf = false ∧ AllNaN someNaNs :=
  ⟨by decide, by decide, witness_allNaN⟩
theorem witness_NeutralParametersAreIdentity :
    AllNaN someNaNs ∧ isFinite32 fNegZero = true ∧ isFinite32 fInf = false ∧ isFinite32 fQNaN = false :=
  ⟨witness_allNaN, by decide, by decide, by decide⟩
/-- The largest samples the first clause takes, and a sample at which the fallback fires. -/
theorem witness_FallbackFiresExactlyOnOverflow :
    AllNaN someNaNs ∧ Params.inContract ⟨fOne, f4M, f1024, true⟩ = true ∧
      (isFinite32 0x71800000#32 = true ∧ |value32 0x71800000#32| ≤ 2 ^ 100) ∧
      (2 : Rat) ^ 128 - 2 ^ 103 ≤ |value32 0x7F000000#32| * value32 f1024 :=
  ⟨witness_allNaN, by decide, by decide +kernel, by decide +kernel⟩
theorem witness_LargestAddQuantises : IsNominal fNegOne ∧ Params.inContract ⟨fOne, f4M, f1024, true⟩ = true ∧
    (⟨fOne, f4M, f1024, true⟩ : Params).add = f4M := ⟨witness_isNominal.2.1, by decide, rfl⟩
theorem witness_WeightsSumToOne : IsFraction fZero ∧ IsFraction fOne ∧ IsFraction 0x00000001#32 :=
  ⟨witness_isFraction.1, witness_isFraction.2.1, witness_isFraction.2.2.2⟩
theorem witness_FullDryAndFullWet :
    (isZero32 fNegZero = true ∧ isFinite32 fNegZero = true ∧ isFinite32 fMax = true ∧
      fNegZero = condition .ftzDaz 0x80000001#32) ∧ isNaN32 fInf = false ∧ isInf32 fNInf = true ∧ AllNaN someNaNs :=
  ⟨by decide, by decide, by decide, witness_allNaN⟩
theorem witness_OutputBoundedForNominalSamples :
    IsNominal fOne ∧ IsNominal fNegOne ∧ IsFraction fOne ∧ (stateAt bundle1 0#7 bundle2).frameParams.inContract = true ∧
      (stateAt bundle1 1#7 bundle2).frameParams.inContract = true :=
  ⟨witness_isNominal.1, witness_isNominal.2.1, witness_isFraction.2.1, by decide, by decide⟩
theorem witness_FiniteAndNonFiniteSamples :
    (isFinite32 fMax = true ∧ IsNominal fNegOne ∧ isNaN32 fNInf = false) ∧ AllNaN someNaNs ∧ isNaN32 fQNaN = true ∧
    (isInf32 fNInf = true ∧ value32 (stageWClamp .ieee 0x3F7FFFFF#32) < 1 ∧ value32 (stageWClamp .ieee fInf) = 1) :=
  ⟨⟨by decide, witness_isNominal.2.1, by decide⟩, witness_allNaN, by decide, by decide +kernel⟩
theorem witness_HalfSampleScenario : IsFraction fNegZero ∧ IsFraction fOne :=
  ⟨witness_isFraction.2.2.1, witness_isFraction.2.1⟩
theorem witness_ResidueGivesHalfOnlyAtZeroFraction : AllNaN someNaNs ∧ IsFraction fZero ∧
    (laneWith .ieee someNaNs 0x3F000000#32 ⟨fZero, fZero, fOne, true⟩).y = 0x3F000000#32 :=
  ⟨witness_allNaN, witness_isFraction.1, by decide +kernel⟩
theorem witness_InterpolationErrorBound : isFinite32 fMax = true ∧ isFinite32 0x80000001#32 = true ∧ IsFraction fOne :=
  ⟨by decide, by decide, witness_isFraction.2.1⟩
theorem witness_NominalRunsStayNominal :
    (stateFor (.frameAt 0 (packP bundle2))).IsNominal ∧
      ∃ t, step (stateFor (.frameAt 0 (packP bundle2))) = .next t := by
  refine ⟨⟨by decide, ?_, ?_, ?_, ?_⟩, _, rfl⟩
  · intro e he
    rw [List.mem_singleton.mp he]
    show (unpackP (packP bundle2)).inContract = true
    decide
  · intro x hx
    rw [List.mem_singleton.mp hx]
    exact witness_isNominal.1
  · intro x hx
    rw [List.mem_singleton.mp hx]
    exact witness_isNominal.2.1
  · intro y hy
    cases hy

end Sys2Proof.Tests
end

section
/-! SUPPORT. The value of a finite word is a whole number of units of 2^-149, and that number grows with the bits [30:0] of the
word (00_scope R12). -/

namespace Sys2Proof.Machine

/-! ## Magnitude bits and unit counts -/

/-- The bits [30:0] of a word, as a number: its exponent field above its fraction field. -/
def magBits (w : Word) : Nat := expField w * 2 ^ 23 + fracField w

/-- The unit count of the magnitude whose bits [30:0] are `c` (`magUnits_eq_bitsUnits`). -/
def bitsUnits (c : Nat) : Nat :=
  if c / 2 ^ 23 = 0 then c % 2 ^ 23 else (2 ^ 23 + c % 2 ^ 23) * 2 ^ (c / 2 ^ 23 - 1)

theorem word_eq_mkWord_magBits (w : Word) : w = mkWord (signBit w) (magBits w) := word_eq_mkWord w

theorem magUnits_eq_bitsUnits (w : Word) : magUnits w = bitsUnits (magBits w) := by
  have hf := fracField_lt w
  have hdiv : magBits w / 2 ^ 23 = expField w := by unfold magBits; omega
  have hmod : magBits w % 2 ^ 23 = fracField w := by unfold magBits; omega
  rw [magUnits, bitsUnits, hdiv, hmod]

theorem magBits_mkWord (neg : Bool) {c : Nat} (h : c < 2 ^ 31) : magBits (mkWord neg c) = c := by
  rw [magBits, expField_mkWord neg h, fracField_mkWord neg h]
  omega

theorem fracField_mod_two (w : Word) : fracField w % 2 = magBits w % 2 := by unfold magBits; omega

theorem isFinite32_iff_magBits_lt (w : Word) : isFinite32 w = true ↔ magBits w < 255 * 2 ^ 23 := by
  have he := expField_lt w
  have hf := fracField_lt w
  rw [isFinite32_iff, magBits]
  omega

/-- The magnitude of `q` spacings of `2^k` units has the bits `k × 2^23 + q`; `q = 2^24` is the carry into the next exponent. -/
theorem bitsUnits_spacings {k q : Nat} (hq : q ≤ 2 ^ 24) (hk : k = 0 ∨ 2 ^ 23 ≤ q) :
    bitsUnits (k * 2 ^ 23 + q) = q * 2 ^ k := by
  obtain hlow | hmid | rfl : q < 2 ^ 23 ∨ (2 ^ 23 ≤ q ∧ q < 2 ^ 24) ∨ q = 2 ^ 24 := by omega
  · obtain rfl : k = 0 := by omega
    rw [bitsUnits, if_pos (by omega)]
    omega
  · have hdiv : (k * 2 ^ 23 + q) / 2 ^ 23 = k + 1 := by omega
    have hmod : 2 ^ 23 + (k * 2 ^ 23 + q) % 2 ^ 23 = q := by omega
    rw [bitsUnits, hdiv, if_neg (by omega), hmod, Nat.add_sub_cancel]
  · have hdiv : (k * 2 ^ 23 + 2 ^ 24) / 2 ^ 23 = k + 2 := by omega
    have hmod : 2 ^ 23 + (k * 2 ^ 23 + 2 ^ 24) % 2 ^ 23 = 2 ^ 23 := by omega
    rw [bitsUnits, hdiv, if_neg (by omega), hmod, show k + 2 - 1 = k + 1 from rfl, pow_succ]
    omega

theorem bitsUnits_strictMono : StrictMono bitsUnits := by
  refine strictMono_nat_of_lt_succ fun c => ?_
  obtain ⟨k, q, rfl, hq, hk⟩ : ∃ k q, c = k * 2 ^ 23 + q ∧ q < 2 ^ 24 ∧ (k = 0 ∨ 2 ^ 23 ≤ q) :=
    ⟨c / 2 ^ 23 - 1, c - (c / 2 ^ 23 - 1) * 2 ^ 23, by omega, by omega, by omega⟩
  rw [add_assoc, bitsUnits_spacings hq.le hk, bitsUnits_spacings (by omega) (by omega)]
  exact Nat.mul_lt_mul_of_pos_right (Nat.lt_succ_self q) (by positivity)

@[simp] theorem bitsUnits_zero : bitsUnits 0 = 0 := rfl

theorem magUnits_eq_zero_iff (w : Word) : magUnits w = 0 ↔ isZero32 w = true := by
  rw [magUnits_eq_bitsUnits, isZero32_iff, bitsUnits_strictMono.injective.eq_iff' bitsUnits_zero, magBits]
  omega

theorem magUnits_pos {w : Word} (h : isZero32 w = false) : 0 < magUnits w :=
  Nat.pos_of_ne_zero fun h0 => by rw [(magUnits_eq_zero_iff w).mp h0] at h; cases h

/-! ## Values -/

theorem units_eq_sign_mul (w : Word) : units w = (if signBit w then -1 else 1) * (magUnits w : Int) := by
  rw [units]
  split <;> ring

theorem natAbs_units (w : Word) : (units w).natAbs = magUnits w := by
  rw [units]
  split <;> simp

theorem units_eq_zero_iff (w : Word) : units w = 0 ↔ isZero32 w = true := by
  rw [← Int.natAbs_eq_zero, natAbs_units, magUnits_eq_zero_iff]

/-- R12's value is the signed magnitude count, in units of 2^-149. -/
theorem value32_eq_sign_mul_magUnits (w : Word) :
    value32 w = (if signBit w then -1 else 1) * (magUnits w : Rat) / 2 ^ 149 := by
  rw [value32, magUnits, mul_div_assoc]
  congr 1
  by_cases he : expField w = 0
  · rw [if_pos he, if_pos he]
    norm_num
    ring
  · obtain ⟨e, he⟩ := Nat.exists_eq_add_one_of_ne_zero he
    have hexp : (2 : Rat) ^ ((e + 1 : Nat) - 127 : Int) = 2 ^ e / 2 ^ 126 := by
      rw [show ((e + 1 : Nat) - 127 : Int) = e - (126 : Nat) by push_cast; ring, zpow_sub₀ two_ne_zero,
        zpow_natCast, zpow_natCast]
    rw [he, if_neg (by omega), if_neg (by omega), hexp]
    push_cast [Nat.add_sub_cancel]
    ring

theorem value32_eq_units (w : Word) : value32 w = (units w : Rat) / 2 ^ 149 := by
  rw [value32_eq_sign_mul_magUnits, units_eq_sign_mul]
  split <;> simp

theorem abs_value32 (w : Word) : |value32 w| = (magUnits w : Rat) / 2 ^ 149 := by
  rw [value32_eq_units, abs_div, ← natAbs_units, Nat.cast_natAbs, Int.cast_abs]
  norm_num

theorem value32_lt_iff (a b : Word) : value32 a < value32 b ↔ units a < units b := by
  rw [value32_eq_units, value32_eq_units, div_lt_div_iff_of_pos_right (by positivity), Int.cast_lt]

theorem value32_add_eq_units (a b : Word) : value32 a + value32 b = ((units a + units b : Int) : Rat) / 2 ^ 149 := by
  rw [value32_eq_units, value32_eq_units, Int.cast_add, add_div]

theorem value32_add_eq_zero_iff (a b : Word) : value32 a + value32 b = 0 ↔ units a + units b = 0 := by
  rw [value32_add_eq_units, div_eq_zero_iff, or_iff_left (by positivity), Int.cast_eq_zero]

/-- No finite value exceeds `F_MAX`. -/
theorem value32_le_fMax {w : Word} (h : isFinite32 w = true) : value32 w ≤ value32 fMax := by
  have hbits : magBits w ≤ magBits fMax := by
    have := (isFinite32_iff_magBits_lt w).mp h
    have hmax : magBits fMax = 255 * 2 ^ 23 - 1 := by decide
    omega
  calc value32 w ≤ |value32 w| := le_abs_self _
    _ ≤ |value32 fMax| := by
      rw [abs_value32, abs_value32, magUnits_eq_bitsUnits, magUnits_eq_bitsUnits]
      gcongr
      exact bitsUnits_strictMono.monotone hbits
    _ = value32 fMax := by
      rw [abs_value32, value32_eq_units]
      rfl

end Sys2Proof.Machine
end

section
/-! SUPPORT. `round32` against R15's text: the bits it picks are one of the two neighbours of the exact magnitude, and R15's
"nearest" is a statement about unit counts (00_scope R15). -/

namespace Sys2Proof.Machine

/-! ## The nearest magnitude -/

/-- `n / d` units lie between the magnitudes of two neighbouring bit patterns, and `nearestMag` is the nearer of the two, the
even one on a tie. -/
theorem nearestMag_neighbours (n : Nat) {d : Nat} (hd : 0 < d) :
    ∃ c, d * bitsUnits c ≤ n ∧ n < d * bitsUnits (c + 1) ∧
      nearestMag n d =
        if d * bitsUnits c + d * bitsUnits (c + 1) < 2 * n ∨
            (d * bitsUnits c + d * bitsUnits (c + 1) = 2 * n ∧ c % 2 = 1) then c + 1 else c := by
  obtain ⟨k, hk⟩ : ∃ k, k = Nat.log2 (n / d) - 23 := ⟨_, rfl⟩
  obtain ⟨q, hq⟩ : ∃ q, q = n / (d * 2 ^ k) := ⟨_, rfl⟩
  have hspacing : 0 < d * 2 ^ k := by positivity
  have hqdiv : q = n / d / 2 ^ k := by rw [hq, Nat.div_div_eq_div_mul]
  have hqlt : q < 2 ^ 24 := by
    rw [hqdiv, Nat.div_lt_iff_lt_mul (by positivity), ← pow_add]
    exact Nat.lt_log2_self.trans_le (Nat.pow_le_pow_right (by decide) (by omega))
  have hqge : k = 0 ∨ 2 ^ 23 ≤ q := by
    refine k.eq_zero_or_pos.imp_right fun hpos => ?_
    have hne : n / d ≠ 0 := fun h => by simp [h] at hk; omega
    rw [hqdiv, Nat.le_div_iff_mul_le (by positivity), ← pow_add]
    exact (Nat.pow_le_pow_right (by decide) (by omega)).trans (Nat.log2_self_le hne)
  have hlo : d * bitsUnits (k * 2 ^ 23 + q) = q * (d * 2 ^ k) := by
    rw [bitsUnits_spacings hqlt.le hqge]; ring
  have hhi : d * bitsUnits (k * 2 ^ 23 + q + 1) = q * (d * 2 ^ k) + d * 2 ^ k := by
    rw [add_assoc, bitsUnits_spacings (by omega) (by omega)]; ring
  have hdivmod := Nat.div_add_mod' n (d * 2 ^ k)
  have hrest := Nat.mod_lt n hspacing
  rw [← hq] at hdivmod
  refine ⟨k * 2 ^ 23 + q, by omega, by omega, ?_⟩
  rw [hlo, hhi, nearestMag, ← hk, ← hq]
  refine if_congr ?_ rfl rfl
  omega

/-- The magnitude `nearestMag` picks is as near to `n / d` units as any, and of two at equal distance it is the even one. -/
theorem nearestMag_nearest (n : Nat) {d : Nat} (hd : 0 < d) (c : Nat) :
    ((n : Int) - (d * bitsUnits (nearestMag n d) : Nat)).natAbs ≤ ((n : Int) - (d * bitsUnits c : Nat)).natAbs ∧
      (((n : Int) - (d * bitsUnits c : Nat)).natAbs = ((n : Int) - (d * bitsUnits (nearestMag n d) : Nat)).natAbs →
        d * bitsUnits c ≠ d * bitsUnits (nearestMag n d) → nearestMag n d % 2 = 0) := by
  obtain ⟨b, hlo, hhi, hpick⟩ := nearestMag_neighbours n hd
  have hmono : Monotone fun x => d * bitsUnits x := (bitsUnits_strictMono.const_mul hd).monotone
  have hoff : d * bitsUnits c ≤ d * bitsUnits b ∨ d * bitsUnits (b + 1) ≤ d * bitsUnits c :=
    (Nat.lt_or_ge b c).symm.imp (fun h => hmono h) fun h => hmono (Nat.succ_le_of_lt h)
  generalize d * bitsUnits c = z at hoff ⊢
  split at hpick <;> rw [hpick] <;> omega

/-- Below R15's overflow threshold the nearest magnitude is that of a finite word. -/
theorem nearestMag_lt {n d : Nat} (hd : 0 < d) (h : n < (2 ^ 25 - 1) * 2 ^ 252 * d) :
    nearestMag n d < 255 * 2 ^ 23 := by
  obtain ⟨b, hlo, -, hpick⟩ := nearestMag_neighbours n hd
  have hmono : Monotone fun x => d * bitsUnits x := (bitsUnits_strictMono.const_mul hd).monotone
  obtain ⟨D, hD⟩ : ∃ D, D = 2 ^ 252 * d := ⟨_, rfl⟩
  have hInf : d * bitsUnits (255 * 2 ^ 23) = 2 ^ 25 * D := by
    rw [show 255 * 2 ^ 23 = 254 * 2 ^ 23 + 2 ^ 23 from rfl, bitsUnits_spacings (by omega) (by omega), hD]
    ring
  have hMax : d * bitsUnits (255 * 2 ^ 23 - 1) = (2 ^ 25 - 2) * D := by
    rw [show 255 * 2 ^ 23 - 1 = 253 * 2 ^ 23 + (2 ^ 24 - 1) from rfl, bitsUnits_spacings (by omega) (by omega), hD]
    ring
  rw [mul_assoc, ← hD] at h
  have hb : b < 255 * 2 ^ 23 := by
    by_contra hge
    have : d * bitsUnits (255 * 2 ^ 23) ≤ d * bitsUnits b := hmono (not_lt.mp hge)
    omega
  rw [hpick]
  split
  · next hup =>
    by_contra hge
    obtain rfl : b = 255 * 2 ^ 23 - 1 := by omega
    rw [show 255 * 2 ^ 23 - 1 + 1 = 255 * 2 ^ 23 from rfl, hMax, hInf] at hup
    omega
  · exact hb

/-! ## R15's text in whole numbers -/

/-- The distance of the value of a word from `N / d` units, as a whole number. -/
def unitDist (N : Int) (d : Nat) (w : Word) : Nat := (N - d * units w).natAbs

theorem abs_sub_value32 (N : Int) {d : Nat} (hd : 0 < d) (w : Word) :
    |(N : Rat) / d / 2 ^ 149 - value32 w| = (unitDist N d w : Rat) / (d * 2 ^ 149) := by
  have hd' : (0 : Rat) < d := by exact_mod_cast hd
  rw [value32_eq_units, unitDist, Nat.cast_natAbs, Int.cast_abs, ← sub_div, div_sub' hd'.ne', div_div, abs_div,
    abs_of_pos (show (0 : Rat) < d * 2 ^ 149 by positivity)]
  push_cast
  rfl

theorem isNearestEven_iff (N : Int) {d : Nat} (hd : 0 < d) (v : Word) :
    IsNearestEven ((N : Rat) / d / 2 ^ 149) v ↔
      isFinite32 v = true ∧ signBit v = decide (N < 0) ∧ ∀ u : Word, isFinite32 u = true →
        unitDist N d v ≤ unitDist N d u ∧
          (unitDist N d u = unitDist N d v → units u ≠ units v → fracField v % 2 = 0) := by
  have hd' : (0 : Rat) < d := by exact_mod_cast hd
  have hsign : (N : Rat) / d / 2 ^ 149 < 0 ↔ N < 0 := by
    rw [div_lt_iff₀ (by positivity), div_lt_iff₀ hd', zero_mul, zero_mul, Int.cast_lt_zero]
  have hle (a b : Nat) : (a : Rat) / (d * 2 ^ 149) ≤ b / (d * 2 ^ 149) ↔ a ≤ b := by
    rw [div_le_div_iff_of_pos_right (by positivity), Nat.cast_le]
  have heq (a b : Nat) : (a : Rat) / (d * 2 ^ 149) = b / (d * 2 ^ 149) ↔ a = b := by
    rw [div_left_inj' (by positivity), Nat.cast_inj]
  have hval (u : Word) : value32 u ≠ value32 v ↔ units u ≠ units v := by
    rw [value32_eq_units, value32_eq_units, ne_eq, div_left_inj' (by positivity), Int.cast_inj]
  simp only [IsNearestEven, abs_sub_value32 N hd, hsign, hle, heq, hval]

/-- A word of the sign of `N` is compared with it by magnitudes, and one of the other sign lies beyond zero. -/
theorem unitDist_eq (N : Int) (d : Nat) (w : Word) :
    unitDist N d w =
      if signBit w = decide (N < 0) then ((N.natAbs : Int) - (d * magUnits w : Nat)).natAbs
      else N.natAbs + d * magUnits w := by
  have hcast : (d : Int) * magUnits w = (d * magUnits w : Nat) := by push_cast; rfl
  rw [unitDist, units]
  cases signBit w
  · simp only [Bool.false_eq_true, if_false, hcast, false_eq_decide_iff]
    split <;> omega
  · simp only [if_true, mul_neg, hcast, true_eq_decide_iff]
    split <;> omega

/-- R15's nearest word. A word of the other sign is no nearer than the zero of bits 0. -/
theorem isNearestEven_nearestMag (N : Int) {d : Nat} (hd : 0 < d) (h : N.natAbs < (2 ^ 25 - 1) * 2 ^ 252 * d) :
    IsNearestEven ((N : Rat) / d / 2 ^ 149) (mkWord (decide (N < 0)) (nearestMag N.natAbs d)) := by
  have hlt := nearestMag_lt hd h
  obtain ⟨v, hv⟩ : ∃ v, v = mkWord (decide (N < 0)) (nearestMag N.natAbs d) := ⟨_, rfl⟩
  have hsign : signBit v = decide (N < 0) := by rw [hv, signBit_mkWord]
  have hbits : magBits v = nearestMag N.natAbs d := by rw [hv, magBits_mkWord _ (by omega)]
  have hmag : magUnits v = bitsUnits (nearestMag N.natAbs d) := by rw [magUnits_eq_bitsUnits, hbits]
  rw [← hv, isNearestEven_iff _ hd, isFinite32_iff_magBits_lt, fracField_mod_two, hbits]
  refine ⟨hlt, hsign, fun u _ => ?_⟩
  rw [unitDist_eq, unitDist_eq, if_pos hsign, hmag]
  by_cases hu : signBit u = decide (N < 0)
  · have hsame := nearestMag_nearest N.natAbs hd (magBits u)
    rw [← magUnits_eq_bitsUnits] at hsame
    rw [if_pos hu]
    refine hsame.imp_right fun hev htie hne => hev htie fun hmul => hne ?_
    rw [units, units, hu, hsign, hmag, Nat.eq_of_mul_eq_mul_left hd hmul]
  · obtain ⟨hle, hev⟩ := nearestMag_nearest N.natAbs hd 0
    rw [bitsUnits_zero, mul_zero, Nat.cast_zero, sub_zero, Int.natAbs_natCast] at hle hev
    rw [if_neg hu]
    refine ⟨hle.trans (Nat.le_add_right _ _), fun htie hne => hev (by omega) fun hmul => hne ?_⟩
    have hzero {x : Nat} (hx : d * x = 0) : x = 0 := (Nat.mul_eq_zero.mp hx).resolve_left hd.ne'
    have hu0 : magUnits u = 0 := hzero (by omega)
    have hv0 : magUnits v = 0 := hmag.trans (hzero hmul.symm)
    rw [(units_eq_zero_iff u).mpr ((magUnits_eq_zero_iff u).mp hu0),
      (units_eq_zero_iff v).mpr ((magUnits_eq_zero_iff v).mp hv0)]

/-- Two nearest words would be at equal distance, so both even and no neighbours; then the word after the smaller one would be
nearer than both. -/
theorem not_magBits_lt_of_isNearestEven {r : Rat} {v w : Word} (hv : IsNearestEven r v) (hw : IsNearestEven r w) :
    ¬ magBits v < magBits w := by
  intro hlt
  obtain ⟨N, d, hd, rfl⟩ : ∃ (N : Int) (d : Nat), 0 < d ∧ r = (N : Rat) / d / 2 ^ 149 :=
    ⟨(r * 2 ^ 149).num, (r * 2 ^ 149).den, Rat.den_pos _, by rw [Rat.num_div_den]; ring⟩
  obtain ⟨hvfin, hvsign, hvmin⟩ := (isNearestEven_iff N hd v).mp hv
  obtain ⟨hwfin, hwsign, hwmin⟩ := (isNearestEven_iff N hd w).mp hw
  obtain ⟨u, hu⟩ : ∃ u, u = mkWord (decide (N < 0)) (magBits v + 1) := ⟨_, rfl⟩
  have husign : signBit u = decide (N < 0) := by rw [hu, signBit_mkWord]
  rw [isFinite32_iff_magBits_lt] at hvfin hwfin
  have hubits : magBits u = magBits v + 1 := by rw [hu, magBits_mkWord _ (by omega)]
  have hmono {a b : Word} (h : magBits a < magBits b) : d * magUnits a < d * magUnits b := by
    rw [magUnits_eq_bitsUnits, magUnits_eq_bitsUnits]
    exact Nat.mul_lt_mul_of_pos_left (bitsUnits_strictMono h) hd
  have htie : unitDist N d v = unitDist N d w := le_antisymm (hvmin w hw.1).1 (hwmin v hv.1).1
  have hne : units v ≠ units w := fun h => by
    have := congrArg Int.natAbs h
    rw [natAbs_units, natAbs_units] at this
    exact (hmono hlt).ne (by rw [this])
  have hveven := (hvmin w hw.1).2 htie.symm hne.symm
  have hweven := (hwmin v hv.1).2 htie hne
  rw [fracField_mod_two] at hveven hweven
  have hvu : d * magUnits v < d * magUnits u := hmono (by omega)
  have huw : d * magUnits u < d * magUnits w := hmono (by omega)
  have hnear := (hvmin u (by rw [isFinite32_iff_magBits_lt]; omega)).1
  rw [unitDist_eq, unitDist_eq, if_pos hvsign] at htie hnear
  rw [if_pos hwsign] at htie
  rw [if_pos husign] at hnear
  omega

theorem isNearestEven_unique {r : Rat} {v w : Word} (hv : IsNearestEven r v) (hw : IsNearestEven r w) : v = w := by
  have hbits : magBits v = magBits w :=
    le_antisymm (not_lt.mp (not_magBits_lt_of_isNearestEven hw hv)) (not_lt.mp (not_magBits_lt_of_isNearestEven hv hw))
  rw [word_eq_mkWord_magBits v, word_eq_mkWord_magBits w, hbits, hv.2.1, hw.2.1]

/-! ## The rounding of R15 -/

/-- R15's overflow threshold, counted in units: `2^128 - 2^103` is `(2^25 - 1) × 2^252` of them. -/
theorem overflow_iff (N : Int) {d : Nat} (hd : 0 < d) :
    (2 : Rat) ^ 128 - 2 ^ 103 ≤ |(N : Rat) / d / 2 ^ 149| ↔ (2 ^ 25 - 1) * 2 ^ 252 * d ≤ N.natAbs := by
  have hd' : (0 : Rat) < d := by exact_mod_cast hd
  have habs : |(N : Rat) / d / 2 ^ 149| = (N.natAbs : Rat) / d / 2 ^ 149 := by
    rw [abs_div, abs_div, Nat.cast_natAbs, Int.cast_abs, Nat.abs_cast, abs_of_pos (show (0 : Rat) < 2 ^ 149 by positivity)]
  have hthreshold : ((2 : Rat) ^ 128 - 2 ^ 103) * 2 ^ 149 * d = ((2 ^ 25 - 1) * 2 ^ 252 * d : Nat) := by
    push_cast
    ring
  rw [habs, le_div_iff₀ (by positivity), le_div_iff₀ hd', hthreshold, Nat.cast_le]

/-- `round32` computes R15's rounding of the rational `N / d` units. -/
theorem rounds_round32 (m : SubnormalMode) (N : Int) {d : Nat} (hd : 0 < d) :
    Rounds m ((N : Rat) / d / 2 ^ 149) (round32 m (decide (N < 0)) N.natAbs d) := by
  have hd' : (0 : Rat) < d := by exact_mod_cast hd
  have hsign : decide ((N : Rat) / d / 2 ^ 149 < 0) = decide (N < 0) := by
    rw [decide_eq_decide, div_lt_iff₀ (by positivity), div_lt_iff₀ hd', zero_mul, zero_mul, Int.cast_lt_zero]
  rw [Rounds, round32]
  by_cases hover : (2 ^ 25 - 1) * 2 ^ 252 * d ≤ N.natAbs
  · rw [if_pos ((overflow_iff N hd).mpr hover), if_pos hover, hsign]
  · rw [if_neg (mt (overflow_iff N hd).mp hover), if_neg hover]
    refine ⟨_, isNearestEven_nearestMag N hd (not_le.mp hover), ?_⟩
    cases m <;> simp

theorem rounds_roundUnits (m : SubnormalMode) (N : Int) : Rounds m ((N : Rat) / 2 ^ 149) (roundUnits m N) := by
  simpa [roundUnits] using rounds_round32 m N Nat.one_pos

theorem rounds_signed (m : SubnormalMode) (neg : Bool) {n d : Nat} (hn : 0 < n) (hd : 0 < d) :
    Rounds m ((if neg then -1 else 1) * ((n : Rat) / d) / 2 ^ 149) (round32 m neg n d) := by
  cases neg
  · simpa [show ¬ (n : Int) < 0 by omega] using rounds_round32 m n hd
  · simpa [hn, neg_div] using rounds_round32 m (-n) hd

theorem rounds_unique {m : SubnormalMode} {r : Rat} {v w : Word} (hv : Rounds m r v) (hw : Rounds m r w) : v = w := by
  unfold Rounds at hv hw
  split at hv
  · next hover =>
    rw [if_pos hover] at hw
    rw [hv, hw]
  · next hover =>
    rw [if_neg hover] at hw
    obtain ⟨v', hv', rfl⟩ := hv
    obtain ⟨w', hw', rfl⟩ := hw
    rw [isNearestEven_unique hv' hw']

end Sys2Proof.Machine
end

section
/-! SUPPORT. The primitives case by case, on operands as the mode reads them (00_scope R16 to R20). -/

namespace Sys2Proof.Machine

theorem not_nan_inf_of_finite {w : Word} (h : isFinite32 w = true) : isNaN32 w = false ∧ isInf32 w = false := by
  obtain ⟨-, hi, hn⟩ | ⟨hf, -, -⟩ | ⟨hf, -, -⟩ := class_cases w
  · exact ⟨hn, hi⟩
  · rw [h] at hf; cases hf
  · rw [h] at hf; cases hf

theorem isNaN32_of_isInf32 {w : Word} (h : isInf32 w = true) : isNaN32 w = false := by
  rw [eq_infOf_of_isInf32 h, isNaN32_infOf]

theorem isZero32_of_isInf32 {w : Word} (h : isInf32 w = true) : isZero32 w = false := by
  rw [eq_infOf_of_isInf32 h]
  cases signBit w <;> decide

theorem infOf_eq_ite (s : Bool) : infOf s = if s then fNInf else fInf := by cases s <;> decide
theorem zeroOf_eq_ite (s : Bool) : zeroOf s = if s then fNegZero else fZero := by cases s <;> decide

/-! ## Addition (R17) -/

section
variable {m : SubnormalMode} {nan a b : Word}

theorem addCases_opposite_infinities (h : (a = fInf ∧ b = fNInf) ∨ (a = fNInf ∧ b = fInf)) :
    addCases m nan a b = nan := by
  obtain ⟨rfl, rfl⟩ | ⟨rfl, rfl⟩ := h <;> rfl

theorem addCases_inf_left (ha : isInf32 a = true) (hb : isNaN32 b = false) (hab : isInf32 b = true → b = a) :
    addCases m nan a b = a := by
  have hsame : isInf32 b = true → signBit a = signBit b := fun h => by rw [hab h]
  simpa [addCases, isNaN32_of_isInf32 ha, hb, ha] using fun hbi hopp => absurd (hsame hbi) hopp

theorem addCases_inf_right (hb : isInf32 b = true) (ha : isNaN32 a = false) (hab : isInf32 a = true → a = b) :
    addCases m nan a b = b := by
  cases hai : isInf32 a
  · simp [addCases, isNaN32_of_isInf32 hb, ha, hai, hb]
  · obtain rfl := hab hai
    exact addCases_inf_left hb ha fun _ => rfl

/-- On finite operands the sum of the unit counts decides. -/
theorem addCases_finite (ha : isFinite32 a = true) (hb : isFinite32 b = true) :
    addCases m nan a b =
      if isZero32 a && isZero32 b then zeroOf (signBit a && signBit b)
      else if units a + units b = 0 then fZero else roundUnits m (units a + units b) := by
  obtain ⟨hna, hia⟩ := not_nan_inf_of_finite ha
  obtain ⟨hnb, hib⟩ := not_nan_inf_of_finite hb
  simp [addCases, hna, hia, hnb, hib]

theorem addCases_zeros (ha : isZero32 a = true) (hb : isZero32 b = true) :
    addCases m nan a b = if a = fNegZero ∧ b = fNegZero then fNegZero else fZero := by
  rw [addCases_finite (isFinite32_of_isZero32 ha) (isFinite32_of_isZero32 hb), if_pos (by rw [ha, hb]; rfl),
    eq_zeroOf_of_isZero32 ha, eq_zeroOf_of_isZero32 hb, signBit_zeroOf, signBit_zeroOf]
  cases signBit a <;> cases signBit b <;> decide

theorem addCases_cancel (ha : isFinite32 a = true) (hb : isFinite32 b = true)
    (hz : ¬(isZero32 a = true ∧ isZero32 b = true)) (h : value32 a + value32 b = 0) : addCases m nan a b = fZero := by
  rw [addCases_finite ha hb, if_neg (by simpa using hz), if_pos ((value32_add_eq_zero_iff a b).mp h)]

theorem addCases_rounds (ha : isFinite32 a = true) (hb : isFinite32 b = true) (h : value32 a + value32 b ≠ 0) :
    Rounds m (value32 a + value32 b) (addCases m nan a b) := by
  have hsum : units a + units b ≠ 0 := mt (value32_add_eq_zero_iff a b).mpr h
  have hz : ¬((isZero32 a && isZero32 b) = true) := by
    rw [Bool.and_eq_true, ← units_eq_zero_iff, ← units_eq_zero_iff]
    omega
  rw [addCases_finite ha hb, if_neg hz, if_neg hsum, value32_add_eq_units]
  exact rounds_roundUnits m _

/-! ## Multiplication (R18) -/

theorem mulCases_inf_zero (h : (isInf32 a = true ∧ isZero32 b = true) ∨ (isZero32 a = true ∧ isInf32 b = true)) :
    mulCases m nan a b = nan := by
  have hcase : ((isInf32 a && isZero32 b) || (isZero32 a && isInf32 b)) = true := by simpa using h
  rw [mulCases, if_pos hcase, ite_self]

theorem mulCases_inf (ha : isNaN32 a = false) (hb : isNaN32 b = false) (hza : isZero32 a = false)
    (hzb : isZero32 b = false) (h : isInf32 a = true ∨ isInf32 b = true) :
    mulCases m nan a b = infOf (signBit a != signBit b) := by
  simp [mulCases, ha, hb, hza, hzb, h]

theorem mulCases_zero (ha : isFinite32 a = true) (hb : isFinite32 b = true)
    (h : isZero32 a = true ∨ isZero32 b = true) : mulCases m nan a b = zeroOf (signBit a != signBit b) := by
  obtain ⟨hna, hia⟩ := not_nan_inf_of_finite ha
  obtain ⟨hnb, hib⟩ := not_nan_inf_of_finite hb
  simp [mulCases, hna, hia, hnb, hib, h]

theorem mulCases_finite (ha : isFinite32 a = true) (hb : isFinite32 b = true) (hza : isZero32 a = false)
    (hzb : isZero32 b = false) :
    mulCases m nan a b = round32 m (signBit a != signBit b) (magUnits a * magUnits b) (2 ^ 149) := by
  obtain ⟨hna, hia⟩ := not_nan_inf_of_finite ha
  obtain ⟨hnb, hib⟩ := not_nan_inf_of_finite hb
  simp [mulCases, hna, hia, hnb, hib, hza, hzb]

theorem mulCases_rounds (ha : isFinite32 a = true) (hb : isFinite32 b = true) (hza : isZero32 a = false)
    (hzb : isZero32 b = false) : Rounds m (value32 a * value32 b) (mulCases m nan a b) := by
  have hval : value32 a * value32 b = (if signBit a != signBit b then -1 else 1) *
      (((magUnits a * magUnits b : Nat) : Rat) / (2 ^ 149 : Nat)) / 2 ^ 149 := by
    rw [value32_eq_sign_mul_magUnits, value32_eq_sign_mul_magUnits]
    cases signBit a <;> cases signBit b <;> simp <;> ring
  rw [mulCases_finite ha hb hza hzb, hval]
  exact rounds_signed m _ (Nat.mul_pos (magUnits_pos hza) (magUnits_pos hzb)) (by positivity)

/-! ## Division (R19) -/

theorem divCases_inf_inf (ha : isInf32 a = true) (hb : isInf32 b = true) : divCases m nan a b = nan := by
  simp [divCases, ha, hb]

theorem divCases_zero_zero (ha : isZero32 a = true) (hb : isZero32 b = true) : divCases m nan a b = nan := by
  simp [divCases, ha, hb]

theorem divCases_inf_finite (ha : isInf32 a = true) (hb : isFinite32 b = true) :
    divCases m nan a b = infOf (signBit a != signBit b) := by
  obtain ⟨hnb, hib⟩ := not_nan_inf_of_finite hb
  simp [divCases, isNaN32_of_isInf32 ha, isZero32_of_isInf32 ha, ha, hnb, hib]

theorem divCases_finite_inf (ha : isFinite32 a = true) (hb : isInf32 b = true) :
    divCases m nan a b = zeroOf (signBit a != signBit b) := by
  obtain ⟨hna, hia⟩ := not_nan_inf_of_finite ha
  simp [divCases, isNaN32_of_isInf32 hb, isZero32_of_isInf32 hb, hb, hna, hia]

/-- On finite operands that are not both zeros, a zero of either side decides, and otherwise the quotient is rounded. -/
theorem divCases_finite (ha : isFinite32 a = true) (hb : isFinite32 b = true)
    (hz : ¬(isZero32 a = true ∧ isZero32 b = true)) :
    divCases m nan a b =
      if isZero32 b then infOf (signBit a != signBit b)
      else if isZero32 a then zeroOf (signBit a != signBit b)
      else round32 m (signBit a != signBit b) (magUnits a * 2 ^ 149) (magUnits b) := by
  obtain ⟨hna, hia⟩ := not_nan_inf_of_finite ha
  obtain ⟨hnb, hib⟩ := not_nan_inf_of_finite hb
  have hz' : (isZero32 a && isZero32 b) = false := by simpa using hz
  simp [divCases, hna, hia, hnb, hib, hz']

theorem divCases_rounds (ha : isFinite32 a = true) (hb : isFinite32 b = true) (hza : isZero32 a = false)
    (hzb : isZero32 b = false) : Rounds m (value32 a / value32 b) (divCases m nan a b) := by
  have hval : value32 a / value32 b = (if signBit a != signBit b then -1 else 1) *
      (((magUnits a * 2 ^ 149 : Nat) : Rat) / magUnits b) / 2 ^ 149 := by
    rw [value32_eq_sign_mul_magUnits, value32_eq_sign_mul_magUnits]
    have : (magUnits b : Rat) ≠ 0 := by exact_mod_cast (magUnits_pos hzb).ne'
    cases signBit a <;> cases signBit b <;> simp <;> field_simp <;> norm_num
  rw [divCases_finite ha hb (by simp [hza]), hza, hzb, hval]
  exact rounds_signed m _ (Nat.mul_pos (magUnits_pos hza) (by positivity)) (magUnits_pos hzb)
end

/-! ## Comparison (R20) -/

/-- The model's order is the order of the extended values. -/
theorem valueLt_iff (a b : Word) :
    valueLt a b = true ↔ valueExt a < valueExt b := by
  have htop (q : Rat) : ((q : WithTop Rat) : WithBot (WithTop Rat)) < ⊤ := WithBot.coe_lt_coe.mpr (WithTop.coe_lt_top q)
  unfold valueLt valueExt
  by_cases ha : isInf32 a = true
  · cases signBit a
    · simp [ha]
    · cases isInf32 b <;> cases signBit b <;> simp [ha]
  · by_cases hb : isInf32 b = true
    · cases signBit b <;> simp [ha, hb, htop]
    · simp [ha, hb, value32_lt_iff]

theorem flt32_iff (m : SubnormalMode) (a b : Word) :
    flt32 m a b = true ↔ isNaN32 (condition m a) = false ∧ isNaN32 (condition m b) = false ∧
      valueExt (condition m a) < valueExt (condition m b) := by
  rw [flt32, Bool.and_eq_true, Bool.and_eq_true, Bool.not_eq_true', Bool.not_eq_true', and_assoc]
  exact and_congr_right' (and_congr_right' (valueLt_iff _ _))

/-! ## Subnormal operands (R16) -/

theorem condition_ftzDaz_subnormal {w : Word} (h : isSubnormal32 w = true) :
    condition .ftzDaz w = condition .ftzDaz (zeroOf (signBit w)) := by
  rw [condition, if_pos h]
  cases signBit w <;> decide

theorem isSubnormal32_negate (w : Word) : isSubnormal32 (negate w) = isSubnormal32 w := by simp [isSubnormal32]

theorem negate_zeroOf (neg : Bool) : negate (zeroOf neg) = zeroOf (!neg) := negate_mkWord neg 0

end Sys2Proof.Machine
end

section
/-! The obligations about the number format and its arithmetic (00_scope R12 to R20). -/

namespace Sys2Proof.Machine

/-- Settles O30: both counts are R12's formula with the powers of two gathered. -/
theorem unitCountsAreValues : Obligations.UnitCountsAreValues :=
  fun w _ => ⟨(value32_eq_units w).symm, (abs_value32 w).symm⟩

/-- Settles O31: the exact magnitude lies between two neighbouring words, and `nearestMag` picks the nearer. -/
theorem roundToNearestEven : Obligations.RoundToNearestEven :=
  fun m neg _ _ hn hd => rounds_signed m neg hn hd

/-- Settles O32: two nearest words would be neighbours with equally even fractions. -/
theorem roundingIsUnique : Obligations.RoundingIsUnique :=
  fun _ _ _ _ _ hv hw => rounds_unique hv hw

/-- Settles O34: each case is a law of `addCases`, on the operands as the mode reads them. -/
theorem additionCases : Obligations.AdditionCases := by
  refine ⟨?_, fun _ _ _ _ => rfl⟩
  rintro m nan a b _ _ rfl rfl
  exact ⟨fun h => fadd32_nan (by simpa using h), addCases_opposite_infinities, addCases_inf_left, addCases_inf_right,
    addCases_zeros, addCases_cancel, addCases_rounds⟩

/-- Settles O35: each case is a law of `mulCases`; conditioning keeps the signs. -/
theorem multiplicationCases : Obligations.MultiplicationCases := by
  rintro m nan a b _ _ _ rfl rfl rfl
  rw [← signBit_condition m a, ← signBit_condition m b, ← infOf_eq_ite, ← zeroOf_eq_ite, fmul32]
  exact ⟨fun h => fmul32_nan (by simpa using h), mulCases_inf_zero, mulCases_inf, mulCases_zero, fun ha hb hza hzb =>
    ⟨mulCases_rounds ha hb hza hzb, by rw [mulCases_finite ha hb hza hzb, signBit_round32]⟩⟩

/-- Settles O36: each case is a law of `divCases`; conditioning keeps the signs. -/
theorem divisionCases : Obligations.DivisionCases := by
  rintro m nan a b _ _ _ rfl rfl rfl
  rw [← signBit_condition m a, ← signBit_condition m b, ← infOf_eq_ite, ← zeroOf_eq_ite, fdiv32]
  refine ⟨fun h => fdiv32_nan (by simpa using h), divCases_inf_inf, divCases_zero_zero, divCases_inf_finite,
    divCases_finite_inf, fun ha hza hzb => ?_, fun hza hb hzb => ?_,
    fun ha hb hza hzb => ⟨divCases_rounds ha hb hza hzb, ?_⟩⟩
  · rw [divCases_finite ha (isFinite32_of_isZero32 hzb) (by simp [hza]), if_pos hzb]
  · rw [divCases_finite (isFinite32_of_isZero32 hza) hb (by simp [hzb]), hzb, hza]
    rfl
  · rw [divCases_finite ha hb (by simp [hza]), hza, hzb]
    exact signBit_round32 ..

/-- Settles O37: an order of unit counts, extended by the infinities, is the order of the values. -/
theorem comparisonIsOrderOfValues : Obligations.ComparisonIsOrderOfValues := by
  rintro m a b _ _ rfl rfl
  exact ⟨flt32_iff m a b, rfl, by cases m <;> decide, by cases m <;> decide⟩

/-- Settles O29: the values are read off the unit counts, and `F_MAX` has the largest bits [30:0] of a finite word. -/
theorem namedWordsAndClassTests : Obligations.NamedWordsAndClassTests := by
  refine ⟨?_, by decide, fun w => value32_le_fMax, fun w => ⟨?_, ?_⟩⟩
  · have hOne : units fOne = 2 ^ 149 := by decide
    have hNegOne : units fNegOne = -2 ^ 149 := by decide
    have hMax : units fMax = (2 ^ 24 - 1) * 2 ^ 253 := by decide
    have h1024 : units f1024 = 2 ^ 159 := by decide
    have h4M : units f4M = 2 ^ 171 := by decide
    have hZero : units fZero = 0 := by decide
    simp only [value32_eq_units, hOne, hNegOne, hMax, h1024, h4M, hZero]
    refine ⟨?_, by decide, ?_, ?_, ?_, ?_, ?_⟩ <;> norm_num
  · rw [isFinite32_iff, ne_eq, ne_eq, ← BitVec.toNat_inj]
    rfl
  · rw [isNaN32_iff, ne_eq, ne_eq, ← BitVec.toNat_inj, ← BitVec.toNat_inj]
    rfl

/-- Settles O33: the primitives read an operand through `condition` only, which maps a subnormal and the zero of its sign to one word. -/
theorem subnormalOperandsReadAsZero : Obligations.SubnormalOperandsReadAsZero := by
  refine ⟨condition_ieee, fun nan a b z ha hz => ?_⟩
  have hz : z = zeroOf (signBit a) := hz.trans (zeroOf_eq_ite _).symm
  have hread : condition .ftzDaz a = condition .ftzDaz z := hz ▸ condition_ftzDaz_subnormal ha
  have hreadNeg : condition .ftzDaz (negate a) = condition .ftzDaz (negate z) := by
    rw [hz, negate_zeroOf, ← signBit_negate]
    exact condition_ftzDaz_subnormal ((isSubnormal32_negate a).trans ha)
  simp only [fadd32, fsub32, fmul32, fdiv32, flt32, fgt32, hread, hreadNeg, and_self]

end Sys2Proof.Machine
end

section
/-! SUPPORT. Decoding undoes encoding (30_encoding R54, R57, R64). -/

namespace Sys2Proof

@[simp] theorem packetX0_encode_frame (x0 x1 : Word) : packetX0 (encode (.frame x0 x1)) = x0 := by
  apply BitVec.eq_of_toNat_eq
  simp only [packetX0, BitVec.extractLsb'_toNat, encode_frame_toNat, Nat.shiftRight_eq_div_pow]
  omega

@[simp] theorem packetX1_encode_frame (x0 x1 : Word) : packetX1 (encode (.frame x0 x1)) = x1 := by
  apply BitVec.eq_of_toNat_eq
  simp only [packetX1, BitVec.extractLsb'_toNat, encode_frame_toNat, Nat.shiftRight_eq_div_pow]
  omega

@[simp] theorem decode_encode (i : Instr) : decode (encode i) = i := by
  cases i <;> simp [decode, Instr.code]

end Sys2Proof
end

section
/-! SUPPORT. What a step leaves, as a function of the transaction it is (30_encoding R50): the block runs the transaction under
the bundle on the port, and besides that only the host's buffer may have changed. -/

namespace Sys2Proof.Machine

@[simp] theorem setBuf_own_buf (s : State) : s.setBuf s.buf = s := rfl

@[simp] theorem afterCommand_buf (i : Instr) (s : State) : (afterCommand i s).buf = s.buf := by
  obtain ⟨-, hbuf, -, -⟩ := afterCommand_frame i s
  exact hbuf

@[simp] theorem afterCommand_cfg (i : Instr) (s : State) : (afterCommand i s).cfg = s.cfg := by
  obtain ⟨-, -, -, hcfg⟩ := afterCommand_frame i s
  exact hcfg

/-- The state a transaction leaves, once its event is taken and its bundle stands on the port. -/
def afterTransaction (tr : Transaction) (s : State) : State :=
  match tr with
  | .idle => s
  | .reset => s.resetBlock
  | .command i => afterCommand i s
  | .hostError => s

@[simp] theorem afterTransaction_cfg (tr : Transaction) (s : State) : (afterTransaction tr s).cfg = s.cfg := by
  cases tr with
  | idle => rfl
  | reset => rfl
  | command i => exact afterCommand_cfg i s
  | hostError => rfl

/-- No command reads or writes the host's buffer (R39), so it makes no difference whether the host supplies it before or after. -/
theorem afterCommand_setBuf (i : Instr) (s : State) (b : Memory) :
    afterCommand i (s.setBuf b) = (afterCommand i s).setBuf b := by
  cases i <;> rfl

/-- A write-back that goes on writes the buffer and nothing else. -/
theorem writeBack_eq_setBuf {f : Nat} {s t : State} (h : writeBack f s = .next t) : ∃ b, t = s.setBuf b := by
  unfold writeBack at h
  split at h
  · exact ⟨s.buf, (Host.Outcome.next.inj h).symm⟩
  · split at h
    · next b _ => exact ⟨b, (Host.Outcome.next.inj h).symm⟩
    · cases h

/-- The step takes the next event, puts its bundle on the port and runs its transaction; all else it can change is the buffer. -/
theorem step_eq_afterTransaction {s t : State} (h : step s = .next t) :
    ∃ b, t = (afterTransaction s.transaction ((s.setScript s.script.tail).setInP s.nextP)).setBuf b := by
  obtain ⟨hs, ht⟩ | ⟨c, p, rest, hs, ht⟩ | ⟨c, p, rest, hs, ht⟩ | ⟨channels, rest, hs, hc, hl, ht⟩ |
    ⟨channels, p, rest, hs, hc, hl, ht⟩ | ⟨f, p, rest, x0, x1, hs, h0, h1, hw⟩ := step_cases h
  · have hheld : (s.setScript []).setInP s.inP = s := by rw [← hs]; rfl
    exact ⟨t.buf, by simp [State.transaction, State.nextP, hs, afterTransaction, hheld, ht]⟩
  · exact ⟨t.buf, by simp [State.transaction, State.nextP, hs, afterTransaction, ← ht]⟩
  · exact ⟨t.buf, by simp [State.transaction, State.nextP, hs, afterTransaction, ← ht]⟩
  · have hport : (s.setScript rest).setInP s.inP = s.setScript rest := rfl
    exact ⟨t.buf, by simp [State.transaction, State.nextP, hs, hc, hl, afterTransaction, hport, ht]⟩
  · refine ⟨{ ch0 := channels.getD 0 [], ch1 := channels.getD 1 [] }, ht.trans ?_⟩
    simp only [State.transaction, State.nextP, hs, hc, hl, Bool.and_self, if_true, afterTransaction, decode_encode]
    exact afterCommand_setBuf .begin ((s.setScript rest).setInP (unpackP p)) _
  · obtain ⟨b, hb⟩ := writeBack_eq_setBuf hw
    exact ⟨b, by simpa [State.transaction, State.nextP, hs, h0, h1, afterTransaction] using hb⟩

/-! ## Which steps write the buffer -/

/-- With an event presented, a step takes it and runs it. -/
theorem step_eq_runEvent {s : State} {e : HostEvent} {rest : List HostEvent} (hs : s.script = e :: rest) :
    step s = runEvent e (s.setScript rest) := by
  simp only [step, hostStep, hs]

/-- The block does not see the buffer (R39, R131). -/
theorem transact_buf {rst : Bool} {c : BitVec 66} {p : BitVec 97} {s t : State} (h : transact rst c p s = .next t) :
    t.buf = s.buf := by
  cases rst with
  | true =>
    rw [transact_reset] at h
    rw [← Host.Outcome.next.inj h, resetBlock_buf, setInP_buf]
  | false =>
    rw [transact_command] at h
    rw [← Host.Outcome.next.inj h, afterCommand_buf, setInP_buf]

theorem supplyBuffer_buf {ch0 ch1 : List Word} {s t : State} (h : supplyBuffer [ch0, ch1] s = .next t) :
    t.buf = ⟨ch0, ch1⟩ := by
  obtain ⟨-, -, rfl⟩ := supplyBuffer_cases h
  rfl

theorem runCallback_buf {ch0 ch1 : List Word} {p : BitVec 97} {s t : State}
    (h : runCallback [ch0, ch1] p s = .next t) : t.buf = ⟨ch0, ch1⟩ := by
  obtain ⟨u, hu, rfl⟩ := runCallback_cases h
  rw [afterCommand_buf, setInP_buf, supplyBuffer_buf hu]

end Sys2Proof.Machine
end

section
/-! SUPPORT. The capture overwrites the snapshot (40_parameter_sampler R75, R77). -/

namespace Sys2Proof.Machine

@[simp] theorem setSnapshot_setSnapshot (s : State) (p q : Params) :
    (s.setSnapshot p).setSnapshot q = s.setSnapshot q := rfl

/-- A FRAME that captures reads nothing of the snapshot registers and overwrites all four. -/
theorem exec_frame_setSnapshot {s : State} (hpos : s.pos = 0#7) (q : Params) (x0 x1 : Word) :
    exec (.frame x0 x1) (s.setSnapshot q) = exec (.frame x0 x1) s := by
  have hparams : (s.setSnapshot q).frameParams = s.frameParams := by simp [hpos]
  simp [hparams, frameResult_eq]

end Sys2Proof.Machine
end

section
/-! The obligations about the state: what reset leaves in it, and which steps write `POS`, the configuration and the host buffer
(10_state). -/

namespace Sys2Proof.Machine

/-- Settles O7: power-on is R35's values. -/
theorem resetRegisterValues : Obligations.ResetRegisterValues :=
  ⟨rfl, rfl, rfl, rfl, rfl⟩

/-- Settles O59: reset's snapshot is in contract. Its buffer of no frames and its empty list of events, over which nothing remains
to show, are the model's choices (log entries 4 and 6). -/
theorem invariantsHoldAtReset : Obligations.InvariantsHoldAtReset := by
  have hsnapshot : State.reset.snapshot.inContract = true := by decide
  have hout : ∀ y, State.reset.out = some y → Frame.IsNominal y := nofun
  exact ⟨rfl, hsnapshot, List.forall_mem_nil _, List.forall_mem_nil _, List.forall_mem_nil _, hout⟩

/-- Settles O10: BEGIN leaves `POS` at 0, as reset does, and there the FRAME captures. -/
theorem resetSnapshotIsUnobservable : Obligations.ResetSnapshotIsUnobservable :=
  ⟨rfl, fun _ q x0 x1 hpos => exec_frame_setSnapshot hpos q x0 x1,
    fun s q x0 x1 => ⟨_, _, exec_begin_eq s, exec_begin_eq (s.setSnapshot q),
      exec_frame_setSnapshot (s := (s.setPos 0#7).setOut none) rfl q x0 x1⟩⟩

/-- Settles O18: a step moves `POS` as its transaction does. -/
theorem posHasThreeWriters : Obligations.PosHasThreeWriters := by
  refine ⟨fun s x0 x1 hpos => ⟨_, exec_frame_eq x0 x1 s, frameParams_of_pos_zero hpos⟩, fun s t h => ?_⟩
  obtain ⟨b, rfl⟩ := step_eq_afterTransaction h
  rw [setBuf_pos]
  cases s.transaction with
  | idle => rfl
  | reset => rfl
  | command i =>
    cases i with
    | nop => rfl
    | begin => rfl
    | frame x0 x1 => exact pos_add_one_toNat s.pos
    | rsvd => rfl
  | hostError => rfl

/-- Settles O24: no transaction writes the configuration; a presented packet or reset passes the buffer by, and a supply
replaces it. -/
theorem onlyHostTurnsTouchTheBuffer : Obligations.OnlyHostTurnsTouchTheBuffer := by
  refine fun s t h => ⟨?_, fun rst c p rest hs => ?_, fun ch0 ch1 p rest hs => ?_⟩
  · obtain ⟨b, rfl⟩ := step_eq_afterTransaction h
    simp
  · rw [step_eq_runEvent hs] at h
    exact (transact_buf h).trans (setScript_buf s rest)
  · obtain hs | hs := hs
    · rw [step_eq_runEvent hs] at h
      exact runCallback_buf h
    · rw [step_eq_runEvent hs] at h
      exact supplyBuffer_buf h

end Sys2Proof.Machine
end

section
/-! SUPPORT. A turn of PROCESS_BUFFER's loop at a legal position and at one that is not there, and what a supply and a turn do to
the buffer's canonical form (20_memory R38, R44). -/

namespace Sys2Proof.Machine

/-! ## Legal positions -/

/-- The positions that can be written are those that can be read, in any buffer. -/
theorem isSome_bufWrite (b : Memory) (c f : Nat) (v : Word) :
    (bufWrite b c f v).isSome = (bufRead b c f).isSome := by
  cases hread : bufRead b c f with
  | some x =>
    obtain ⟨b', hb'⟩ := bufWrite_of_read hread v
    simp [hb']
  | none =>
    cases hwrite : bufWrite b c f v with
    | none => rfl
    | some b' =>
      obtain ⟨rfl, hf, -⟩ | ⟨rfl, hf, -⟩ := bufWrite_cases hwrite <;> simp [bufRead] at hread <;> omega

theorem bufRead_eq_none_of_frames_le {b : Memory} (hwf : b.wf = true) {f : Nat} (hf : b.frames ≤ f) (c : Nat) :
    bufRead b c f = none := by
  have hillegal : ¬ (bufRead b c f).isSome = true := fun hsome =>
    absurd ((bufRead_isSome_iff hwf c f).mp hsome).right (by omega)
  simpa using hillegal

/-! ## A turn -/

theorem runFrameAt_refused {s : State} {f : Nat} (p : BitVec 97)
    (h : bufRead s.buf 0 f = none ∨ bufRead s.buf 1 f = none) : runFrameAt f p s = .refused .bufferPosition := by
  unfold runFrameAt
  split
  · next x0 x1 h0 h1 => simp [h0, h1] at h
  · rfl

/-- A step on the turn at a legal position leaves the state of FRAME and a buffer that holds its two output words in place of the
two words read, with every other word, the lengths and the canonical form as they were. -/
theorem step_frameAt_legal {s : State} {f : Nat} {p : BitVec 97} {rest : List HostEvent} {x0 x1 : Word}
    (hs : s.script = .frameAt f p :: rest) (h0 : bufRead s.buf 0 f = some x0) (h1 : bufRead s.buf 1 f = some x1) :
    ∃ (b : Memory) (y : Frame), (afterCommand (.frame x0 x1) ((s.setScript rest).setInP (unpackP p))).out = some y ∧
      step s = .next ((afterCommand (.frame x0 x1) ((s.setScript rest).setInP (unpackP p))).setBuf b) ∧
      bufRead b 0 f = some y.ch0 ∧ bufRead b 1 f = some y.ch1 ∧
      (∀ c g, g ≠ f → bufRead b c g = bufRead s.buf c g) ∧ b.wf = s.buf.wf ∧ b.frames = s.buf.frames := by
  have hbuf : (afterCommand (.frame x0 x1) ((s.setScript rest).setInP (unpackP p))).buf = s.buf := rfl
  obtain ⟨b, hback, hrest⟩ := writeBack_legal (f := f)
    (s := afterCommand (.frame x0 x1) ((s.setScript rest).setInP (unpackP p))) rfl (hbuf ▸ h0) (hbuf ▸ h1)
  refine ⟨b, _, rfl, ?_, hrest⟩
  simp [step_eq_runEvent hs, runEvent, runFrameAt, h0, h1, hback]

/-! ## The canonical form -/

theorem supplyBuffer_of_ok {channels : List (List Word)} (hc : channelCountOk channels = true)
    (hl : channelLengthsOk channels = true) (s : State) :
    supplyBuffer channels s = .next (s.setBuf { ch0 := channels.getD 0 [], ch1 := channels.getD 1 [] }) := by
  simp [supplyBuffer, hc, hl]

/-- A supply that is not refused leaves a buffer in canonical form, whatever the state it is made in. -/
theorem suppliedBuffer_wf {channels : List (List Word)} (hc : channelCountOk channels = true)
    (hl : channelLengthsOk channels = true) :
    Memory.wf { ch0 := channels.getD 0 [], ch1 := channels.getD 1 [] } = true :=
  supplyBuffer_wf (supplyBuffer_of_ok hc hl State.reset)

/-- Every step but a supply, with BEGIN or without, keeps the buffer's length and whether it is in canonical form; a supply
leaves a buffer in canonical form. -/
theorem step_buf_form {s t : State} (h : step s = .next t) :
    (t.buf.wf = s.buf.wf ∧ t.buf.frames = s.buf.frames) ∨
      (t.buf.wf = true ∧ ∃ channels rest, s.script = .supply channels :: rest ∨
        ∃ p, s.script = .callback channels p :: rest) := by
  obtain ⟨-, rfl⟩ | ⟨c, p, rest, -, rfl⟩ | ⟨c, p, rest, -, rfl⟩ | ⟨channels, rest, hs, hc, hl, rfl⟩ |
    ⟨channels, p, rest, hs, hc, hl, rfl⟩ | ⟨f, p, rest, x0, x1, hs, h0, h1, -⟩ := step_cases h
  · exact .inl ⟨rfl, rfl⟩
  · exact .inl ⟨rfl, rfl⟩
  · exact .inl (by simp)
  · exact .inr ⟨suppliedBuffer_wf hc hl, channels, rest, .inl hs⟩
  · refine .inr ⟨?_, channels, rest, .inr ⟨p, hs⟩⟩
    rw [afterCommand_buf, setInP_buf, setBuf_buf]
    exact suppliedBuffer_wf hc hl
  · obtain ⟨b, y, -, hstep, -, -, -, hwf, hframes⟩ := step_frameAt_legal hs h0 h1
    rw [← Host.Outcome.next.inj (hstep.symm.trans h)]
    exact .inl ⟨hwf, hframes⟩

end Sys2Proof.Machine
end

section
/-! The obligations about the host buffer: its legal positions, the write-back, and the canonical form (20_memory). -/

namespace Sys2Proof.Machine

/-- Settles O25: a step keeps the form and the length unless it supplies a buffer, and a supplied buffer is in canonical form. -/
theorem stepKeepsBufferForm : Obligations.StepKeepsBufferForm := by
  intro s t hwf h
  obtain ⟨hform, hframes⟩ | ⟨hform, channels, rest, hs⟩ := step_buf_form h
  · exact ⟨hform.trans hwf, fun _ => hframes⟩
  · refine ⟨hform, fun hnosupply => ?_⟩
    obtain hs | ⟨p, hs⟩ := hs
    · exact absurd hs (hnosupply channels 0#97 rest).right
    · exact absurd hs (hnosupply channels p rest).left

/-- Settles O22: the positions that can be read are the legal ones, the same can be written, and a turn at a frame from `M` on
finds no word to read. -/
theorem illegalBufferPositionIsRefused : Obligations.IllegalBufferPositionIsRefused := by
  refine fun b hwf => ⟨bufRead_isSome_iff hwf, fun c f v => ?_, fun c f v b' hw => ?_, fun s f p rest hb hs hf => ?_⟩
  · rw [isSome_bufWrite, bufRead_isSome_iff hwf]
  · exact ⟨bufRead_after_write hw, fun _ _ => bufRead_other_after_write hw⟩
  · subst hb
    rw [step_eq_runEvent hs]
    exact runFrameAt_refused p (.inl (bufRead_eq_none_of_frames_le hwf hf 0))

/-- Settles O23: the turn's state is FRAME's with the written-back buffer. -/
theorem resultsAreWrittenBackInPlace : Obligations.ResultsAreWrittenBackInPlace := by
  intro s f p rest x0 x1 hs h0 h1
  obtain ⟨b, y, hout, hstep, hread0, hread1, hother, -, -⟩ := step_frameAt_legal hs h0 h1
  exact ⟨_, _, y, exec_eq_next _ _, hout, hstep, rfl, hread0, hread1, hother⟩

end Sys2Proof.Machine
end

section
/-! SUPPORT. The fields of the three formats as arithmetic on the packed number, and what each row of the command map decides
(30_encoding R54 to R57, R59, R64). -/

namespace Sys2Proof

/-! ## Format C (R54) -/

theorem packetCmd_toNat (c : BitVec 66) : (packetCmd c).toNat = c.toNat % 2 ^ 2 := by
  rw [packetCmd, BitVec.extractLsb'_toNat, Nat.shiftRight_zero]

theorem packetX0_toNat (c : BitVec 66) : (packetX0 c).toNat = c.toNat / 2 ^ 2 % 2 ^ 32 := by
  rw [packetX0, BitVec.extractLsb'_toNat, Nat.shiftRight_eq_div_pow]

theorem packetX1_toNat (c : BitVec 66) : (packetX1 c).toNat = c.toNat / 2 ^ 34 := by
  rw [packetX1, BitVec.extractLsb'_toNat, Nat.shiftRight_eq_div_pow]
  have hc := c.isLt
  omega

/-! ## The command of a packet (R57) -/

theorem decode_of_cmd_nop {c : BitVec 66} (h : packetCmd c = 0b00#2) : decode c = .nop := by
  simp [decode, h]

theorem decode_of_cmd_begin {c : BitVec 66} (h : packetCmd c = 0b01#2) : decode c = .begin := by
  simp [decode, h]

theorem decode_of_cmd_frame {c : BitVec 66} (h : packetCmd c = 0b10#2) :
    decode c = .frame (packetX0 c) (packetX1 c) := by
  simp [decode, h]

theorem decode_of_cmd_rsvd {c : BitVec 66} (h : packetCmd c = 0b11#2) : decode c = .rsvd := by
  simp [decode, h]

/-- The code of the command a packet decodes to is the packet's own. -/
@[simp] theorem code_decode (c : BitVec 66) : (decode c).code = packetCmd c := by
  obtain h | h | h | h := code_cases (packetCmd c)
  · rw [decode_of_cmd_nop h, h, Instr.code]
  · rw [decode_of_cmd_begin h, h, Instr.code]
  · rw [decode_of_cmd_frame h, h, Instr.code]
  · rw [decode_of_cmd_rsvd h, h, Instr.code]

/-- Only a packet of code 10 decodes to a FRAME. -/
theorem packetCmd_of_decode_frame {c : BitVec 66} {x0 x1 : Word} (h : decode c = .frame x0 x1) :
    packetCmd c = 0b10#2 := by
  rw [← code_decode, h, Instr.code]

/-- The decoder reads every bit of a FRAME packet, so that encoding its command gives the packet back. -/
theorem encode_decode_frame {c : BitVec 66} (h : packetCmd c = 0b10#2) : encode (decode c) = c := by
  have hcmd : c.toNat % 2 ^ 2 = 2 := by rw [← packetCmd_toNat, h]; rfl
  apply BitVec.eq_of_toNat_eq
  rw [decode_of_cmd_frame h, encode_frame_toNat, packetX0_toNat, packetX1_toNat]
  omega

/-- Of a packet that is no FRAME the decoder reads the code alone (R59). -/
theorem decode_congr_of_not_frame {c c' : BitVec 66} (hcmd : packetCmd c = packetCmd c')
    (hnotFrame : packetCmd c ≠ 0b10#2) : decode c = decode c' := by
  obtain h | h | h | h := code_cases (packetCmd c)
  · rw [decode_of_cmd_nop h, decode_of_cmd_nop (hcmd ▸ h)]
  · rw [decode_of_cmd_begin h, decode_of_cmd_begin (hcmd ▸ h)]
  · exact absurd h hnotFrame
  · rw [decode_of_cmd_rsvd h, decode_of_cmd_rsvd (hcmd ▸ h)]

/-- The bits the decoder reads are the code and, for FRAME, all of them. -/
theorem decode_eq_decode_iff (c c' : BitVec 66) :
    decode c = decode c' ↔ packetCmd c = packetCmd c' ∧ (packetCmd c = 0b10#2 → c = c') := by
  refine ⟨fun h => ?_, fun ⟨hcmd, hbits⟩ => ?_⟩
  · have hcmd : packetCmd c = packetCmd c' := by rw [← code_decode, h, code_decode]
    refine ⟨hcmd, fun hframe => ?_⟩
    rw [← encode_decode_frame hframe, h, encode_decode_frame (hcmd ▸ hframe)]
  · by_cases hframe : packetCmd c = 0b10#2
    · rw [hbits hframe]
    · exact decode_congr_of_not_frame hcmd hframe

/-- Read as a number, a packet decodes as it does as a packet. -/
@[simp] theorem decodeTableWord_packet (c : BitVec 66) : decodeTableWord 66 c.toNat = some (decode c) := by
  rw [decodeTableWord, Nat.mod_eq_of_lt c.isLt, decodeNumber, if_pos c.isLt, BitVec.ofNat_toNat, BitVec.setWidth_eq]
  rfl

/-! ## The command map (R64) -/

/-- Every mask of the table selects the code. -/
theorem matchesPacket_iff {r : OpcodeRow} (hr : r ∈ opcodeTable) (c : BitVec 66) :
    r.matchesPacket c = true ↔ (packetCmd c).toNat = r.matchBits := by
  have hmask : ∀ r ∈ opcodeTable, r.maskBits = 2 ^ 2 - 1 := by decide
  rw [OpcodeRow.matchesPacket, hmask r hr, Nat.and_two_pow_sub_one_eq_mod, packetCmd_toNat, beq_iff_eq]

/-- In the table, mnemonics name codes one to one. -/
theorem mnemonic_eq_iff_code_eq (i : Instr) {r : OpcodeRow} (hr : r ∈ opcodeTable) :
    i.mnemonic = r.mnemonic ↔ i.code.toNat = r.matchBits := by
  revert r
  cases i with
  | nop => decide
  | begin => decide
  | frame x0 x1 =>
    simp only [Instr.mnemonic, Instr.code]
    decide
  | rsvd => decide

theorem matchesPacket_iff_mnemonic {r : OpcodeRow} (hr : r ∈ opcodeTable) (c : BitVec 66) :
    r.matchesPacket c = true ↔ (decode c).mnemonic = r.mnemonic := by
  rw [matchesPacket_iff hr, mnemonic_eq_iff_code_eq _ hr, code_decode]

theorem exists_row_of_instr (i : Instr) : Laws.TableRow.Statement i := by
  cases i with
  | nop => exact Laws.TableRow.nop
  | begin => exact Laws.TableRow.begin
  | frame x0 x1 => exact Laws.TableRow.frame x0 x1
  | rsvd => exact Laws.TableRow.rsvd

theorem exists_row_of_packet (c : BitVec 66) : ∃ r ∈ opcodeTable, r.matchesPacket c = true := by
  obtain ⟨r, hr, hmnemonic, -⟩ := exists_row_of_instr (decode c)
  exact ⟨r, hr, (matchesPacket_iff_mnemonic hr c).mpr hmnemonic.symm⟩

/-! ## Format P (R55) -/

theorem packP_toNat (p : Params) : (packP p).toNat =
    p.res.toNat * 2 ^ 96 + p.mult.toNat * 2 ^ 64 + p.add.toNat * 2 ^ 32 + p.wet.toNat := by
  simp only [packP, toNat_append_eq, BitVec.toNat_ofBool]
  omega

theorem unpackP_wet_toNat (b : BitVec 97) : (unpackP b).wet.toNat = b.toNat % 2 ^ 32 := by
  rw [unpackP, BitVec.extractLsb'_toNat, Nat.shiftRight_zero]

theorem unpackP_add_toNat (b : BitVec 97) : (unpackP b).add.toNat = b.toNat / 2 ^ 32 % 2 ^ 32 := by
  rw [unpackP, BitVec.extractLsb'_toNat, Nat.shiftRight_eq_div_pow]

theorem unpackP_mult_toNat (b : BitVec 97) : (unpackP b).mult.toNat = b.toNat / 2 ^ 64 % 2 ^ 32 := by
  rw [unpackP, BitVec.extractLsb'_toNat, Nat.shiftRight_eq_div_pow]

theorem unpackP_res_toNat (b : BitVec 97) : (unpackP b).res.toNat = b.toNat / 2 ^ 96 := by
  rw [unpackP, BitVec.getLsbD, Nat.toNat_testBit]
  have hb := b.isLt
  omega

@[simp] theorem packP_unpackP (b : BitVec 97) : packP (unpackP b) = b := by
  apply BitVec.eq_of_toNat_eq
  rw [packP_toNat, unpackP_res_toNat, unpackP_mult_toNat, unpackP_add_toNat, unpackP_wet_toNat]
  omega

theorem packP_injective : Function.Injective packP := by
  rintro ⟨wet, add, mult, res⟩ ⟨wet', add', mult', res'⟩ h
  have hbits := congrArg BitVec.toNat h
  simp only [packP_toNat] at hbits
  have hres := Bool.toNat_lt res
  have hres' := Bool.toNat_lt res'
  have toNat_injective : Function.Injective Bool.toNat := Function.LeftInverse.injective Bool.ofNat_toNat
  rw [Params.mk.injEq]
  refine ⟨BitVec.eq_of_toNat_eq ?_, BitVec.eq_of_toNat_eq ?_, BitVec.eq_of_toNat_eq ?_, toNat_injective ?_⟩ <;> omega

@[simp] theorem unpackP_packP (p : Params) : unpackP (packP p) = p :=
  packP_injective (packP_unpackP (packP p))

/-! ## Format Y (R56) -/

theorem packY_some_toNat (wires : BitVec 64) (y : Frame) :
    (packY wires (some y)).toNat = y.ch1.toNat * 2 ^ 33 + y.ch0.toNat * 2 + 1 := by
  simp only [packY, toNat_append_eq, BitVec.toNat_ofNat]
  omega

theorem packY_none_toNat (wires : BitVec 64) : (packY wires none).toNat = wires.toNat * 2 :=
  toNat_append_eq wires 0#1

theorem unpackY_of_even {b : BitVec 65} (h : b.toNat % 2 = 0) : unpackY b = none := by
  simp [unpackY, BitVec.getLsbD, h]

theorem unpackY_of_odd {b : BitVec 65} (h : b.toNat % 2 = 1) :
    unpackY b = some { ch0 := b.extractLsb' 1 32, ch1 := b.extractLsb' 33 32 } := by
  simp [unpackY, BitVec.getLsbD, h]

/-- The samples come back, and without a frame whatever the wires carry is not read (R52). -/
@[simp] theorem unpackY_packY (wires : BitVec 64) (y : Option Frame) : unpackY (packY wires y) = y := by
  cases y with
  | none => exact unpackY_of_even (by rw [packY_none_toNat]; omega)
  | some y =>
    have hbits := packY_some_toNat wires y
    have hch0 : (packY wires (some y)).extractLsb' 1 32 = y.ch0 := by
      apply BitVec.eq_of_toNat_eq
      rw [BitVec.extractLsb'_toNat, Nat.shiftRight_eq_div_pow, hbits]
      omega
    have hch1 : (packY wires (some y)).extractLsb' 33 32 = y.ch1 := by
      apply BitVec.eq_of_toNat_eq
      rw [BitVec.extractLsb'_toNat, Nat.shiftRight_eq_div_pow, hbits]
      omega
    rw [unpackY_of_odd (by omega), hch0, hch1]

end Sys2Proof
end

section
/-! SUPPORT. What a presented packet does in one step, and which commands read the bundle on the port (30_encoding R50, R53, R59). -/

namespace Sys2Proof.Machine

/-! ## One presented packet -/

/-- Without reset, a presented packet is its decoded command under its bundle. -/
theorem step_present_command {s : State} {c : BitVec 66} {p : BitVec 97} {rest : List HostEvent}
    (hs : s.script = .present false c p :: rest) :
    step s = .next (afterCommand (decode c) ((s.setScript rest).setInP (unpackP p))) := by
  rw [step_eq_runEvent hs, runEvent, transact_command]

theorem step_present_reset {s : State} {c : BitVec 66} {p : BitVec 97} {rest : List HostEvent}
    (hs : s.script = .present true c p :: rest) :
    step s = .next ((s.setScript rest).setInP (unpackP p)).resetBlock := by
  rw [step_eq_runEvent hs, runEvent, transact_reset]

theorem withFetchWord_script (s : State) (c : BitVec 66) :
    (s.withFetchWord 66 c.toNat).script = .present false c (packP s.inP) :: s.script := by
  rw [State.withFetchWord, setScript_script, packetEvent, Nat.mod_eq_of_lt c.isLt, BitVec.ofNat_toNat,
    BitVec.setWidth_eq]

/-- A refused event gives no next state. -/
theorem transaction_ne_hostError {s t : State} (h : step s = .next t) : s.transaction ≠ .hostError := by
  obtain ⟨hs, -⟩ | ⟨c, p, rest, hs, -⟩ | ⟨c, p, rest, hs, -⟩ | ⟨channels, rest, hs, hc, hl, -⟩ |
    ⟨channels, p, rest, hs, hc, hl, -⟩ | ⟨f, p, rest, x0, x1, hs, h0, h1, -⟩ := step_cases h
  · simp [State.transaction, hs]
  · simp [State.transaction, hs]
  · simp [State.transaction, hs]
  · simp [State.transaction, hs, hc, hl]
  · simp [State.transaction, hs, hc, hl]
  · simp [State.transaction, hs, h0, h1]

/-! ## The bundle on the port -/

/-- Only a FRAME that captures reads the bundle on the port: any other command leaves the same under every bundle. -/
theorem afterCommand_setInP {i : Instr} {s : State} (h : ∀ x0 x1, i = .frame x0 x1 → s.pos ≠ 0#7) (p : Params) :
    afterCommand i (s.setInP p) = (afterCommand i s).setInP p := by
  cases i with
  | nop => rfl
  | begin => rfl
  | frame x0 x1 =>
    have hpos := h x0 x1 rfl
    have hparams : (s.setInP p).frameParams = s.frameParams := by
      rw [frameParams_of_pos_ne_zero hpos]
      exact frameParams_of_pos_ne_zero (s := s.setInP p) hpos
    simp only [afterCommand, frameResult_eq, hparams]
    rfl
  | rsvd => rfl

theorem sameButPort_setInP (s : State) (p q : Params) : SameButPort (.next (s.setInP p)) (.next (s.setInP q)) := rfl

/-- Two packets that decode to one command that does not capture differ by the bundle on the port alone. -/
theorem sameButPort_present {s : State} {c c' : BitVec 66} (hdecode : decode c = decode c')
    (h : ∀ x0 x1, decode c = .frame x0 x1 → s.pos ≠ 0#7) (p p' : BitVec 97) (rest : List HostEvent) :
    SameButPort (step { s with script := .present false c p :: rest })
      (step { s with script := .present false c' p' :: rest }) := by
  have hstep (c : BitVec 66) (p : BitVec 97) : step { s with script := .present false c p :: rest } =
      .next (afterCommand (decode c) ((s.setScript rest).setInP (unpackP p))) := step_present_command rfl
  rw [hstep, hstep, ← hdecode, afterCommand_setInP (s := s.setScript rest) h,
    afterCommand_setInP (s := s.setScript rest) h]
  exact sameButPort_setInP _ _ _

/-! ## The output port -/

theorem afterCommand_out_isSome_iff (i : Instr) (s : State) :
    (afterCommand i s).out.isSome = true ↔ ∃ x0 x1, i = .frame x0 x1 := by
  cases i <;> simp [afterCommand]

end Sys2Proof.Machine
end

section
/-! SUPPORT. The lines a directive stands for (30_encoding R68). -/

namespace Sys2Proof.Machine

/-- FRAME lines are presented in order, all under the bundle that stands before them. -/
theorem assembleLines_frames (p : Params) (fs : List Frame) (ls : List AsmLine) :
    assembleLines p (fs.map (fun f => AsmLine.frame f.ch0 f.ch1) ++ ls) =
      (fs.map fun f => presentInstr p (.frame f.ch0 f.ch1)) ++ assembleLines p ls := by
  induction fs with
  | nil => rfl
  | cons f fs ih => exact congrArg (presentInstr p (.frame f.ch0 f.ch1) :: ·) ih

/-- `BUFFER` is BEGIN and then one FRAME per frame. -/
theorem assembleLines_buffer (p : Params) (fs : List Frame) (ls : List AsmLine) :
    assembleLines p (.buffer fs :: ls) =
      assembleLines p (.begin :: (fs.map (fun f => AsmLine.frame f.ch0 f.ch1) ++ ls)) :=
  (congrArg (presentInstr p .begin :: ·) (assembleLines_frames p fs ls)).symm

theorem expand_rept_succ (n : Nat) (body : List AsmLine) :
    (AsmItem.rept (n + 1) body).expand = body ++ (AsmItem.rept n body).expand := by
  rw [AsmItem.expand, AsmItem.expand, List.replicate_succ, List.flatten_cons]

end Sys2Proof.Machine
end

section
/-! The obligations about the formats, the command map and what a presented packet does (30_encoding). -/

namespace Sys2Proof.Machine

/-- Settles O4: the packet of a command carries its code and operands, and the decoder reads the code and, for FRAME, every bit. -/
theorem decodeEncodeAgree : Obligations.DecodeEncodeAgree :=
  ⟨fun i _ => ⟨decode_encode i, by rw [decodeTableWord_packet, decode_encode]⟩, decode_eq_decode_iff⟩

/-- Settles O1: a field's position is a division and a remainder of the packed number. -/
theorem formatFieldPositions : Obligations.FormatFieldPositions := by
  refine ⟨fun c => ⟨packetCmd_toNat c, packetX0_toNat c, packetX1_toNat c⟩, fun x0 x1 => ?_, packP_toNat, unpackP_packP,
    packP_unpackP, packY_some_toNat, fun wires => ?_, unpackY_packY⟩
  · rw [encode_frame_toNat]
    omega
  · rw [packY_none_toNat]
    omega

/-- Settles O2: a row's mask selects the code, and mnemonics name codes one to one. -/
theorem commandMapIsTheOpcodeTable : Obligations.CommandMapIsTheOpcodeTable :=
  ⟨fun c _ hr => matchesPacket_iff_mnemonic hr c, exists_row_of_packet, fun _ => decode_of_cmd_nop,
    fun _ => decode_of_cmd_begin, fun _ => decode_of_cmd_frame, fun _ => decode_of_cmd_rsvd⟩

/-- Settles O5: of a packet that is no FRAME only the code is read, and the bundle only by a FRAME that captures. -/
theorem unreadFieldsAreDontCare : Obligations.UnreadFieldsAreDontCare := by
  refine ⟨fun s c c' p p' rest hcmd hnotFrame => ?_, fun s c p p' rest _ hpos => ?_, fun s c c' p p' rest => ?_⟩
  · exact sameButPort_present (decode_congr_of_not_frame hcmd hnotFrame)
      (fun x0 x1 h => absurd (packetCmd_of_decode_frame h) hnotFrame) p p' rest
  · exact sameButPort_present rfl (fun _ _ _ => hpos) p p' rest
  · rw [step_present_reset rfl, step_present_reset rfl]
    exact sameButPort_setInP (s.setScript rest).resetBlock (unpackP p) (unpackP p')

/-- Settles O20: of all that a step can run, only FRAME puts samples on the output port. -/
theorem outputIsValidExactlyAfterFrame : Obligations.OutputIsValidExactlyAfterFrame := by
  intro s t h hidle
  have herror := transaction_ne_hostError h
  obtain ⟨b, rfl⟩ := step_eq_afterTransaction h
  rw [setBuf_out]
  cases htr : s.transaction with
  | idle => exact absurd htr hidle
  | reset => simp [afterTransaction]
  | command i => simpa [afterTransaction] using afterCommand_out_isSome_iff i _
  | hostError => exact absurd htr herror

/-- Settles O6: each directive is an equation of `assembleLines` or `AsmItem.expand`; `BUFFER` by induction on its frames. -/
theorem assemblerDirectivesExpand : Obligations.AssemblerDirectivesExpand :=
  ⟨fun _ _ _ _ _ _ => rfl, ⟨encode .nop, fun _ _ => rfl⟩, fun _ => rfl, assembleLines_buffer, fun _ => rfl,
    expand_rept_succ⟩

/-- Settles O8: reset writes the five registers and the ports, whatever the packet. -/
theorem resetTransactionResetsBlock : Obligations.ResetTransactionResetsBlock :=
  ⟨fun _ _ _ _ hs => step_present_reset hs, rfl, rfl, rfl⟩

/-- Settles O11: the reserved code runs as NOP, which writes the output port only. -/
theorem nopAndReservedChangeNothing : Obligations.NopAndReservedChangeNothing :=
  fun s => ⟨exec_nop_eq s, exec_rsvd_eq s, (exec_rsvd_eq s).trans (exec_nop_eq s).symm⟩

/-- Settles O17: a presented packet is its command; a word placed by `withFetchWord` is one presented under the bundle that stands. -/
theorem stepRunsTheDecodedCommand : Obligations.StepRunsTheDecodedCommand := by
  refine ⟨fun s c p rest hs => ?_, fun s i => ?_, fun s ch0 ch1 p rest hs hlen => ?_, fun s ch0 ch1 rest hs hlen => ?_,
    fun s hs => ?_⟩
  · rw [step_present_command hs, exec_eq_next]
    rfl
  · have hstate : ((s.withFetchWord 66 (encode i).toNat).setScript s.script).setInP s.inP = s := rfl
    rw [step_present_command (withFetchWord_script s (encode i)), decode_encode, unpackP_packP, hstate, exec_eq_next]
  · rw [step_eq_runEvent hs, runEvent, runCallback, supplyBuffer_pair ch0 ch1 _ hlen]
    simp only [transact_command, decode_encode]
    rfl
  · rw [step_eq_runEvent hs, runEvent]
    exact supplyBuffer_pair ch0 ch1 _ hlen
  · simp only [step, hostStep, hs, State.idle]

end Sys2Proof.Machine
end

section
/-! SUPPORT. Which snapshot a FRAME leaves, and that a run of FRAMEs inside a sub-block leaves the one held (40_parameter_sampler
R75, R76). -/

namespace Sys2Proof.Machine

/-! ## The snapshot of a FRAME -/

@[simp] theorem snapshot_afterCommand_frame (x0 x1 : Word) (s : State) :
    (afterCommand (.frame x0 x1) s).snapshot = s.frameParams := rfl

@[simp] theorem out_afterCommand_frame (x0 x1 : Word) (s : State) :
    (afterCommand (.frame x0 x1) s).out = some (outputsOf s.cfg.subnormal s.draws x0 x1 s.frameParams) := rfl

/-! ## Runs -/

/-- A run of one more step is that step on what the run before it left. -/
theorem run_succ_of_run {M : Host.Core} {k : Nat} {s u : M.State} (h : M.run k s = .next u) :
    M.run (k + 1) s = M.step u := by
  induction k generalizing s with
  | zero =>
    obtain rfl : s = u := Host.Outcome.next.inj h
    rw [Host.Core.run]
    cases M.step s <;> rfl
  | succ k ih =>
    rw [Host.Core.run] at h ⊢
    split at h
    · exact ih h
    · cases h
    · cases h

/-! ## FRAMEs inside a sub-block -/

/-- The host presents a FRAME packet without reset, under any bundle. -/
def HostEvent.IsFramePacket (e : HostEvent) : Prop :=
  ∃ (c : BitVec 66) (p : BitVec 97) (x0 x1 : Word), e = .present false c p ∧ decode c = .frame x0 x1

/-- Away from `POS = 0` a presented FRAME keeps the snapshot, advances `POS` and passes the buffer by. -/
theorem step_framePacket {s : State} {e : HostEvent} {rest : List HostEvent} (he : e.IsFramePacket)
    (hs : s.script = e :: rest) (hpos : s.pos ≠ 0#7) :
    ∃ t : State, step s = .next t ∧ t.snapshot = s.snapshot ∧ t.script = rest ∧ t.buf = s.buf ∧ t.pos = s.pos + 1#7 := by
  obtain ⟨c, p, x0, x1, rfl, hc⟩ := he
  refine ⟨_, step_present_command hs, ?_⟩
  rw [hc, snapshot_afterCommand_frame]
  exact ⟨frameParams_of_pos_ne_zero (s := (s.setScript rest).setInP (unpackP p)) hpos, rfl, rfl, rfl⟩

/-- After `k` advances that stay inside the sub-block, `POS` is not 0. -/
theorem pos_ne_zero_of_toNat {a b : BitVec 7} {k : Nat} (ha : a ≠ 0#7) (hb : b.toNat = (a.toNat + k) % 128)
    (hk : a.toNat + k < 128) : b ≠ 0#7 := by
  bv_omega

/-- What the first `k` FRAMEs left of a sub-block leave, by induction on `k`: up to the last, none of them is at `POS = 0`. -/
theorem run_framePackets {s : State} {es rest : List HostEvent} (hes : ∀ e ∈ es, e.IsFramePacket) (hpos : s.pos ≠ 0#7)
    (hlen : s.pos.toNat + es.length ≤ 128) (hs : s.script = es ++ rest) {k : Nat} (hk : k ≤ es.length) :
    ∃ t : State, core.run k s = .next t ∧ t.snapshot = s.snapshot ∧ t.script = es.drop k ++ rest ∧ t.buf = s.buf ∧
      t.pos.toNat = (s.pos.toNat + k) % 128 := by
  induction k with
  | zero => exact ⟨s, rfl, rfl, hs, rfl, (Nat.mod_eq_of_lt s.pos.isLt).symm⟩
  | succ k ih =>
    obtain ⟨u, hrun, hsnap, hscript, hbuf, hupos⟩ := ih (Nat.le_of_succ_le hk)
    rw [List.drop_eq_getElem_cons hk] at hscript
    obtain ⟨t, hstep, htsnap, htscript, htbuf, htpos⟩ := step_framePacket (hes _ (List.getElem_mem hk)) hscript
      (pos_ne_zero_of_toNat hpos hupos (by omega))
    refine ⟨t, (run_succ_of_run hrun).trans hstep, htsnap.trans hsnap, htscript, htbuf.trans hbuf, ?_⟩
    rw [htpos, pos_add_one_toNat, hupos]
    omega

end Sys2Proof.Machine
end

section
/-! SUPPORT. The words of the declared ranges (40_parameter_sampler R69, R71): they are ordered as their values are. -/

namespace Sys2Proof.Machine

theorem inContract_iff (p : Params) :
    p.inContract = true ↔ p.wet.toNat ≤ fOne.toNat ∧ p.add.toNat ≤ f4M.toNat ∧
      fOne.toNat ≤ p.mult.toNat ∧ p.mult.toNat ≤ f1024.toNat := by
  simp only [Params.inContract, Bool.and_eq_true, decide_eq_true_eq, and_assoc]

/-- The value of a word without sign is the unit count of its bits. -/
theorem value32_of_toNat_lt {w : Word} (h : w.toNat < 2 ^ 31) : value32 w = (bitsUnits w.toNat : Rat) / 2 ^ 149 := by
  have hsign : signBit w = false := by rw [signBit_eq, decide_eq_false_iff_not]; omega
  have hbits : magBits w = w.toNat := by rw [magBits, expField_eq, fracField_eq]; omega
  rw [value32_eq_sign_mul_magUnits, hsign, magUnits_eq_bitsUnits, hbits]
  simp

/-- Words without sign are ordered as their values are. -/
theorem value32_le_of_toNat_le {a b : Word} (hab : a.toNat ≤ b.toNat) (hb : b.toNat < 2 ^ 31) :
    value32 a ≤ value32 b := by
  rw [value32_of_toNat_lt (by omega), value32_of_toNat_lt hb]
  gcongr
  exact bitsUnits_strictMono.monotone hab

/-- From 1 to 1024 the exponent field is that of a normal word. -/
theorem expField_mult_of_inContract {p : Params} (h : p.inContract = true) :
    127 ≤ expField p.mult ∧ expField p.mult ≤ 137 := by
  obtain ⟨-, -, hlo, hhi⟩ := (inContract_iff p).mp h
  simp only [BitVec.toNat_ofNat] at hlo hhi
  rw [expField_eq]
  omega

/-- A word of nonzero exponent field is no zero, nor read as one. -/
theorem isZero32_condition_of_expField_ne_zero (m : SubnormalMode) {w : Word} (h : expField w ≠ 0) :
    isZero32 (condition m w) = false := by
  rw [condition_of_not_subnormal m (by simp [isSubnormal32, h])]
  simp [isZero32, h]

end Sys2Proof.Machine
end

section
/-! The obligations about the parameter sampler: capture, hold, and the contract (40_parameter_sampler). -/

namespace Sys2Proof.Machine

/-- Settles O12: BEGIN writes `POS` and the output port, and at `POS = 0` the FRAME captures. -/
theorem beginStartsSubBlock : Obligations.BeginStartsSubBlock :=
  fun s => ⟨exec_begin_eq s, exec_begin_eq _, frameParams_of_pos_zero rfl⟩

/-- Settles O13: FRAME stores and computes with one snapshot, the bundle's at `POS = 0` and the held one elsewhere, where the
bundle is not read. -/
theorem frameSelectsSnapshot : Obligations.FrameSelectsSnapshot := by
  refine fun s x0 x1 => ⟨fun hpos => ?_, fun hpos => ?_⟩
  · refine ⟨_, exec_eq_next _ s, ?_, ?_⟩
    · rw [snapshot_afterCommand_frame, frameParams_of_pos_zero hpos]
    · rw [out_afterCommand_frame, frameParams_of_pos_zero hpos]
  · refine ⟨_, exec_eq_next _ s, ?_, ?_, fun q => ?_⟩
    · rw [snapshot_afterCommand_frame, frameParams_of_pos_ne_zero hpos]
    · rw [out_afterCommand_frame, frameParams_of_pos_ne_zero hpos]
    · rw [exec_eq_next, afterCommand_setInP fun _ _ _ => hpos]

/-- Settles O19: of all transactions only reset and FRAME write the registers, and FRAME writes the snapshot it uses. -/
theorem snapshotHasTwoWriters : Obligations.SnapshotHasTwoWriters := by
  intro s t h
  obtain ⟨b, rfl⟩ := step_eq_afterTransaction h
  rw [setBuf_snapshot]
  cases s.transaction with
  | idle => rfl
  | reset => rfl
  | command i =>
    cases i with
    | nop => rfl
    | begin => rfl
    | frame x0 x1 => exact snapshot_afterCommand_frame x0 x1 ((s.setScript s.script.tail).setInP s.nextP)
    | rsvd => rfl
  | hostError => rfl

/-- Settles O28: before each of the FRAMEs `POS` is not 0, so none of them captures. -/
theorem snapshotHeldThroughSubBlock : Obligations.SnapshotHeldThroughSubBlock := by
  refine fun s es rest hes hpos hlen hs => ⟨fun k hk => ?_, ?_⟩
  · obtain ⟨u, hrun, hsnap, -, -, hupos⟩ := run_framePackets hes hpos hlen hs hk.le
    refine ⟨u, hrun, ?_⟩
    rw [frameParams_of_pos_ne_zero (pos_ne_zero_of_toNat hpos hupos (by omega)), hsnap]
  · simpa using run_framePackets hes hpos hlen hs le_rfl

/-- Settles O40: the words from `F_ONE` to `F_1024` are normal, and ordered as their values are. -/
theorem contractExcludesDivisionByZero : Obligations.ContractExcludesDivisionByZero := by
  intro m p hp
  obtain ⟨-, -, hlo, hhi⟩ := (inContract_iff p).mp hp
  obtain ⟨hexplo, hexphi⟩ := expField_mult_of_inContract hp
  obtain ⟨⟨-, -, hOne, -, -, h1024, -⟩, -⟩ := namedWordsAndClassTests
  have hfin : isFinite32 p.mult = true := (isFinite32_iff _).mpr (by omega)
  refine ⟨hfin, (not_nan_inf_of_finite hfin).left, ?_, ?_, isZero32_condition_of_expField_ne_zero m (by omega)⟩
  · rw [← hOne]
    exact value32_le_of_toNat_le hlo (hhi.trans_lt (by decide))
  · rw [← h1024]
    exact value32_le_of_toNat_le hhi (by decide)

end Sys2Proof.Machine
end

section
/-! SUPPORT. Words and values: negation, input conditioning, the grid a value lies on, and which numbers are values of finite
words (00_scope R12, R16). -/

namespace Sys2Proof.Machine

theorem value32_fOne : value32 fOne = 1 := by
  obtain ⟨⟨-, -, h, -⟩, -⟩ := namedWordsAndClassTests
  exact h

theorem value32_fNegOne : value32 fNegOne = -1 := by
  obtain ⟨⟨-, -, -, h, -⟩, -⟩ := namedWordsAndClassTests
  exact h

theorem value32_fMax : value32 fMax = (2 - 1 / 2 ^ 23) * 2 ^ 127 := by
  obtain ⟨⟨-, -, -, -, h, -⟩, -⟩ := namedWordsAndClassTests
  exact h

theorem value32_f1024 : value32 f1024 = 1024 := by
  obtain ⟨⟨-, -, -, -, -, h, -⟩, -⟩ := namedWordsAndClassTests
  exact h

theorem value32_f4M : value32 f4M = 2 ^ 22 := by
  obtain ⟨⟨-, -, -, -, -, -, h⟩, -⟩ := namedWordsAndClassTests
  rw [h]
  norm_num

theorem value32_eq_zero_iff (w : Word) : value32 w = 0 ↔ isZero32 w = true := by
  rw [value32_eq_units, div_eq_zero_iff, or_iff_left (by positivity), Int.cast_eq_zero, units_eq_zero_iff]

theorem value32_of_isZero32 {w : Word} (h : isZero32 w = true) : value32 w = 0 := (value32_eq_zero_iff w).mpr h

theorem value32_ne_zero {w : Word} (h : isZero32 w = false) : value32 w ≠ 0 := by
  rw [ne_eq, value32_eq_zero_iff, h]
  exact Bool.false_ne_true

/-! ## Negation -/

@[simp] theorem isFinite32_negate (w : Word) : isFinite32 (negate w) = isFinite32 w := by simp [isFinite32]
@[simp] theorem isInf32_negate (w : Word) : isInf32 (negate w) = isInf32 w := by simp [isInf32]

@[simp] theorem value32_negate (w : Word) : value32 (negate w) = -value32 w := by
  have hmag : magUnits (negate w) = magUnits w := by simp [magUnits]
  rw [value32_eq_sign_mul_magUnits, value32_eq_sign_mul_magUnits, hmag, signBit_negate]
  cases signBit w <;> simp [neg_div]

theorem abs_value32_le_fMax {w : Word} (h : isFinite32 w = true) : |value32 w| ≤ value32 fMax := by
  have hneg := value32_le_fMax (w := negate w) (by rwa [isFinite32_negate])
  rw [value32_negate] at hneg
  exact abs_le.mpr ⟨neg_le.mp hneg, value32_le_fMax h⟩

@[simp] theorem condition_negate (m : SubnormalMode) (w : Word) : condition m (negate w) = negate (condition m w) := by
  cases m with
  | ieee => rfl
  | ftzDaz =>
    simp only [condition, isSubnormal32_negate, signBit_negate, apply_ite negate, negate_zeroOf]

/-! ## Conditioning and values -/

theorem condition_of_isZero32 (m : SubnormalMode) {w : Word} (h : isZero32 w = true) : condition m w = w :=
  condition_of_not_subnormal m (by simp_all [isZero32, isSubnormal32])

theorem condition_of_isInf32 (m : SubnormalMode) {w : Word} (h : isInf32 w = true) : condition m w = w :=
  condition_of_not_subnormal m (by simp_all [isInf32, isSubnormal32])

/-- Exactly the zeros and the subnormal words have a magnitude below 2^-126. -/
theorem expField_eq_zero_iff (w : Word) : expField w = 0 ↔ |value32 w| < 1 / 2 ^ 126 := by
  have hf := fracField_lt w
  have hbits : expField w = 0 ↔ magBits w < 2 ^ 23 := by unfold magBits; omega
  have hpow : bitsUnits (2 ^ 23) = 2 ^ 23 := bitsUnits_spacings (k := 0) (q := 2 ^ 23) (by omega) (by omega)
  rw [hbits, ← bitsUnits_strictMono.lt_iff_lt, hpow, ← magUnits_eq_bitsUnits, abs_value32, div_lt_iff₀ (by positivity),
    show (1 : Rat) / 2 ^ 126 * 2 ^ 149 = (2 ^ 23 : Nat) by norm_num, Nat.cast_lt]

theorem abs_value32_lt_of_subnormal {w : Word} (h : isSubnormal32 w = true) : |value32 w| < 1 / 2 ^ 126 := by
  obtain ⟨he, -⟩ := (isSubnormal32_iff w).mp h
  exact (expField_eq_zero_iff w).mp he

/-- A word of magnitude 2^-126 or more is read as it is. -/
theorem condition_of_le_abs (m : SubnormalMode) {w : Word} (h : 1 / 2 ^ 126 ≤ |value32 w|) : condition m w = w :=
  condition_of_not_subnormal m (Bool.eq_false_iff.mpr fun hs => absurd (abs_value32_lt_of_subnormal hs) (not_lt.mpr h))

/-- A word reads as its own value, or is a subnormal read as 0. -/
theorem value32_condition_cases (m : SubnormalMode) (w : Word) :
    value32 (condition m w) = value32 w ∨
      (m = .ftzDaz ∧ |value32 w| < 1 / 2 ^ 126 ∧ value32 (condition m w) = 0) := by
  obtain h | ⟨hm, hs, h⟩ := condition_cases m w
  · exact .inl (by rw [h])
  · exact .inr ⟨hm, abs_value32_lt_of_subnormal hs, by rw [h, value32_of_isZero32 (isZero32_zeroOf _)]⟩

/-- FTZ_DAZ reads no subnormal as it is. -/
theorem le_abs_of_condition_eq {w : Word} (h : condition .ftzDaz w = w) (hne : value32 w ≠ 0) :
    1 / 2 ^ 126 ≤ |value32 w| := by
  rw [ne_eq, value32_eq_zero_iff, isZero32_iff, not_and] at hne
  by_contra hlt
  have he := (expField_eq_zero_iff w).mpr (not_le.mp hlt)
  rw [condition, if_pos ((isSubnormal32_iff w).mpr ⟨he, hne he⟩)] at h
  exact hne he ((isZero32_iff w).mp (h ▸ isZero32_zeroOf _)).right

theorem abs_value32_condition_le (m : SubnormalMode) (w : Word) : |value32 (condition m w)| ≤ |value32 w| := by
  obtain h | ⟨-, -, h⟩ := value32_condition_cases m w
  · rw [h]
  · rw [h, abs_zero]
    exact abs_nonneg _

/-! ## The grid of a value -/

theorem exists_spacing (w : Word) :
    ∃ k q, magUnits w = q * 2 ^ k ∧ q < 2 ^ 24 ∧ (k = 0 ∨ 2 ^ 23 ≤ q) := by
  have hf := fracField_lt w
  rw [magUnits]
  split
  · exact ⟨0, fracField w, by simp, by omega, .inl rfl⟩
  · exact ⟨expField w - 1, 2 ^ 23 + fracField w, rfl, by omega, .inr (by omega)⟩

/-- From `2^(j+23)` units on, magnitudes are multiples of `2^j` units. -/
theorem pow_dvd_magUnits {w : Word} {j : Nat} (h : 2 ^ (j + 23) ≤ magUnits w) : 2 ^ j ∣ magUnits w := by
  obtain ⟨k, q, hmag, hq, -⟩ := exists_spacing w
  have hlt : 2 ^ (j + 23) < 2 ^ (k + 24) :=
    calc 2 ^ (j + 23) ≤ q * 2 ^ k := hmag ▸ h
      _ < 2 ^ 24 * 2 ^ k := Nat.mul_lt_mul_of_pos_right hq (by positivity)
      _ = 2 ^ (k + 24) := by ring
  have hjk : j ≤ k := by
    have := (Nat.pow_lt_pow_iff_right (by decide : 1 < 2)).mp hlt
    omega
  rw [hmag]
  exact (pow_dvd_pow 2 hjk).mul_left q

/-- The spacing of the words of magnitude `2^(j+23)` units or more (R87's grids). -/
theorem exists_grid_multiple {w : Word} (j : Nat) (h : (2 : Rat) ^ (j + 23) / 2 ^ 149 ≤ |value32 w|) :
    ∃ k : Int, value32 w = k * (2 ^ j / 2 ^ 149) := by
  rw [abs_value32, div_le_div_iff_of_pos_right (by positivity)] at h
  obtain ⟨c, hc⟩ := pow_dvd_magUnits (w := w) (j := j) (by exact_mod_cast h)
  refine ⟨(if signBit w then -1 else 1) * c, ?_⟩
  rw [value32_eq_sign_mul_magUnits, hc]
  push_cast
  ring

/-! ## The values of finite words -/

theorem bitsUnits_inf : bitsUnits (255 * 2 ^ 23) = 2 ^ 277 := by
  rw [show 255 * 2 ^ 23 = 254 * 2 ^ 23 + 2 ^ 23 from rfl, bitsUnits_spacings (by omega) (by omega), ← pow_add]

theorem magUnits_lt {w : Word} (h : isFinite32 w = true) : magUnits w < 2 ^ 277 := by
  rw [magUnits_eq_bitsUnits, ← bitsUnits_inf, bitsUnits_strictMono.lt_iff_lt]
  exact (isFinite32_iff_magBits_lt w).mp h

/-- A count of at most 24 bits, times any power of two, is a magnitude: doubling it until it has 24 bits. -/
theorem exists_bitsUnits_eq (k : Nat) : ∀ {q : Nat}, q ≤ 2 ^ 24 → ∃ c, bitsUnits c = q * 2 ^ k := by
  induction k with
  | zero => exact fun {q} hq => ⟨0 * 2 ^ 23 + q, bitsUnits_spacings hq (.inl rfl)⟩
  | succ k ih =>
    intro q hq
    by_cases hlow : q < 2 ^ 23
    · obtain ⟨c, hc⟩ := ih (q := 2 * q) (by omega)
      exact ⟨c, by rw [hc]; ring⟩
    · exact ⟨(k + 1) * 2 ^ 23 + q, bitsUnits_spacings hq (.inr (by omega))⟩

/-- A signed count of at most 24 bits, times `2^k` units, is the value of a finite word unless it is too large for one. -/
theorem exists_word_of_units {z : Int} {k : Nat} (hz : z.natAbs ≤ 2 ^ 24) (hlt : z.natAbs * 2 ^ k < 2 ^ 277) :
    ∃ w, isFinite32 w = true ∧ value32 w = z * 2 ^ k / 2 ^ 149 := by
  obtain ⟨c, hc⟩ := exists_bitsUnits_eq k hz
  have hfin : c < 255 * 2 ^ 23 := by rwa [← bitsUnits_strictMono.lt_iff_lt, bitsUnits_inf, hc]
  have hbits : magBits (mkWord (decide (z < 0)) c) = c := magBits_mkWord _ (by omega)
  refine ⟨mkWord (decide (z < 0)) c, by rwa [isFinite32_iff_magBits_lt, hbits], ?_⟩
  rw [value32_eq_sign_mul_magUnits, magUnits_eq_bitsUnits, hbits, hc, signBit_mkWord]
  have hsign : (if decide (z < 0) then -1 else 1) * (z.natAbs : Rat) = z := by
    by_cases hneg : z < 0
    · simp [hneg, abs_of_neg]
    · simp [hneg, abs_of_nonneg (not_lt.mp hneg)]
  rw [Nat.cast_mul, ← mul_assoc, hsign]
  push_cast
  rfl

/-- Two magnitudes within a factor of two: their difference is a count of at most 24 bits on the grid of the smaller. -/
theorem exists_sub_magUnits {x y : Word} (hle : magUnits y ≤ magUnits x) (h2 : magUnits x ≤ 2 * magUnits y) :
    ∃ k q, q ≤ 2 ^ 24 ∧ magUnits x = magUnits y + q * 2 ^ k ∧ q * 2 ^ k ≤ magUnits y := by
  obtain ⟨k, q, hy, hq, hk⟩ := exists_spacing y
  have hdvd : 2 ^ k ∣ magUnits x := by
    obtain rfl | hq23 := hk
    · exact one_dvd _
    · refine pow_dvd_magUnits ?_
      calc 2 ^ (k + 23) = 2 ^ 23 * 2 ^ k := by ring
        _ ≤ q * 2 ^ k := Nat.mul_le_mul_right _ hq23
        _ ≤ magUnits x := hy ▸ hle
  obtain ⟨c, hx⟩ := dvd_iff_exists_eq_mul_left.mp hdvd
  rw [hx, hy] at hle
  rw [hx, hy, ← mul_assoc] at h2
  have hqc : q ≤ c := Nat.le_of_mul_le_mul_right hle (by positivity)
  have hc2 : c ≤ 2 * q := Nat.le_of_mul_le_mul_right h2 (by positivity)
  obtain ⟨e, rfl⟩ := Nat.exists_eq_add_of_le hqc
  refine ⟨k, e, by omega, by rw [hx, hy]; ring, ?_⟩
  rw [hy]
  exact Nat.mul_le_mul_right _ (by omega)

/-- The exact-subtraction property (R88): the difference of two finite values within a factor of two is a value. -/
theorem exists_word_sub {a b : Word} (ha : isFinite32 a = true) (hb : isFinite32 b = true)
    (hlo : value32 a / 2 ≤ value32 b) (hhi : value32 b ≤ 2 * value32 a) :
    ∃ d, isFinite32 d = true ∧ value32 d = value32 b - value32 a := by
  have ha0 : 0 ≤ value32 a := by linarith
  have hb0 : 0 ≤ value32 b := by linarith
  have hmag {w : Word} (hw : 0 ≤ value32 w) : value32 w = (magUnits w : Rat) / 2 ^ 149 := by
    rw [← abs_value32, abs_of_nonneg hw]
  have hle {c d : Nat} : (c : Rat) / 2 ^ 149 ≤ (d : Rat) / 2 ^ 149 ↔ c ≤ d := by
    rw [div_le_div_iff_of_pos_right (by positivity), Nat.cast_le]
  have hdouble (c : Nat) : 2 * ((c : Rat) / 2 ^ 149) = ((2 * c : Nat) : Rat) / 2 ^ 149 := by push_cast; ring
  rw [div_le_iff₀' two_pos] at hlo
  rw [hmag ha0, hmag hb0] at hlo hhi ⊢
  rw [hdouble, hle] at hlo hhi
  obtain hab | hba := le_total (magUnits a) (magUnits b)
  · obtain ⟨k, q, hq, hb', hqa⟩ := exists_sub_magUnits hab hhi
    obtain ⟨d, hd, hval⟩ := exists_word_of_units (z := q) (k := k) hq (hqa.trans_lt (magUnits_lt ha))
    refine ⟨d, hd, ?_⟩
    rw [hval, hb']
    push_cast
    ring
  · obtain ⟨k, q, hq, ha', hqb⟩ := exists_sub_magUnits hba hlo
    obtain ⟨d, hd, hval⟩ := exists_word_of_units (z := q) (k := k) hq (hqb.trans_lt (magUnits_lt hb))
    refine ⟨negate d, by rwa [isFinite32_negate], ?_⟩
    rw [value32_negate, hval, ha']
    push_cast
    ring

end Sys2Proof.Machine
end

section
/-! SUPPORT. A rounding below the overflow threshold (00_scope R15): it is a finite word, keeps the order of the values the mode
can read, and keeps those values themselves. -/

namespace Sys2Proof.Machine

/-- `w` is what the mode makes of a finite word nearest to `r`: what a primitive answers for an exact result `r`, zero included,
below the overflow threshold. -/
def RoundsInRange (m : SubnormalMode) (r : Rat) (w : Word) : Prop :=
  ∃ v, isFinite32 v = true ∧ w = condition m v ∧
    ∀ u, isFinite32 u = true → |r - value32 v| ≤ |r - value32 u|

/-! ## Rounding a value -/

theorem abs_value32_lt_threshold {w : Word} (h : isFinite32 w = true) : |value32 w| < 2 ^ 128 - 2 ^ 103 := by
  have hmax := abs_value32_le_fMax h
  rw [value32_fMax] at hmax
  linarith

theorem signBit_eq_decide_value32 {w : Word} (h : isZero32 w = false) : signBit w = decide (value32 w < 0) := by
  have hpos := magUnits_pos h
  have hneg : decide (value32 w < 0) = decide (units w < 0) := by
    rw [decide_eq_decide, value32_eq_units, div_lt_iff₀ (by positivity), zero_mul, Int.cast_lt_zero]
  rw [hneg, units]
  cases signBit w
  · simp
  · simp
    omega

theorem isNearestEven_value32 {v : Word} (hv : isFinite32 v = true) (hz : isZero32 v = false) :
    IsNearestEven (value32 v) v := by
  refine ⟨hv, signBit_eq_decide_value32 hz, fun u _ => ?_⟩
  rw [sub_self, abs_zero]
  exact ⟨abs_nonneg _, fun h hne => absurd (sub_eq_zero.mp (abs_eq_zero.mp h)).symm hne⟩

/-- A value rounds to its own word, as the mode reads it. -/
theorem eq_condition_of_rounds {m : SubnormalMode} {v w : Word} (hv : isFinite32 v = true) (hz : isZero32 v = false)
    (h : Rounds m (value32 v) w) : w = condition m v := by
  refine rounds_unique h ?_
  rw [Rounds, if_neg (not_le.mpr (abs_value32_lt_threshold hv))]
  refine ⟨v, isNearestEven_value32 hv hz, ?_⟩
  cases m <;> simp [condition]

theorem Rounds.inRange {m : SubnormalMode} {r : Rat} {w : Word} (h : Rounds m r w) (hr : |r| < 2 ^ 128 - 2 ^ 103) :
    RoundsInRange m r w := by
  rw [Rounds, if_neg (not_le.mpr hr)] at h
  obtain ⟨v, ⟨hfin, -, hmin⟩, rfl⟩ := h
  refine ⟨v, hfin, ?_, fun u hu => (hmin u hu).left⟩
  cases m <;> simp [condition]

theorem roundsInRange_zero (m : SubnormalMode) {w : Word} (h : isZero32 w = true) : RoundsInRange m 0 w := by
  refine ⟨w, isFinite32_of_isZero32 h, (condition_of_isZero32 m h).symm, fun u _ => ?_⟩
  rw [value32_of_isZero32 h, sub_zero, abs_zero]
  exact abs_nonneg _

/-! ## What a rounding keeps -/

namespace RoundsInRange

variable {m : SubnormalMode} {r : Rat} {w b : Word}

theorem finite (h : RoundsInRange m r w) : isFinite32 w = true := by
  obtain ⟨v, hfin, rfl, -⟩ := h
  rwa [isFinite32_condition]

theorem condition_eq (h : RoundsInRange m r w) : condition m w = w := by
  obtain ⟨v, -, rfl, -⟩ := h
  exact condition_condition m v

theorem neg (h : RoundsInRange m r w) : RoundsInRange m (-r) (negate w) := by
  obtain ⟨v, hfin, rfl, hmin⟩ := h
  refine ⟨negate v, by rwa [isFinite32_negate], (condition_negate m v).symm, fun u hu => ?_⟩
  have hflip (x : Word) : |-r - value32 x| = |r - value32 (negate x)| := by
    rw [value32_negate, ← abs_neg, neg_sub, sub_neg_eq_add, sub_neg_eq_add, add_comm]
  rw [hflip, hflip, value32_negate, value32_negate, neg_neg]
  exact hmin (negate u) (by rwa [isFinite32_negate])

/-- A number up to a value the mode reads as it is rounds to no more than it. -/
theorem le_of_le (h : RoundsInRange m r w) (hb : isFinite32 b = true) (hread : condition m b = b)
    (hle : r ≤ value32 b) : value32 w ≤ value32 b := by
  obtain ⟨v, hfin, rfl, hmin⟩ := h
  have hv : value32 v ≤ value32 b := by
    by_contra hlt
    have := hmin b hb
    rw [abs_sub_comm, abs_of_nonneg (by linarith), abs_sub_comm, abs_of_nonneg (by linarith)] at this
    linarith
  obtain h | ⟨rfl, hsmall, h⟩ := value32_condition_cases m v
  · rwa [h]
  · rw [h]
    by_contra hneg
    have hbig := le_abs_of_condition_eq hread (by linarith)
    rw [abs_of_neg (not_le.mp hneg)] at hbig
    linarith [neg_abs_le (value32 v)]

theorem ge_of_ge (h : RoundsInRange m r w) (hb : isFinite32 b = true) (hread : condition m b = b)
    (hle : value32 b ≤ r) : value32 b ≤ value32 w := by
  have := h.neg.le_of_le (b := negate b) (by rwa [isFinite32_negate]) (by rw [condition_negate, hread])
    (by rwa [value32_negate, neg_le_neg_iff])
  rwa [value32_negate, value32_negate, neg_le_neg_iff] at this

theorem abs_le_of_abs_le (h : RoundsInRange m r w) (hb : isFinite32 b = true) (hread : condition m b = b)
    (hle : |r| ≤ value32 b) : |value32 w| ≤ value32 b := by
  obtain ⟨hlo, hhi⟩ := abs_le.mp hle
  have := h.ge_of_ge (b := negate b) (by rwa [isFinite32_negate]) (by rw [condition_negate, hread])
    (by rwa [value32_negate])
  rw [value32_negate] at this
  exact abs_le.mpr ⟨this, h.le_of_le hb hread hhi⟩

/-- A rounding that is not flushed is as near as any finite word. -/
theorem abs_sub_le (h : RoundsInRange m r w) (hne : value32 w ≠ 0) {u : Word} (hu : isFinite32 u = true) :
    |r - value32 w| ≤ |r - value32 u| := by
  obtain ⟨v, -, rfl, hmin⟩ := h
  obtain hv | ⟨-, -, hv⟩ := value32_condition_cases m v
  · rw [hv]
    exact hmin u hu
  · exact absurd hv hne

/-- An exact result that is a value is answered as it is, but that FTZ_DAZ flushes a subnormal one. -/
theorem value32_eq (h : RoundsInRange m r w) (hb : isFinite32 b = true) (hr : r = value32 b) :
    value32 w = r ∨ (m = .ftzDaz ∧ |r| < 1 / 2 ^ 126 ∧ isZero32 w = true) := by
  obtain ⟨v, -, rfl, hmin⟩ := h
  have hv : r = value32 v := by
    have := hmin b hb
    rw [hr, sub_self, abs_zero, abs_nonpos_iff, sub_eq_zero] at this
    rw [hr, this]
  rw [hv, ← value32_eq_zero_iff]
  exact value32_condition_cases m v

end RoundsInRange

/-! ## The primitives on finite operands -/

section
variable {m : SubnormalMode} {nan a b : Word}

theorem fadd32_roundsInRange (ha : isFinite32 a = true) (hb : isFinite32 b = true)
    (h : |value32 (condition m a) + value32 (condition m b)| < 2 ^ 128 - 2 ^ 103) :
    RoundsInRange m (value32 (condition m a) + value32 (condition m b)) (fadd32 m nan a b) := by
  rw [← isFinite32_condition m] at ha hb
  rw [fadd32]
  by_cases hsum : value32 (condition m a) + value32 (condition m b) = 0
  · rw [hsum]
    apply roundsInRange_zero
    by_cases hz : isZero32 (condition m a) = true ∧ isZero32 (condition m b) = true
    · rw [addCases_zeros hz.1 hz.2]
      split <;> decide
    · rw [addCases_cancel ha hb hz hsum]
      decide
  · exact (addCases_rounds ha hb hsum).inRange h

theorem fsub32_roundsInRange (ha : isFinite32 a = true) (hb : isFinite32 b = true)
    (h : |value32 (condition m a) - value32 (condition m b)| < 2 ^ 128 - 2 ^ 103) :
    RoundsInRange m (value32 (condition m a) - value32 (condition m b)) (fsub32 m nan a b) := by
  have hneg : value32 (condition m (negate b)) = -value32 (condition m b) := by rw [condition_negate, value32_negate]
  rw [sub_eq_add_neg, ← hneg] at h ⊢
  exact fadd32_roundsInRange ha (by rwa [isFinite32_negate]) h

theorem fmul32_roundsInRange (ha : isFinite32 a = true) (hb : isFinite32 b = true)
    (h : |value32 (condition m a) * value32 (condition m b)| < 2 ^ 128 - 2 ^ 103) :
    RoundsInRange m (value32 (condition m a) * value32 (condition m b)) (fmul32 m nan a b) := by
  rw [← isFinite32_condition m] at ha hb
  rw [fmul32]
  by_cases hz : isZero32 (condition m a) = true ∨ isZero32 (condition m b) = true
  · have hprod : value32 (condition m a) * value32 (condition m b) = 0 := by
      rwa [mul_eq_zero, value32_eq_zero_iff, value32_eq_zero_iff]
    rw [hprod, mulCases_zero ha hb hz]
    exact roundsInRange_zero m (isZero32_zeroOf _)
  · obtain ⟨hza, hzb⟩ := not_or.mp hz
    exact (mulCases_rounds ha hb (Bool.eq_false_iff.mpr hza) (Bool.eq_false_iff.mpr hzb)).inRange h

theorem fdiv32_roundsInRange (ha : isFinite32 a = true) (hb : isFinite32 b = true)
    (hzb : isZero32 (condition m b) = false)
    (h : |value32 (condition m a) / value32 (condition m b)| < 2 ^ 128 - 2 ^ 103) :
    RoundsInRange m (value32 (condition m a) / value32 (condition m b)) (fdiv32 m nan a b) := by
  rw [← isFinite32_condition m] at ha hb
  rw [fdiv32]
  cases hza : isZero32 (condition m a)
  · exact (divCases_rounds ha hb hza hzb).inRange h
  · rw [value32_of_isZero32 hza, zero_div, divCases_finite ha hb (by simp [hzb]), hzb, hza]
    exact roundsInRange_zero m (isZero32_zeroOf _)

end

end Sys2Proof.Machine
end

section
/-! SUPPORT. The primitives on 1, on zeros, on infinities and on NaNs (00_scope R17 to R19): which operand they pass on, and that
no primitive makes a finite word of a non-finite left operand. -/

namespace Sys2Proof.Machine

theorem not_finite_of_nan {w : Word} (h : isNaN32 w = true) : isFinite32 w = false :=
  Bool.eq_false_iff.mpr fun hf => by simp [(not_nan_inf_of_finite hf).left] at h

theorem not_finite_of_inf {w : Word} (h : isInf32 w = true) : isFinite32 w = false :=
  Bool.eq_false_iff.mpr fun hf => by simp [(not_nan_inf_of_finite hf).right] at h

theorem nan_or_inf_of_not_finite {w : Word} (h : isFinite32 w = false) : isNaN32 w = true ∨ isInf32 w = true := by
  obtain ⟨hf, -, -⟩ | ⟨-, hi, -⟩ | ⟨-, -, hn⟩ := class_cases w
  · simp [hf] at h
  · exact .inr hi
  · exact .inl hn

theorem cases_of_not_nan {w : Word} (h : isNaN32 w = false) :
    isInf32 w = true ∨ isZero32 w = true ∨ (isFinite32 w = true ∧ isZero32 w = false) := by
  cases hf : isFinite32 w
  · obtain hn | hi := nan_or_inf_of_not_finite hf
    · simp [hn] at h
    · exact .inl hi
  · cases hz : isZero32 w
    · exact .inr (.inr ⟨rfl, rfl⟩)
    · exact .inr (.inl rfl)

@[simp] theorem condition_fOne (m : SubnormalMode) : condition m fOne = fOne := by cases m <;> rfl
@[simp] theorem condition_fNegOne (m : SubnormalMode) : condition m fNegOne = fNegOne := by cases m <;> rfl
@[simp] theorem condition_fZero (m : SubnormalMode) : condition m fZero = fZero := by cases m <;> rfl
@[simp] theorem condition_fNegZero (m : SubnormalMode) : condition m fNegZero = fNegZero := by cases m <;> rfl

section
variable {m : SubnormalMode} {nan a b : Word}

/-! ## Multiplying and dividing by 1 -/

theorem mulCases_fOne (ha : isNaN32 a = false) : mulCases m nan a fOne = condition m a := by
  have hsign : (signBit a != signBit fOne) = signBit a := Bool.bne_false _
  obtain hi | hz | ⟨hf, hz⟩ := cases_of_not_nan ha
  · rw [mulCases_inf ha rfl (isZero32_of_isInf32 hi) rfl (.inl hi), hsign, ← eq_infOf_of_isInf32 hi,
      condition_of_isInf32 m hi]
  · rw [mulCases_zero (isFinite32_of_isZero32 hz) rfl (.inl hz), hsign, ← eq_zeroOf_of_isZero32 hz,
      condition_of_isZero32 m hz]
  · have h := mulCases_rounds (m := m) (nan := nan) hf (b := fOne) rfl hz rfl
    rw [value32_fOne, mul_one] at h
    exact eq_condition_of_rounds hf hz h

theorem fmul32_fOne (ha : isNaN32 a = false) : fmul32 m nan a fOne = condition m a := by
  rw [fmul32, condition_fOne, mulCases_fOne (by rwa [isNaN32_condition]), condition_condition]

theorem divCases_fOne (ha : isNaN32 a = false) : divCases m nan a fOne = condition m a := by
  have hsign : (signBit a != signBit fOne) = signBit a := Bool.bne_false _
  obtain hi | hz | ⟨hf, hz⟩ := cases_of_not_nan ha
  · rw [divCases_inf_finite hi rfl, hsign, ← eq_infOf_of_isInf32 hi, condition_of_isInf32 m hi]
  · rw [divCases_finite (isFinite32_of_isZero32 hz) rfl (fun ⟨_, h⟩ => absurd h (by decide)), hz, hsign,
      condition_of_isZero32 m hz]
    exact (eq_zeroOf_of_isZero32 hz).symm
  · have h := divCases_rounds (m := m) (nan := nan) hf (b := fOne) rfl hz rfl
    rw [value32_fOne, div_one] at h
    exact eq_condition_of_rounds hf hz h

theorem fdiv32_fOne (ha : isNaN32 a = false) : fdiv32 m nan a fOne = condition m a := by
  rw [fdiv32, condition_fOne, divCases_fOne (by rwa [isNaN32_condition]), condition_condition]

/-! ## Adding and subtracting a zero, and a word from itself -/

theorem addCases_zero_right (ha : isNaN32 a = false) (hza : isZero32 a = false) (hzb : isZero32 b = true) :
    addCases m nan a b = condition m a := by
  have hb := isFinite32_of_isZero32 hzb
  obtain ⟨hnb, hib⟩ := not_nan_inf_of_finite hb
  obtain hi | hz | ⟨hf, -⟩ := cases_of_not_nan ha
  · rw [addCases_inf_left hi hnb (by simp [hib]), condition_of_isInf32 m hi]
  · simp [hza] at hz
  · have hsum : value32 a + value32 b = value32 a := by rw [value32_of_isZero32 hzb, add_zero]
    have h := addCases_rounds (m := m) (nan := nan) hf hb (by rw [hsum]; exact value32_ne_zero hza)
    rw [hsum] at h
    exact eq_condition_of_rounds hf hza h

theorem fadd32_fZero (ha : isNaN32 a = false) :
    fadd32 m nan a fZero = if isZero32 (condition m a) then fZero else condition m a := by
  rw [fadd32, condition_fZero]
  split
  · next hz =>
    rw [addCases_zeros hz rfl]
    exact if_neg fun ⟨_, h⟩ => absurd h (by decide)
  · next hz =>
    rw [addCases_zero_right (by rwa [isNaN32_condition]) (Bool.eq_false_iff.mpr hz) rfl, condition_condition]

/-- `a - (+0)` is `a + (-0)`, which keeps the sign of a zero too. -/
theorem fsub32_fZero (ha : isNaN32 a = false) : fsub32 m nan a fZero = condition m a := by
  rw [fsub32, fadd32, show negate fZero = fNegZero from rfl, condition_fNegZero]
  cases hz : isZero32 (condition m a)
  · rw [addCases_zero_right (by rwa [isNaN32_condition]) hz rfl, condition_condition]
  · rw [addCases_zeros hz rfl, eq_zeroOf_of_isZero32 hz]
    cases signBit (condition m a) <;> rfl

/-- Operands that read as one value cancel to `+0`, but that `-0` less `+0` is `-0`. -/
theorem fsub32_cancel (ha : isFinite32 a = true) (hb : isFinite32 b = true)
    (hval : value32 (condition m a) = value32 (condition m b)) (hsign : signBit a = true → signBit b = true) :
    fsub32 m nan a b = fZero := by
  have hsum : value32 (condition m a) + value32 (negate (condition m b)) = 0 := by
    rw [value32_negate, hval, add_neg_cancel]
  rw [fsub32, fadd32, condition_negate]
  by_cases hz : isZero32 (condition m a) = true ∧ isZero32 (negate (condition m b)) = true
  · rw [addCases_zeros hz.left hz.right]
    refine if_neg fun ⟨hna, hnb⟩ => ?_
    have hsa : signBit a = true := by rw [← signBit_condition m a, hna]; rfl
    have hsb : (!signBit b) = true := by rw [← signBit_condition m b, ← signBit_negate, hnb]; rfl
    simp [hsign hsa] at hsb
  · exact addCases_cancel (by rwa [isFinite32_condition]) (by rwa [isFinite32_negate, isFinite32_condition]) hz hsum

theorem fsub32_zero_left (hb : isFinite32 b = true) (hzb : isZero32 (condition m b) = true) :
    fsub32 m nan fZero b = fZero := by
  refine fsub32_cancel rfl hb ?_ fun h => absurd h (by decide)
  rw [condition_fZero, value32_of_isZero32 hzb, value32_of_isZero32 rfl]

theorem fsub32_self (ha : isFinite32 a = true) : fsub32 m nan a a = fZero := fsub32_cancel ha ha rfl id

/-! ## Infinities -/

theorem fadd32_inf (ha : isInf32 a = true) (hb : isNaN32 b = false) (hab : isInf32 b = true → b = a) :
    fadd32 m nan a b = a := by
  rw [fadd32, condition_of_isInf32 m ha]
  refine addCases_inf_left ha (by rwa [isNaN32_condition]) fun hi => ?_
  rw [isInf32_condition] at hi
  rw [condition_of_isInf32 m hi, hab hi]

theorem fsub32_inf (ha : isInf32 a = true) (hb : isFinite32 b = true) : fsub32 m nan a b = a := by
  obtain ⟨hnb, hib⟩ := not_nan_inf_of_finite hb
  exact fadd32_inf ha (by rwa [isNaN32_negate]) (by simp [hib])

theorem fadd32_inf_opposite (ha : isInf32 a = true) (hb : isInf32 b = true) (hne : b ≠ a) :
    fadd32 m nan a b = nan := by
  rw [fadd32, condition_of_isInf32 m ha, condition_of_isInf32 m hb]
  rw [eq_infOf_of_isInf32 ha, eq_infOf_of_isInf32 hb] at hne ⊢
  apply addCases_opposite_infinities
  revert hne
  cases signBit a <;> cases signBit b <;> decide

theorem fsub32_inf_self (ha : isInf32 a = true) : fsub32 m nan a a = nan :=
  fadd32_inf_opposite ha (by rwa [isInf32_negate]) fun h => by simpa using congrArg signBit h

theorem fmul32_inf (ha : isInf32 a = true) (hb : isNaN32 b = false) (hzb : isZero32 (condition m b) = false) :
    fmul32 m nan a b = infOf (signBit a != signBit b) := by
  rw [fmul32, condition_of_isInf32 m ha, mulCases_inf (isNaN32_of_isInf32 ha) (by rwa [isNaN32_condition])
    (isZero32_of_isInf32 ha) hzb (.inl ha), signBit_condition]

theorem fdiv32_inf (ha : isInf32 a = true) (hb : isFinite32 b = true) :
    fdiv32 m nan a b = infOf (signBit a != signBit b) := by
  rw [fdiv32, condition_of_isInf32 m ha, divCases_inf_finite ha (by rwa [isFinite32_condition]), signBit_condition]

/-! ## A non-finite left operand stays non-finite -/

theorem fadd32_not_finite (hnan : isNaN32 nan = true) (ha : isFinite32 a = false) :
    isFinite32 (fadd32 m nan a b) = false := by
  obtain hna | hia := nan_or_inf_of_not_finite ha
  · rw [fadd32_nan (.inl hna), not_finite_of_nan hnan]
  · cases hnb : isNaN32 b
    · by_cases hab : isInf32 b = true → b = a
      · rwa [fadd32_inf hia hnb hab]
      · obtain ⟨hib, hne⟩ := Classical.not_imp.mp hab
        rw [fadd32_inf_opposite hia hib hne, not_finite_of_nan hnan]
    · rw [fadd32_nan (.inr hnb), not_finite_of_nan hnan]

theorem fsub32_not_finite (hnan : isNaN32 nan = true) (ha : isFinite32 a = false) :
    isFinite32 (fsub32 m nan a b) = false := fadd32_not_finite hnan ha

theorem fmul32_not_finite (hnan : isNaN32 nan = true) (ha : isFinite32 a = false) :
    isFinite32 (fmul32 m nan a b) = false := by
  obtain hna | hia := nan_or_inf_of_not_finite ha
  · rw [fmul32_nan (.inl hna), not_finite_of_nan hnan]
  · cases hnb : isNaN32 b
    · cases hzb : isZero32 (condition m b)
      · rw [fmul32_inf hia hnb hzb, not_finite_of_inf (isInf32_infOf _)]
      · rw [fmul32, mulCases_inf_zero (.inl ⟨by rwa [isInf32_condition], hzb⟩), not_finite_of_nan hnan]
    · rw [fmul32_nan (.inr hnb), not_finite_of_nan hnan]

theorem fdiv32_not_finite (hnan : isNaN32 nan = true) (ha : isFinite32 a = false) (hb : isFinite32 b = true) :
    isFinite32 (fdiv32 m nan a b) = false := by
  obtain hna | hia := nan_or_inf_of_not_finite ha
  · rw [fdiv32_nan (.inl hna), not_finite_of_nan hnan]
  · rw [fdiv32_inf hia hb, not_finite_of_inf (isInf32_infOf _)]

/-! ## The only NaN a primitive answers is the one supplied to it (R85) -/

theorem isNaN32_round32 (neg : Bool) (n : Nat) {d : Nat} (hd : 0 < d) : isNaN32 (round32 m neg n d) = false := by
  by_cases hover : (2 ^ 25 - 1) * 2 ^ 252 * d ≤ n
  · rw [round32, if_pos hover, isNaN32_infOf]
  · have hlt := nearestMag_lt hd (not_le.mp hover)
    have hfin : isFinite32 (mkWord neg (nearestMag n d)) = true := by
      rwa [isFinite32_iff_magBits_lt, magBits_mkWord _ (by omega)]
    obtain h | h | ⟨-, h⟩ := round32_cases m neg n d
    · rw [h, isNaN32_infOf]
    · rw [h]
      exact (not_nan_inf_of_finite hfin).left
    · rw [h, isNaN32_zeroOf]

theorem addCases_nan_or_not_nan : addCases m nan a b = nan ∨ isNaN32 (addCases m nan a b) = false := by
  unfold addCases
  split_ifs with hnan hopp ha hb hz hsum
  · exact .inl rfl
  · exact .inl rfl
  · exact .inr (isNaN32_of_isInf32 ha)
  · exact .inr (isNaN32_of_isInf32 hb)
  · exact .inr (isNaN32_zeroOf _)
  · exact .inr (isNaN32_zeroOf false)
  · exact .inr (isNaN32_round32 _ _ Nat.one_pos)

theorem mulCases_nan_or_not_nan : mulCases m nan a b = nan ∨ isNaN32 (mulCases m nan a b) = false := by
  unfold mulCases
  split_ifs with hnan hindef hinf hzero
  · exact .inl rfl
  · exact .inl rfl
  · exact .inr (isNaN32_infOf _)
  · exact .inr (isNaN32_zeroOf _)
  · exact .inr (isNaN32_round32 _ _ (by positivity))

theorem divCases_nan_or_not_nan : divCases m nan a b = nan ∨ isNaN32 (divCases m nan a b) = false := by
  unfold divCases
  split_ifs with hnan hinf hzero ha hb hzb hza
  · exact .inl rfl
  · exact .inl rfl
  · exact .inl rfl
  · exact .inr (isNaN32_infOf _)
  · exact .inr (isNaN32_zeroOf _)
  · exact .inr (isNaN32_infOf _)
  · exact .inr (isNaN32_zeroOf _)
  · exact .inr (isNaN32_round32 _ _ (magUnits_pos (Bool.eq_false_iff.mpr hzb)))

end

end Sys2Proof.Machine
end

section
/-! SUPPORT. Clamps (41_distortion_path R92, R93, 42_crossfader_frame R100): reading words as the mode does keeps their order. -/

namespace Sys2Proof.Machine

theorem valueExt_of_not_inf {w : Word} (h : isInf32 w = false) :
    valueExt w = ((value32 w : WithTop Rat) : WithBot (WithTop Rat)) := by
  rw [valueExt, if_neg (by simp [h])]

theorem valueExt_of_inf {w : Word} (h : isInf32 w = true) : valueExt w = if signBit w then ⊥ else ⊤ := by
  rw [valueExt, if_pos h]
  rfl

theorem valueExt_le_iff {a b : Word} (ha : isInf32 a = false) (hb : isInf32 b = false) :
    valueExt a ≤ valueExt b ↔ value32 a ≤ value32 b := by
  rw [valueExt_of_not_inf ha, valueExt_of_not_inf hb, WithBot.coe_le_coe, WithTop.coe_le_coe]

theorem not_inf_of_subnormal {w : Word} (h : isSubnormal32 w = true) : isInf32 w = false := by
  obtain ⟨he, -⟩ := (isSubnormal32_iff w).mp h
  simp [isInf32, he]

theorem valueExt_zeroOf (neg : Bool) : valueExt (zeroOf neg) = valueExt fZero := by cases neg <;> decide +kernel

/-- Below a subnormal number there is no positive word that FTZ_DAZ reads as it is. -/
theorem valueExt_le_zero_of_le_subnormal {a b : Word} (ha : condition .ftzDaz a = a) (hb : isSubnormal32 b = true)
    (h : valueExt a ≤ valueExt b) : valueExt a ≤ valueExt fZero := by
  have hib := not_inf_of_subnormal hb
  cases hia : isInf32 a
  · rw [valueExt_le_iff hia hib] at h
    rw [valueExt_le_iff hia rfl, value32_of_isZero32 (w := fZero) rfl]
    by_contra hpos
    have hbig := le_abs_of_condition_eq ha (by linarith)
    rw [abs_of_pos (not_le.mp hpos)] at hbig
    linarith [le_abs_self (value32 b), abs_value32_lt_of_subnormal hb]
  · rw [valueExt_of_inf hia, valueExt_of_not_inf hib] at h
    rw [valueExt_of_inf hia]
    cases hs : signBit a <;> simp [hs] at h ⊢

theorem zero_le_valueExt_of_subnormal_le {a b : Word} (ha : isSubnormal32 a = true) (hb : condition .ftzDaz b = b)
    (h : valueExt a ≤ valueExt b) : valueExt fZero ≤ valueExt b := by
  have hia := not_inf_of_subnormal ha
  cases hib : isInf32 b
  · rw [valueExt_le_iff hia hib] at h
    rw [valueExt_le_iff rfl hib, value32_of_isZero32 (w := fZero) rfl]
    by_contra hneg
    have hbig := le_abs_of_condition_eq hb (by linarith)
    rw [abs_of_neg (not_le.mp hneg)] at hbig
    linarith [neg_abs_le (value32 a), abs_value32_lt_of_subnormal ha]
  · rw [valueExt_of_not_inf hia, valueExt_of_inf hib] at h
    rw [valueExt_of_inf hib]
    cases hs : signBit b <;> simp [hs] at h ⊢

/-- Input conditioning keeps the order. -/
theorem valueExt_condition_mono (m : SubnormalMode) {a b : Word} (h : valueExt a ≤ valueExt b) :
    valueExt (condition m a) ≤ valueExt (condition m b) := by
  obtain ha | ⟨hm, hsa, ha⟩ := condition_cases m a <;> obtain hb | ⟨hm, hsb, hb⟩ := condition_cases m b
  · rwa [ha, hb]
  · rw [ha, hb, valueExt_zeroOf]
    exact valueExt_le_zero_of_le_subnormal (hm ▸ ha) hsb h
  · rw [ha, hb, valueExt_zeroOf]
    exact zero_le_valueExt_of_subnormal_le hsa (hm ▸ hb) h
  · rw [ha, hb, valueExt_zeroOf, valueExt_zeroOf]

/-- A word beyond 1 or below -1 is no subnormal. -/
theorem condition_of_one_lt (m : SubnormalMode) {w : Word} (h : valueExt fOne < valueExt w ∨ valueExt w < valueExt fNegOne) :
    condition m w = w := by
  refine condition_of_not_subnormal m (Bool.eq_false_iff.mpr fun hs => ?_)
  have hi := not_inf_of_subnormal hs
  obtain ⟨hlo, hhi⟩ := abs_lt.mp (abs_value32_lt_of_subnormal hs)
  obtain h | h := h
  · refine absurd ((valueExt_le_iff hi rfl).mpr ?_) (not_le.mpr h)
    rw [value32_fOne]
    linarith
  · refine absurd ((valueExt_le_iff rfl hi).mpr ?_) (not_le.mpr h)
    rw [value32_fNegOne]
    linarith

section
variable {m : SubnormalMode} {v lo hi : Word}

theorem clampF_nan (h : isNaN32 v = true) : clampF m v lo hi = v := by simp [clampF, fgt32, flt32, h]

theorem flt32_iff_of_not_nan {a b : Word} (ha : isNaN32 a = false) (hb : isNaN32 b = false) :
    flt32 m a b = true ↔ valueExt (condition m a) < valueExt (condition m b) := by
  simp [flt32_iff, ha, hb]

theorem clampF_below (hlo : isNaN32 lo = false) (hv : isNaN32 v = false)
    (h : valueExt (condition m v) < valueExt (condition m lo)) : clampF m v lo hi = lo := by
  rw [clampF, if_pos ((flt32_iff_of_not_nan hv hlo).mpr h)]

theorem clampF_above (hlo : isNaN32 lo = false) (hhi : isNaN32 hi = false) (hle : valueExt lo ≤ valueExt hi)
    (hv : isNaN32 v = false) (h : valueExt (condition m hi) < valueExt (condition m v)) : clampF m v lo hi = hi := by
  rw [clampF, if_neg, fgt32, if_pos ((flt32_iff_of_not_nan hhi hv).mpr h)]
  rw [flt32_iff_of_not_nan hv hlo, not_lt]
  exact (valueExt_condition_mono m hle).trans h.le

theorem clampF_inside (hlo : isNaN32 lo = false) (hhi : isNaN32 hi = false) (hv : isNaN32 v = false)
    (hge : valueExt (condition m lo) ≤ valueExt (condition m v))
    (hle : valueExt (condition m v) ≤ valueExt (condition m hi)) : clampF m v lo hi = v := by
  rw [clampF, if_neg, fgt32, if_neg]
  · rwa [flt32_iff_of_not_nan hhi hv, not_lt]
  · rwa [flt32_iff_of_not_nan hv hlo, not_lt]

end

theorem valueExt_fNegOne_le_fOne : valueExt fNegOne ≤ valueExt fOne := by decide +kernel
theorem valueExt_fZero_le_fOne : valueExt fZero ≤ valueExt fOne := by decide +kernel

/-! ## The output clamp (R93) -/

section
variable {m : SubnormalMode} {t : Word}

theorem stageClamp_above (ht : isNaN32 t = false) (h : valueExt fOne < valueExt t) : stageClamp m t = fOne := by
  refine clampF_above rfl rfl valueExt_fNegOne_le_fOne ht ?_
  rwa [condition_of_one_lt m (.inl h), condition_fOne]

theorem stageClamp_below (ht : isNaN32 t = false) (h : valueExt t < valueExt fNegOne) : stageClamp m t = fNegOne := by
  refine clampF_below rfl ht ?_
  rwa [condition_of_one_lt m (.inr h), condition_fNegOne]

theorem stageClamp_inside (ht : isNaN32 t = false) (hlo : valueExt fNegOne ≤ valueExt t)
    (hhi : valueExt t ≤ valueExt fOne) : stageClamp m t = t :=
  clampF_inside rfl rfl ht (valueExt_condition_mono m hlo) (valueExt_condition_mono m hhi)

theorem isNominal_of_between (ht : isNaN32 t = false) (hlo : valueExt fNegOne ≤ valueExt t)
    (hhi : valueExt t ≤ valueExt fOne) : IsNominal t := by
  cases hi : isInf32 t
  · rw [valueExt_le_iff rfl hi, value32_fNegOne] at hlo
    rw [valueExt_le_iff hi rfl, value32_fOne] at hhi
    refine ⟨?_, abs_le.mpr ⟨hlo, hhi⟩⟩
    by_contra hf
    obtain h | h := nan_or_inf_of_not_finite (Bool.eq_false_iff.mpr hf)
    · simp [ht] at h
    · simp [hi] at h
  · have houtside : ∀ s, ¬(valueExt fNegOne ≤ valueExt (infOf s) ∧ valueExt (infOf s) ≤ valueExt fOne) := by
      decide +kernel
    rw [eq_infOf_of_isInf32 hi] at hlo hhi
    exact absurd ⟨hlo, hhi⟩ (houtside _)

/-- The output clamp makes a nominal word of every word but a NaN (R98). -/
theorem isNominal_stageClamp (ht : isNaN32 t = false) : IsNominal (stageClamp m t) := by
  obtain habove | hhi := lt_or_ge (valueExt fOne) (valueExt t)
  · rw [stageClamp_above ht habove]
    exact ⟨rfl, by rw [value32_fOne, abs_one]⟩
  obtain hbelow | hlo := lt_or_ge (valueExt t) (valueExt fNegOne)
  · rw [stageClamp_below ht hbelow]
    exact ⟨rfl, by rw [value32_fNegOne, abs_neg, abs_one]⟩
  · rw [stageClamp_inside ht hlo hhi]
    exact isNominal_of_between ht hlo hhi

end

end Sys2Proof.Machine
end

section
/-! SUPPORT. Overflow, and exact subtraction (41_distortion_path R86, R88). -/

namespace Sys2Proof.Machine

section
variable {m : SubnormalMode} {nan nan' a b : Word}

/-! ## Overflow of a product -/

/-- Only words that the mode reads as they are can overflow: 2^-126 times any finite word is below 4. -/
theorem le_abs_of_overflow (hb : isFinite32 b = true)
    (h : (2 : Rat) ^ 128 - 2 ^ 103 ≤ |value32 a| * |value32 b|) : 1 / 2 ^ 126 ≤ |value32 a| := by
  by_contra hlt
  have hprod : |value32 a| * |value32 b| ≤ 1 / 2 ^ 126 * value32 fMax :=
    mul_le_mul (not_le.mp hlt).le (abs_value32_le_fMax hb) (abs_nonneg _) (by norm_num)
  rw [value32_fMax] at hprod
  linarith

theorem fmul32_overflow (ha : isFinite32 a = true) (hb : isFinite32 b = true)
    (h : (2 : Rat) ^ 128 - 2 ^ 103 ≤ |value32 a| * value32 b) : fmul32 m nan a b = infOf (signBit a) := by
  have hpos : 0 < value32 b := by
    by_contra hneg
    have := mul_nonpos_of_nonneg_of_nonpos (abs_nonneg (value32 a)) (not_lt.mp hneg)
    linarith
  have habs : (2 : Rat) ^ 128 - 2 ^ 103 ≤ |value32 a| * |value32 b| := by rwa [abs_of_pos hpos]
  have hza : isZero32 a = false := Bool.eq_false_iff.mpr fun hz => by
    rw [value32_of_isZero32 hz, abs_zero, zero_mul] at h
    linarith
  have hzb : isZero32 b = false := Bool.eq_false_iff.mpr fun hz => by
    rw [value32_of_isZero32 hz] at hpos
    exact lt_irrefl _ hpos
  have hsign : (signBit a != signBit b) = signBit a := by
    rw [signBit_eq_decide_value32 hzb, decide_eq_false (not_lt.mpr hpos.le), Bool.bne_false]
  have hrounds := mulCases_rounds (m := m) (nan := nan) ha hb hza hzb
  rw [Rounds, if_pos (by rwa [abs_mul])] at hrounds
  have hinf := eq_infOf_of_isInf32 (hrounds ▸ isInf32_infOf _)
  rw [fmul32, condition_of_le_abs m (le_abs_of_overflow hb habs),
    condition_of_le_abs m (le_abs_of_overflow ha (by rwa [mul_comm])), hinf, mulCases_finite ha hb hza hzb,
    signBit_round32, hsign]

/-! ## Subtraction within a factor of two -/

/-- R88: a difference of operands within a factor of two of each other is a value, so it is exact unless FTZ_DAZ flushes it. -/
theorem value32_fsub32_of_factor_two (ha : isFinite32 a = true) (hb : isFinite32 b = true)
    (hlo : value32 (condition m b) / 2 ≤ value32 (condition m a))
    (hhi : value32 (condition m a) ≤ 2 * value32 (condition m b)) :
    value32 (fsub32 m nan a b) = value32 (condition m a) - value32 (condition m b) ∨
      (m = .ftzDaz ∧ |value32 (condition m a) - value32 (condition m b)| < 1 / 2 ^ 126 ∧
        isZero32 (fsub32 m nan a b) = true) := by
  obtain ⟨d, hd, hval⟩ := exists_word_sub (by rwa [isFinite32_condition m b]) (by rwa [isFinite32_condition m a]) hlo hhi
  have hrange := abs_value32_lt_threshold hd
  rw [hval] at hrange
  exact (fsub32_roundsInRange ha hb hrange).value32_eq hd hval.symm

/-- Adding at most 1024 to a word of 4096 or more moves it by at most 2048. -/
theorem abs_fadd32_sub_le (ha : isFinite32 a = true) (hasmall : |value32 a| ≤ 1024) (hb : isFinite32 b = true)
    (hbbig : 4096 ≤ value32 b) :
    isFinite32 (fadd32 m nan a b) = true ∧ |value32 (fadd32 m nan a b) - value32 b| ≤ 2048 := by
  have hread : condition m b = b := condition_of_le_abs m (by rw [abs_of_nonneg] <;> linarith)
  have hsmall : |value32 (condition m a)| ≤ 1024 := (abs_value32_condition_le m a).trans hasmall
  obtain ⟨hlo, hhi⟩ := abs_le.mp hsmall
  have hmax := value32_le_fMax hb
  rw [value32_fMax] at hmax
  have h : RoundsInRange m (value32 (condition m a) + value32 b) (fadd32 m nan a b) := by
    have := fadd32_roundsInRange (m := m) (nan := nan) ha hb
    rw [hread] at this
    exact this (abs_lt.mpr ⟨by linarith, by linarith⟩)
  have hge : value32 f1024 ≤ value32 (fadd32 m nan a b) :=
    h.ge_of_ge rfl (by cases m <;> rfl) (by rw [value32_f1024]; linarith)
  rw [value32_f1024] at hge
  have hnear := h.abs_sub_le (by linarith) hb
  rw [add_sub_cancel_right] at hnear
  obtain ⟨hnlo, hnhi⟩ := abs_le.mp (hnear.trans hsmall)
  exact ⟨h.finite, abs_le.mpr ⟨by linarith, by linarith⟩⟩

/-- R88 and R99: after an addition of at most 1024 to a word of 4096 or more, subtracting that word is exact in both modes: both
operands lie on the grid of 2^-12, on which no nonzero difference is subnormal. -/
theorem value32_fsub32_fadd32 (ha : isFinite32 a = true) (hasmall : |value32 a| ≤ 1024) (hb : isFinite32 b = true)
    (hbbig : 4096 ≤ value32 b) :
    value32 (fsub32 m nan (fadd32 m nan' a b) b) = value32 (fadd32 m nan' a b) - value32 b := by
  obtain ⟨hfin, hnear⟩ := abs_fadd32_sub_le (m := m) (nan := nan') ha hasmall hb hbbig
  obtain ⟨hlo, hhi⟩ := abs_le.mp hnear
  generalize fadd32 m nan' a b = w at hfin hlo hhi ⊢
  have habsw : |value32 w| = value32 w := abs_of_nonneg (by linarith)
  have habsb : |value32 b| = value32 b := abs_of_nonneg (by linarith)
  have hreadw : condition m w = w := condition_of_le_abs m (by rw [habsw]; linarith)
  have hreadb : condition m b = b := condition_of_le_abs m (by rw [habsb]; linarith)
  have hexact := value32_fsub32_of_factor_two (m := m) (nan := nan) hfin hb
  rw [hreadw, hreadb] at hexact
  obtain h | ⟨-, htiny, hz⟩ := hexact (by linarith) (by linarith)
  · exact h
  obtain ⟨k, hk⟩ := exists_grid_multiple (w := w) 137 (by rw [habsw]; linarith)
  obtain ⟨l, hl⟩ := exists_grid_multiple (w := b) 137 (by rw [habsb]; linarith)
  have hkl : k - l = 0 := by
    rw [← Int.abs_lt_one_iff, ← Int.cast_lt (R := Rat), Int.cast_abs, Int.cast_sub, Int.cast_one]
    rw [hk, hl, ← sub_mul, abs_mul, abs_of_pos (show (0 : Rat) < 2 ^ 137 / 2 ^ 149 by norm_num)] at htiny
    linarith
  rw [value32_of_isZero32 hz, hk, hl, sub_eq_zero.mp hkl, sub_self]

end

/-- Up to 2^22 + 2048 every number lies within 1/4 of a word, a multiple of 1/2 (R99). -/
theorem exists_word_near_of_le {r : Rat} (hr : |r| ≤ 2 ^ 22 + 2048) :
    ∃ u, isFinite32 u = true ∧ |r - value32 u| ≤ 1 / 4 := by
  obtain ⟨hlo, hhi⟩ := abs_le.mp (abs_sub_round (2 * r))
  obtain ⟨hrlo, hrhi⟩ := abs_le.mp hr
  have hz : (round (2 * r)).natAbs ≤ 2 ^ 24 := by
    have hzlo : -(2 : Rat) ^ 24 ≤ round (2 * r) := by linarith
    have hzhi : (round (2 * r) : Rat) ≤ 2 ^ 24 := by linarith
    have : -2 ^ 24 ≤ round (2 * r) := by exact_mod_cast hzlo
    have : round (2 * r) ≤ 2 ^ 24 := by exact_mod_cast hzhi
    omega
  have hlt : (round (2 * r)).natAbs * 2 ^ 148 < 2 ^ 277 := by
    rw [show 2 ^ 277 = 2 ^ 24 * 2 ^ 148 * 2 ^ 105 by rw [← pow_add, ← pow_add]]
    exact (Nat.mul_le_mul_right _ hz).trans_lt (lt_mul_of_one_lt_right (by positivity) (by norm_num))
  obtain ⟨u, hu, hval⟩ := exists_word_of_units hz hlt
  refine ⟨u, hu, ?_⟩
  rw [hval, abs_le]
  constructor <;> linarith

end Sys2Proof.Machine
end

section
/-! SUPPORT. A lane's words (41_distortion_path R82): the fallback, and the bounds of its words inside the contract. -/

namespace Sys2Proof.Machine

section
variable {m : SubnormalMode} {nan : Nat → Word} {x : Word} {p : Params}

theorem laneWith_t1 : (laneWith m nan x p).t1 = fmul32 m (nan 0) x p.mult := rfl
theorem laneWith_t2 : (laneWith m nan x p).t2 = fadd32 m (nan 1) (laneWith m nan x p).t1 p.add := rfl
theorem laneWith_t3 : (laneWith m nan x p).t3 = fsub32 m (nan 2) (laneWith m nan x p).t2 p.add := rfl
theorem laneWith_t4 : (laneWith m nan x p).t4 = fdiv32 m (nan 3) (laneWith m nan x p).t3 p.mult := rfl
theorem laneWith_t5 :
    (laneWith m nan x p).t5 = if p.res then fsub32 m (nan 4) (laneWith m nan x p).t4 x else (laneWith m nan x p).t4 := rfl
theorem laneWith_t6 : (laneWith m nan x p).t6 = stageFinite (laneWith m nan x p).t5 x := rfl
theorem laneWith_t7 : (laneWith m nan x p).t7 = stageClamp m (laneWith m nan x p).t6 := rfl

/-! ## The fallback (R91) -/

theorem stageFinite_of_finite {t5 : Word} (h : isFinite32 t5 = true) : stageFinite t5 x = t5 := if_pos h

theorem stageFinite_of_not_finite {t5 : Word} (h : isFinite32 t5 = false) : stageFinite t5 x = x := if_neg (by simp [h])

/-- Once `t1` is not finite, no later stage makes a finite word, whatever the add amount. -/
theorem laneWith_t5_not_finite (hnan : AllNaN nan) (hmult : isFinite32 p.mult = true)
    (h : isFinite32 (laneWith m nan x p).t1 = false) : isFinite32 (laneWith m nan x p).t5 = false := by
  have h2 : isFinite32 (laneWith m nan x p).t2 = false := fadd32_not_finite (hnan 1) h
  have h3 : isFinite32 (laneWith m nan x p).t3 = false := fsub32_not_finite (hnan 2) h2
  have h4 : isFinite32 (laneWith m nan x p).t4 = false := fdiv32_not_finite (hnan 3) h3 hmult
  rw [laneWith_t5]
  split
  · exact fsub32_not_finite (hnan 4) h4
  · exact h4

theorem laneWith_t5_not_finite_of_sample (hnan : AllNaN nan) (hmult : isFinite32 p.mult = true)
    (hx : isFinite32 x = false) : isFinite32 (laneWith m nan x p).t5 = false :=
  laneWith_t5_not_finite hnan hmult (fmul32_not_finite (hnan 0) hx)

theorem laneWith_t5_not_finite_of_overflow (hnan : AllNaN nan) (hmult : isFinite32 p.mult = true)
    (hx : isFinite32 x = true) (h : (2 : Rat) ^ 128 - 2 ^ 103 ≤ |value32 x| * value32 p.mult) :
    isFinite32 (laneWith m nan x p).t5 = false := by
  refine laneWith_t5_not_finite hnan hmult ?_
  rw [laneWith_t1, fmul32_overflow hx hmult h, not_finite_of_inf (isInf32_infOf _)]

/-! ## Inside the contract (R69) -/

theorem signBit_mult_of_inContract (hp : p.inContract = true) : signBit p.mult = false := by
  obtain ⟨-, -, -, hhi⟩ := (inContract_iff p).mp hp
  rw [signBit_eq, decide_eq_false_iff_not, not_le]
  exact hhi.trans_lt (by decide)

theorem condition_mult_of_inContract (hp : p.inContract = true) : condition m p.mult = p.mult := by
  obtain ⟨-, -, hone, -, -⟩ := contractExcludesDivisionByZero m p hp
  exact condition_of_le_abs m (by rw [abs_of_nonneg] <;> linarith)

theorem add_of_inContract (hp : p.inContract = true) :
    isFinite32 p.add = true ∧ 0 ≤ value32 p.add ∧ value32 p.add ≤ 2 ^ 22 := by
  obtain ⟨-, hadd, -, -⟩ := (inContract_iff p).mp hp
  have hlt : p.add.toNat < 2 ^ 31 := hadd.trans_lt (by decide)
  refine ⟨?_, ?_, ?_⟩
  · rw [isFinite32_iff, expField_eq]
    simp only [BitVec.toNat_ofNat] at hadd
    omega
  · rw [← value32_of_isZero32 (w := fZero) rfl]
    exact value32_le_of_toNat_le (Nat.zero_le _) hlt
  · rw [← value32_f4M]
    exact value32_le_of_toNat_le hadd (by decide)

/-- The add amount as the mode reads it. -/
theorem condition_add_of_inContract (hp : p.inContract = true) :
    0 ≤ value32 (condition m p.add) ∧ value32 (condition m p.add) ≤ 2 ^ 22 := by
  obtain ⟨-, hlo, hhi⟩ := add_of_inContract hp
  obtain h | ⟨-, -, h⟩ := value32_condition_cases m p.add
  · rw [h]
    exact ⟨hlo, hhi⟩
  · rw [h]
    norm_num

/-- The exact results that `t1` to `t4` are roundings of, for a finite sample whose product does not overflow: the add amount is
far below half the spacing of the largest words, and dividing by a word of 1 or more makes nothing larger (R96, R97). -/
theorem laneWith_roundsInRange (hp : p.inContract = true) (hx : isFinite32 x = true)
    (h : |value32 x| * value32 p.mult < 2 ^ 128 - 2 ^ 103) :
    RoundsInRange m (value32 (condition m x) * value32 p.mult) (laneWith m nan x p).t1 ∧
    RoundsInRange m (value32 (laneWith m nan x p).t1 + value32 (condition m p.add)) (laneWith m nan x p).t2 ∧
    RoundsInRange m (value32 (laneWith m nan x p).t2 - value32 (condition m p.add)) (laneWith m nan x p).t3 ∧
    RoundsInRange m (value32 (laneWith m nan x p).t3 / value32 p.mult) (laneWith m nan x p).t4 := by
  obtain ⟨hmult, -, hone, -, hzmult⟩ := contractExcludesDivisionByZero m p hp
  obtain ⟨hadd, -, -⟩ := add_of_inContract hp
  obtain ⟨hadd0, hadd22⟩ := condition_add_of_inContract (m := m) hp
  have hreadMult := condition_mult_of_inContract (m := m) hp
  have hbound {w : Word} (hw : isFinite32 w = true) :
      |value32 w + value32 (condition m p.add)| < 2 ^ 128 - 2 ^ 103 ∧
        |value32 w - value32 (condition m p.add)| < 2 ^ 128 - 2 ^ 103 := by
    have hmax := abs_value32_le_fMax hw
    rw [value32_fMax] at hmax
    obtain ⟨hlo, hhi⟩ := abs_le.mp hmax
    exact ⟨abs_lt.mpr ⟨by linarith, by linarith⟩, abs_lt.mpr ⟨by linarith, by linarith⟩⟩
  have h1 : RoundsInRange m (value32 (condition m x) * value32 p.mult) (laneWith m nan x p).t1 := by
    have := fmul32_roundsInRange (m := m) (nan := nan 0) hx hmult
    rw [hreadMult, abs_mul, abs_of_nonneg (zero_le_one.trans hone)] at this
    exact this ((mul_le_mul_of_nonneg_right (abs_value32_condition_le m x) (by linarith)).trans_lt h)
  have h2 : RoundsInRange m (value32 (laneWith m nan x p).t1 + value32 (condition m p.add)) (laneWith m nan x p).t2 := by
    have := fadd32_roundsInRange (m := m) (nan := nan 1) h1.finite hadd
    rw [h1.condition_eq] at this
    exact this (hbound h1.finite).left
  have h3 : RoundsInRange m (value32 (laneWith m nan x p).t2 - value32 (condition m p.add)) (laneWith m nan x p).t3 := by
    have := fsub32_roundsInRange (m := m) (nan := nan 2) h2.finite hadd
    rw [h2.condition_eq] at this
    exact this (hbound h2.finite).right
  refine ⟨h1, h2, h3, ?_⟩
  have := fdiv32_roundsInRange (m := m) (nan := nan 3) h3.finite hmult hzmult
  rw [h3.condition_eq, hreadMult, abs_div, abs_of_nonneg (zero_le_one.trans hone)] at this
  exact this ((div_le_self (abs_nonneg _) hone).trans_lt (abs_value32_lt_threshold h3.finite))

/-- The way out through `t2` and back leaves the sample's side of zero only to zero. -/
theorem laneWith_t4_sign (hp : p.inContract = true) (hx : isFinite32 x = true)
    (h : |value32 x| * value32 p.mult < 2 ^ 128 - 2 ^ 103) :
    (0 ≤ value32 (condition m x) → 0 ≤ value32 (laneWith m nan x p).t4) ∧
      (value32 (condition m x) ≤ 0 → value32 (laneWith m nan x p).t4 ≤ 0) := by
  obtain ⟨-, -, hone, -, -⟩ := contractExcludesDivisionByZero m p hp
  obtain ⟨h1, h2, h3, h4⟩ := laneWith_roundsInRange (m := m) (nan := nan) hp hx h
  have hadd : isFinite32 (condition m p.add) = true := by
    rw [isFinite32_condition]
    exact (add_of_inContract hp).left
  have hreadAdd := condition_condition m p.add
  have hzero : value32 fZero = 0 := value32_of_isZero32 rfl
  have hmult : 0 ≤ value32 p.mult := zero_le_one.trans hone
  refine ⟨fun hpos => ?_, fun hneg => ?_⟩
  · have h1' := h1.ge_of_ge (b := fZero) rfl (condition_fZero m) (by rw [hzero]; exact mul_nonneg hpos hmult)
    have h2' := h2.ge_of_ge hadd hreadAdd (by linarith)
    have h3' := h3.ge_of_ge (b := fZero) rfl (condition_fZero m) (by linarith)
    rw [hzero] at h3'
    have h4' := h4.ge_of_ge (b := fZero) rfl (condition_fZero m) (by rw [hzero]; exact div_nonneg h3' hmult)
    rwa [hzero] at h4'
  · have h1' := h1.le_of_le (b := fZero) rfl (condition_fZero m)
      (by rw [hzero]; exact mul_nonpos_of_nonpos_of_nonneg hneg hmult)
    have h2' := h2.le_of_le hadd hreadAdd (by linarith)
    have h3' := h3.le_of_le (b := fZero) rfl (condition_fZero m) (by linarith)
    rw [hzero] at h3'
    have h4' := h4.le_of_le (b := fZero) rfl (condition_fZero m)
      (by rw [hzero]; exact div_nonpos_of_nonpos_of_nonneg h3' hmult)
    rwa [hzero] at h4'

/-- R96, R97: inside the contract a finite sample whose product does not overflow gives finite words up to `t5`; the residue is a
difference of two words on one side of zero. -/
theorem laneWith_finiteUpToT5 (hp : p.inContract = true) (hx : isFinite32 x = true)
    (h : |value32 x| * value32 p.mult < 2 ^ 128 - 2 ^ 103) : (laneWith m nan x p).finiteUpToT5 := by
  obtain ⟨h1, h2, h3, h4⟩ := laneWith_roundsInRange (m := m) (nan := nan) hp hx h
  obtain ⟨hpos, hneg⟩ := laneWith_t4_sign (m := m) (nan := nan) hp hx h
  refine ⟨h1.finite, h2.finite, h3.finite, h4.finite, ?_⟩
  rw [laneWith_t5]
  split
  · obtain ⟨h4lo, h4hi⟩ := abs_lt.mp (abs_value32_lt_threshold h4.finite)
    obtain ⟨hxlo, hxhi⟩ := abs_lt.mp (abs_value32_lt_threshold (hx ▸ isFinite32_condition m x))
    refine (fsub32_roundsInRange h4.finite hx ?_).finite
    rw [h4.condition_eq, abs_lt]
    obtain hside | hside := le_total 0 (value32 (condition m x))
    · have := hpos hside
      constructor <;> linarith
    · have := hneg hside
      constructor <;> linarith
  · exact h4.finite

/-! ## Infinite samples, and the neutral parameters -/

/-- An infinite `t1` passes the next three stages as it is. -/
theorem laneWith_t4_eq_t1_of_inf (hmult : isFinite32 p.mult = true) (hsign : signBit p.mult = false)
    (hadd : isFinite32 p.add = true) (h : isInf32 (laneWith m nan x p).t1 = true) :
    (laneWith m nan x p).t4 = (laneWith m nan x p).t1 := by
  obtain ⟨hnadd, hiadd⟩ := not_nan_inf_of_finite hadd
  have h2 : (laneWith m nan x p).t2 = (laneWith m nan x p).t1 := fadd32_inf h hnadd (by simp [hiadd])
  have h3 : (laneWith m nan x p).t3 = (laneWith m nan x p).t1 := by rw [laneWith_t3, h2, fsub32_inf h hadd]
  rw [laneWith_t4, h3, fdiv32_inf h hmult, hsign, Bool.bne_false, ← eq_infOf_of_isInf32 h]

/-- Inside the contract an infinite sample passes the first four stages as it is (R90). -/
theorem laneWith_t4_of_inf (hp : p.inContract = true) (hx : isInf32 x = true) : (laneWith m nan x p).t4 = x := by
  obtain ⟨hmult, hnmult, -, -, hzmult⟩ := contractExcludesDivisionByZero m p hp
  obtain ⟨hadd, -, -⟩ := add_of_inContract hp
  have hsign := signBit_mult_of_inContract hp
  have h1 : (laneWith m nan x p).t1 = x := by
    rw [laneWith_t1, fmul32_inf hx hnmult hzmult, hsign, Bool.bne_false, ← eq_infOf_of_isInf32 hx]
  rw [laneWith_t4_eq_t1_of_inf hmult hsign hadd (by rwa [h1]), h1]

/-- With multiply amount 1 and add amount `+0` the stages pass a finite sample on as the mode reads it, but that the addition
makes `+0` of a zero (R94). -/
theorem laneWith_t4_of_neutral (hmult : p.mult = fOne) (hadd : p.add = fZero) (hx : isFinite32 x = true) :
    (laneWith m nan x p).t4 = if isZero32 (condition m x) then fZero else condition m x := by
  obtain ⟨w, hw⟩ : ∃ w, w = if isZero32 (condition m x) then fZero else condition m x := ⟨_, rfl⟩
  have hnx := (not_nan_inf_of_finite hx).left
  have hnw : isNaN32 w = false := by
    rw [hw]
    split
    · rfl
    · rwa [isNaN32_condition]
  have hread : condition m w = w := by rw [hw, apply_ite (condition m), condition_fZero, condition_condition]
  have h1 : (laneWith m nan x p).t1 = condition m x := by rw [laneWith_t1, hmult, fmul32_fOne hnx]
  have h2 : (laneWith m nan x p).t2 = w := by
    rw [laneWith_t2, h1, hadd, fadd32_fZero (by rwa [isNaN32_condition]), condition_condition, hw]
  have h3 : (laneWith m nan x p).t3 = w := by rw [laneWith_t3, h2, hadd, fsub32_fZero hnw, hread]
  rw [laneWith_t4, h3, hmult, fdiv32_fOne hnw, hread, hw]

/-! ## Nominal samples and the largest add amount (R99) -/

theorem abs_mul_mult_le_of_nominal (hp : p.inContract = true) (hx : IsNominal x) :
    |value32 x| * value32 p.mult ≤ 1024 := by
  obtain ⟨-, -, hone, h1024, -⟩ := contractExcludesDivisionByZero .ieee p hp
  calc |value32 x| * value32 p.mult ≤ 1 * 1024 := mul_le_mul hx.right h1024 (by linarith) zero_le_one
    _ = 1024 := one_mul _

theorem laneWith_t1_of_nominal (hp : p.inContract = true) (hx : IsNominal x) :
    isFinite32 (laneWith m nan x p).t1 = true ∧ |value32 (laneWith m nan x p).t1| ≤ 1024 := by
  obtain ⟨-, -, hone, -, -⟩ := contractExcludesDivisionByZero m p hp
  have hprod := abs_mul_mult_le_of_nominal hp hx
  obtain ⟨h1, -, -, -⟩ := laneWith_roundsInRange (m := m) (nan := nan) hp hx.left (by linarith)
  rw [← value32_f1024] at hprod ⊢
  refine ⟨h1.finite, h1.abs_le_of_abs_le rfl (by cases m <;> rfl) ?_⟩
  rw [abs_mul, abs_of_nonneg (zero_le_one.trans hone)]
  exact (mul_le_mul_of_nonneg_right (abs_value32_condition_le m x) (by linarith)).trans hprod

/-- At the largest add amount the exact sum, and so `t2`, lies between two words on either side of 2^22. -/
theorem laneWith_t2_of_largest_add (hp : p.inContract = true) (hx : IsNominal x) (hadd : p.add = f4M) :
    RoundsInRange m (value32 (laneWith m nan x p).t1 + 2 ^ 22) (laneWith m nan x p).t2 ∧
      (2 : Rat) ^ 22 - 1024 ≤ value32 (laneWith m nan x p).t2 ∧ value32 (laneWith m nan x p).t2 ≤ 2 ^ 22 + 1024 := by
  have hprod := abs_mul_mult_le_of_nominal hp hx
  obtain ⟨-, ht1⟩ := laneWith_t1_of_nominal (m := m) (nan := nan) hp hx
  obtain ⟨hlo, hhi⟩ := abs_le.mp ht1
  obtain ⟨-, h2, -, -⟩ := laneWith_roundsInRange (m := m) (nan := nan) hp hx.left (by linarith)
  have hread : condition m f4M = f4M := by cases m <;> rfl
  rw [hadd, hread, value32_f4M] at h2
  have hbelow : value32 0x4A7FF000#32 = 2 ^ 22 - 1024 := by decide +kernel
  have habove : value32 0x4A800800#32 = 2 ^ 22 + 1024 := by decide +kernel
  rw [← hbelow, ← habove]
  exact ⟨h2, h2.ge_of_ge rfl (by cases m <;> rfl) (by rw [hbelow]; linarith),
    h2.le_of_le rfl (by cases m <;> rfl) (by rw [habove]; linarith)⟩

end

end Sys2Proof.Machine
end

section
/-! The obligations of the distortion path (41_distortion_path). -/

namespace Sys2Proof.Machine

/-- Settles O38: the three cases of a clamp, and the two clamp stages as instances of them. -/
theorem clampsSaturate : Obligations.ClampsSaturate := by
  refine ⟨fun m v lo hi hlo hhi hle => ⟨clampF_nan, fun hv => ⟨clampF_below hlo hv, clampF_above hlo hhi hle hv,
    clampF_inside hlo hhi hv⟩⟩, fun m t => ?_, fun m w => ?_⟩
  · exact ⟨clampF_nan, fun ht => ⟨stageClamp_above ht, stageClamp_below ht, stageClamp_inside ht⟩, by cases m <;> rfl,
      by cases m <;> rfl⟩
  · refine ⟨clampF_nan, fun hw => ⟨fun h => ?_, fun h => ?_, fun hlo hhi => ?_⟩, by cases m <;> rfl, by cases m <;> rfl⟩
    · refine clampF_below rfl hw ?_
      rwa [condition_fZero]
    · refine clampF_above rfl rfl valueExt_fZero_le_fOne hw ?_
      rwa [condition_of_one_lt m (.inl h), condition_fOne]
    · refine clampF_inside rfl rfl hw ?_ (valueExt_condition_mono m hhi)
      rwa [condition_fZero]

/-- Settles O39: each branch of a primitive answers the supplied NaN or a word that is none. -/
theorem naNResultIsAnyNaN : Obligations.NaNResultIsAnyNaN := by
  have only {nan r : Word} (h : r = nan ∨ isNaN32 r = false) (hr : isNaN32 r = true) : r = nan :=
    h.resolve_right (by simp [hr])
  exact ⟨isNaN32_nanDraw, isNaN32_nanOf, fun w hw => ⟨w, nanOf_self hw⟩,
    fun m nan a b => ⟨only addCases_nan_or_not_nan, only addCases_nan_or_not_nan, only mulCases_nan_or_not_nan,
      only divCases_nan_or_not_nan⟩,
    fun t5 x h => if_neg (by simp [h]), fun m v lo hi => clampF_nan⟩

/-- Settles O41: the lane is this composition by definition, and the example is computed. -/
theorem laneIsTheStagesInOrder : Obligations.LaneIsTheStagesInOrder := by
  refine ⟨?_, fun m nan => ?_⟩
  · rintro m nan x p _ _ rfl rfl
    exact ⟨rfl, rfl, rfl, rfl, rfl, rfl, rfl, rfl⟩
  · have ht : stageWClamp m 0x3F000000#32 = 0x3F000000#32 := by cases m <;> rfl
    have homt : fsub32 m (nan 0) fOne 0x3F000000#32 = 0x3F000000#32 := by cases m <;> rfl
    have hd : fmul32 m (nan 1) 0x3F000000#32 0x3F000000#32 = 0x3E800000#32 := by cases m <;> rfl
    have he : fmul32 m (nan 2) 0x3F000000#32 0x3E800000#32 = 0x3E000000#32 := by cases m <;> rfl
    have hy : fadd32 m (nan 3) 0x3E800000#32 0x3E000000#32 = 0x3EC00000#32 := by cases m <;> rfl
    simp only [xfadeWords, ht, homt, hd, he, hy]

/-- Settles O42: R18's cases at 1, at a zero and at an infinity; only words the mode reads as they are can overflow, and from the
infinite `t1` on no stage makes a finite word. -/
theorem stageMulCorners : Obligations.StageMulCorners := by
  refine fun m nan x mu => ⟨rfl, fmul32_fOne, fun hx hmu => ?_, fun hx hmu h => ⟨?_, fun nan' p hnan hp => ?_⟩,
    fmul32_nan, fun hx hmu => ?_, by cases m <;> rfl⟩
  · rw [← zeroOf_eq_ite, stageMul, fmul32, condition_of_isZero32 m hx, mulCases_zero (isFinite32_of_isZero32 hx)
      (by rwa [isFinite32_condition]) (.inl hx), signBit_condition]
  · rw [← infOf_eq_ite]
    exact fmul32_overflow hx hmu h
  · subst hp
    rw [laneWith_t6, stageFinite_of_not_finite (laneWith_t5_not_finite_of_overflow hnan hmu hx h)]
  · rw [stageMul, fmul32, condition_of_isInf32 m hx, condition_of_isZero32 m hmu, mulCases_inf_zero (.inl ⟨hx, hmu⟩)]

/-- Settles O43: R17's cases at `+0` and at an infinity; the grids are those of all words of such a magnitude. -/
theorem stageAddCorners : Obligations.StageAddCorners := by
  refine fun m nan t1 a => ⟨rfl, fadd32_fZero, fun _ => ⟨fun hlo _ => ?_, fun hlo _ => ?_⟩, fadd32_inf, fadd32_nan,
    by cases m <;> rfl⟩
  · obtain ⟨k, hk⟩ := exists_grid_multiple (w := stageAdd m nan t1 a) 148 (by linarith)
    exact ⟨k, by rw [hk]; ring⟩
  · obtain ⟨k, hk⟩ := exists_grid_multiple (w := stageAdd m nan t1 a) 145 (by linarith)
    exact ⟨k, by rw [hk]; ring⟩

/-- Settles O44: a difference within a factor of two is a value; after R87's addition both operands lie on a coarse grid. -/
theorem stageSubCorners : Obligations.StageSubCorners :=
  fun m _ _ _ _ _ => ⟨rfl, fun ht ha => value32_fsub32_of_factor_two ht ha,
    fun ha hbig ht hsmall => value32_fsub32_fadd32 ht hsmall ha hbig, fsub32_self, fsub32_inf, fsub32_nan,
    by cases m <;> rfl⟩

/-- Settles O45: R19's cases at 1, at a zero and at an infinity, and a sample that times 3 and over 3 is another word. -/
theorem stageDivCorners : Obligations.StageDivCorners := by
  rintro m nan t3 mu _ rfl
  rw [← infOf_eq_ite, ← zeroOf_eq_ite]
  refine ⟨rfl, fdiv32_fOne, ?_, fdiv32_inf, fun ht hmu => ?_, fun ht hmu => ?_, fun ht hmu => ?_, by cases m <;> rfl⟩
  · have hmul : stageMul m nan 0x3F5EDD42#32 0x40400000#32 = 0x402725F2#32 := by cases m <;> rfl
    have hdiv : stageDiv m nan 0x402725F2#32 0x40400000#32 = 0x3F5EDD43#32 := by cases m <;> rfl
    rw [hmul, hdiv]
    decide
  · rw [stageDiv, fdiv32, condition_of_isZero32 m hmu, ← signBit_condition m]
    obtain hi | hz | ⟨hf, hz⟩ := cases_of_not_nan ((isNaN32_condition m t3).trans ht)
    · rw [isZero32_of_isInf32 hi, divCases_inf_finite hi (isFinite32_of_isZero32 hmu)]
      rfl
    · rw [if_pos hz, divCases_zero_zero hz hmu]
    · rw [divCases_finite hf (isFinite32_of_isZero32 hmu) (by simp [hz]), hmu, hz]
      rfl
  · rw [stageDiv, fdiv32, condition_of_isInf32 m hmu, divCases_finite_inf (by rwa [isFinite32_condition]) hmu,
      signBit_condition]
  · rw [stageDiv, fdiv32, condition_of_isInf32 m ht, condition_of_isInf32 m hmu, divCases_inf_inf ht hmu]

/-- Settles O46: equal finite words cancel, and an infinite sample comes back to itself as `t4`, so that its residue is the NaN
that R91 replaces. -/
theorem stageResidueCorners : Obligations.StageResidueCorners := by
  refine fun m nan t4 x => ⟨rfl, rfl, fsub32_self, fun hx => ?_,
    fun hx => ⟨fsub32_inf_self hx, fun nan' p hnan hp hres => ?_⟩, by cases m <;> rfl⟩
  · exact fsub32_zero_left (isFinite32_of_isZero32 hx) (by rwa [condition_of_isZero32 m hx])
  · have h4 := laneWith_t4_of_inf (m := m) (nan := nan') hp hx
    have h5 : isNaN32 (laneWith m nan' x p).t5 = true := by
      rw [laneWith_t5, if_pos hres, h4, fsub32_inf_self hx]
      exact hnan 4
    exact ⟨h4, h5, by rw [laneWith_t6, stageFinite_of_not_finite (not_finite_of_nan h5)]⟩

/-- Settles O47: `t6` is a finite word or the sample, and the clamp makes a nominal word of all but a NaN. -/
theorem safetyNetAndRange : Obligations.SafetyNetAndRange := by
  refine ⟨fun t5 x => ⟨stageFinite_of_finite, stageFinite_of_not_finite⟩, fun m nan x p _ => ?_,
    fun m nan wet => ?_⟩
  · rw [laneWith_t7, laneWith_t6]
    cases hf : isFinite32 (laneWith m nan x p).t5
    · rw [stageFinite_of_not_finite hf]
      cases hx : isNaN32 x
      · exact .inl (isNominal_stageClamp hx)
      · exact .inr ⟨by rwa [stageClamp, clampF_nan hx], rfl⟩
    · rw [stageFinite_of_finite hf]
      exact .inl (isNominal_stageClamp (not_nan_inf_of_finite hf).left)
  · obtain ⟨l, hl⟩ : ∃ l, l = laneWith m nan 0x7F000000#32 ⟨wet, fZero, 0x44800000#32, false⟩ := ⟨_, rfl⟩
    have h1 : l.t1 = fInf := by
      have hmul : fmul32 m (nan 0) 0x7F000000#32 f1024 = fInf := by cases m <;> rfl
      rw [hl, laneWith_t1, hmul]
    have h5 : l.t5 = fInf := by
      rw [← h1, hl]
      have hmult : isFinite32 f1024 = true := by decide
      have hsign : signBit f1024 = false := by decide
      have hadd : isFinite32 fZero = true := by decide
      exact laneWith_t4_eq_t1_of_inf hmult hsign hadd (by rw [← hl, h1]; rfl)
    rw [← hl]
    exact ⟨h5, by rw [hl, laneWith_t6, ← hl, h5, stageFinite_of_not_finite (by decide)]⟩

/-- Settles O48: at 1 and `+0` each stage passes its operand on as the mode reads it, but that the addition makes `+0` of a
zero; the residue of that word cancels. -/
theorem neutralParametersAreIdentity : Obligations.NeutralParametersAreIdentity := by
  refine fun m nan x wet rs hnan => ⟨fun hx => ?_, fun hx => ?_⟩
  · have h5 : (laneWith m nan x ⟨wet, fZero, fOne, true⟩).t5 = fZero := by
      rw [laneWith_t5, if_pos rfl, laneWith_t4_of_neutral rfl rfl hx]
      split
      · next hz => exact fsub32_zero_left hx hz
      · exact fsub32_cancel (by rwa [isFinite32_condition]) hx (by rw [condition_condition])
          fun h => by rwa [signBit_condition] at h
    refine ⟨laneWith_t4_of_neutral rfl rfl hx, h5, ?_⟩
    rw [laneWith_t7, laneWith_t6, h5, stageFinite_of_finite (by decide)]
    cases m <;> rfl
  · have hmult : isFinite32 fOne = true := by decide
    rw [laneWith_t6, stageFinite_of_not_finite]
    exact laneWith_t5_not_finite_of_sample hnan hmult hx

/-- Settles O49: below overflow every word up to `t5` is finite; a non-finite sample and an infinite product leave none. -/
theorem fallbackFiresExactlyOnOverflow : Obligations.FallbackFiresExactlyOnOverflow := by
  intro m nan x p hnan hp
  obtain ⟨hmult, -, hone, h1024, -⟩ := contractExcludesDivisionByZero m p hp
  refine ⟨fun hx hsmall => ?_, fun h5 => ?_, ?_⟩
  · have hfin : (laneWith m nan x p).finiteUpToT5 := by
      refine laneWith_finiteUpToT5 hp hx ?_
      calc |value32 x| * value32 p.mult ≤ 2 ^ 100 * 1024 := mul_le_mul hsmall h1024 (by linarith) (by positivity)
        _ < 2 ^ 128 - 2 ^ 103 := by norm_num
    obtain ⟨-, -, -, -, h5⟩ := id hfin
    exact ⟨hfin, by rw [laneWith_t6, stageFinite_of_finite h5]⟩
  · by_contra hnone
    obtain ⟨hx, hlt⟩ := not_or.mp hnone
    obtain ⟨-, -, -, -, hfin5⟩ := laneWith_finiteUpToT5 (m := m) (nan := nan) hp (by simpa using hx) (not_le.mp hlt)
    simp [h5] at hfin5
  · rintro (hx | hover)
    · exact laneWith_t5_not_finite_of_sample hnan hmult hx
    · cases hx : isFinite32 x
      · exact laneWith_t5_not_finite_of_sample hnan hmult hx
      · exact laneWith_t5_not_finite_of_overflow hnan hmult hx hover

/-- Settles O50: the exact sum lies between two words on either side of 2^22, and within 1/4 of a multiple of 1/2,
which is a word. -/
theorem largestAddQuantises : Obligations.LargestAddQuantises := by
  rintro m nan x p l hx hp hadd rfl
  obtain ⟨hfin, ht1⟩ := laneWith_t1_of_nominal (m := m) (nan := nan) hp hx
  obtain ⟨h2, ht2lo, ht2hi⟩ := laneWith_t2_of_largest_add (m := m) (nan := nan) hp hx hadd
  have ht3 : value32 (laneWith m nan x p).t3 = value32 (laneWith m nan x p).t2 - 2 ^ 22 := by
    rw [laneWith_t3, laneWith_t2, hadd, ← value32_f4M]
    exact value32_fsub32_fadd32 hfin ht1 rfl (by rw [value32_f4M]; norm_num)
  refine ⟨ht1, ht2lo, ht2hi, ht3, ?_, ?_⟩
  · obtain ⟨k, hk⟩ := exists_grid_multiple (w := (laneWith m nan x p).t2) 147 (by rw [abs_of_pos] <;> linarith)
    refine ⟨k - 2 ^ 24, ?_⟩
    rw [ht3, hk]
    push_cast
    ring
  · obtain ⟨hlo, hhi⟩ := abs_le.mp ht1
    obtain ⟨u, hu, hnear⟩ := exists_word_near_of_le (r := value32 (laneWith m nan x p).t1 + 2 ^ 22)
      (by rw [abs_of_pos] <;> linarith)
    rw [ht3, sub_sub, add_comm (2 ^ 22 : Rat), abs_sub_comm]
    exact (h2.abs_sub_le (by linarith) hu).trans hnear

end Sys2Proof.Machine
end

section
/-! SUPPORT. Roundings near a power of two: the word of one up to 1 is what every exact result within a quarter of its spacing
rounds to (00_scope R15). -/

namespace Sys2Proof.Machine

/-- Below a power of two the words are half as far apart as above it, and no other word is nearer to it than that. -/
theorem pow_two_gap {p u : Word} {j : Nat} (hp : value32 p = 2 ^ (j + 24) / 2 ^ 149) (hne : value32 u ≠ value32 p) :
    (2 : Rat) ^ j / 2 ^ 149 ≤ |value32 u - value32 p| := by
  have hspacing : (0 : Rat) < 2 ^ j / 2 ^ 149 := by positivity
  have hp' : value32 p = 2 ^ 24 * (2 ^ j / 2 ^ 149) := by rw [hp]; ring
  by_cases hbig : (2 : Rat) ^ (j + 23) / 2 ^ 149 ≤ value32 u
  · obtain ⟨k, hk⟩ := exists_grid_multiple j (hbig.trans (le_abs_self _))
    have hk0 : k - 2 ^ 24 ≠ 0 := fun h => hne (by rw [hk, hp', sub_eq_zero.mp h]; norm_num)
    have hone : (1 : Rat) ≤ |(k : Rat) - 2 ^ 24| := by exact_mod_cast Int.one_le_abs hk0
    rw [hk, hp', ← sub_mul, abs_mul, abs_of_pos hspacing]
    exact le_mul_of_one_le_left hspacing.le hone
  · have hlow : value32 u < 2 ^ 23 * (2 ^ j / 2 ^ 149) := (not_le.mp hbig).trans_eq (by ring)
    rw [abs_sub_comm, hp']
    exact le_trans (by linarith) (le_abs_self _)

/-- R102's tie: at half the smaller spacing the even fraction field of the power of two decides. -/
theorem rounds_pow_two {m : SubnormalMode} {p : Word} {j : Nat} {r : Rat} (hp : value32 p = 2 ^ (j + 24) / 2 ^ 149)
    (hfin : isFinite32 p = true) (heven : fracField p % 2 = 0) (hread : condition m p = p) (hone : value32 p ≤ 1)
    (h : |r - value32 p| ≤ 2 ^ j / 2 ^ 149 / 2) : Rounds m r p := by
  have hspacing : (0 : Rat) < 2 ^ j / 2 ^ 149 := by positivity
  have hp' : value32 p = 2 ^ 24 * (2 ^ j / 2 ^ 149) := by rw [hp]; ring
  obtain ⟨hlo, hhi⟩ := abs_le.mp h
  have hr : 0 < r := by linarith
  have hsign : signBit p = decide (r < 0) := by
    have hz : isZero32 p = false := Bool.eq_false_iff.mpr fun hz => by rw [value32_of_isZero32 hz] at hp'; linarith
    rw [signBit_eq_decide_value32 hz, decide_eq_decide]
    constructor <;> intro <;> linarith
  rw [Rounds, if_neg (not_le.mpr (by rw [abs_of_pos hr]; linarith))]
  refine ⟨p, ⟨hfin, hsign, fun u _ => ⟨?_, fun _ _ => heven⟩⟩, ?_⟩
  · by_cases hu : value32 u = value32 p
    · rw [hu]
    · have hgap := pow_two_gap hp hu
      have htri := abs_sub_le (value32 u) r (value32 p)
      rw [abs_sub_comm (value32 u) r] at htri
      linarith
  · cases m with
    | ieee => simp
    | ftzDaz => simpa [condition] using hread.symm

theorem value32_half : value32 0x3F000000#32 = 1 / 2 := by decide +kernel

theorem rounds_fOne {m : SubnormalMode} {r : Rat} (h : |r - 1| ≤ 1 / 2 ^ 25) : Rounds m r fOne := by
  have hone := value32_fOne
  exact rounds_pow_two (j := 125) (by rw [hone]; norm_num) rfl rfl (condition_fOne m) hone.le
    (by rw [hone]; exact h.trans (by norm_num))

theorem rounds_half {m : SubnormalMode} {r : Rat} (h : |r - 1 / 2| ≤ 1 / 2 ^ 26) : Rounds m r 0x3F000000#32 := by
  have hhalf := value32_half
  exact rounds_pow_two (j := 124) (by rw [hhalf]; norm_num) rfl rfl (by cases m <;> rfl) (by rw [hhalf]; norm_num)
    (by rw [hhalf]; exact h.trans (by norm_num))

/-- No word lies nearer to 1 than 2^-24, save 1. -/
theorem gap_fOne {u : Word} (hne : value32 u ≠ 1) : 1 / 2 ^ 24 ≤ |value32 u - 1| := by
  rw [← value32_fOne] at hne
  have hgap := pow_two_gap (j := 125) (by rw [value32_fOne]; norm_num) hne
  rw [value32_fOne] at hgap
  exact le_trans (by norm_num) hgap

/-- Above 1 the words are 2^-23 apart, so that up to 1 + 2^-25 a number rounds to no more than 1. -/
theorem RoundsInRange.le_one {m : SubnormalMode} {r : Rat} {w : Word} (h : RoundsInRange m r w)
    (hr : r ≤ 1 + 1 / 2 ^ 25) : value32 w ≤ 1 := by
  by_contra hgt
  have hgt := not_le.mp hgt
  have hnear := h.abs_sub_le (by linarith) (u := fOne) rfl
  obtain ⟨k, hk⟩ := exists_grid_multiple (w := w) 126 (by rw [abs_of_pos] <;> linarith)
  have hk23 : (2 : Rat) ^ 23 + 1 ≤ k := by
    have : (2 : Rat) ^ 23 < k := by linarith
    exact_mod_cast this
  rw [value32_fOne, abs_sub_comm, abs_of_nonneg (by linarith)] at hnear
  obtain habs | habs := abs_cases (r - 1) <;> linarith

theorem RoundsInRange.abs_le_one {m : SubnormalMode} {r : Rat} {w : Word} (h : RoundsInRange m r w)
    (hr : |r| ≤ 1 + 1 / 2 ^ 25) : |value32 w| ≤ 1 := by
  obtain ⟨hlo, hhi⟩ := abs_le.mp hr
  have hneg := h.neg.le_one (by linarith)
  rw [value32_negate] at hneg
  exact abs_le.mpr ⟨by linarith, h.le_one hhi⟩

/-- Every number of magnitude up to 1 lies within 2^-25 of a word, a multiple of 2^-24. -/
theorem exists_word_near_of_le_one {r : Rat} (hr : |r| ≤ 1) : ∃ u, isFinite32 u = true ∧ |r - value32 u| ≤ 1 / 2 ^ 25 := by
  have hround := abs_sub_round (2 ^ 24 * r)
  generalize round (2 ^ 24 * r) = z at hround
  obtain ⟨hlo, hhi⟩ := abs_le.mp hround
  obtain ⟨hrlo, hrhi⟩ := abs_le.mp hr
  have hz : z.natAbs ≤ 2 ^ 24 := by
    have hzlo : -(2 : Rat) ^ 24 - 1 < z := by linarith
    have hzhi : (z : Rat) < 2 ^ 24 + 1 := by linarith
    have : -2 ^ 24 - 1 < z := by exact_mod_cast hzlo
    have : z < 2 ^ 24 + 1 := by exact_mod_cast hzhi
    omega
  have hlt : z.natAbs * 2 ^ 125 < 2 ^ 277 := by
    refine (Nat.mul_le_mul_right _ hz).trans_lt ?_
    rw [← pow_add]
    exact pow_lt_pow_right₀ one_lt_two (by omega)
  obtain ⟨u, hu, hval⟩ := exists_word_of_units hz hlt
  refine ⟨u, hu, ?_⟩
  rw [hval, abs_le]
  constructor <;> linarith

end Sys2Proof.Machine
end

section
/-! SUPPORT. The two weights of the crossfader, `omt` and `T` (42_crossfader_frame R100 to R102). -/

namespace Sys2Proof.Machine

/-- The mode reads the word as a value in [0, 1]. Every fraction is such a word, and so is a negative subnormal under FTZ_DAZ, which
the clamp passes on as it is (R100). -/
def IsWeight (m : SubnormalMode) (t : Word) : Prop :=
  isFinite32 t = true ∧ 0 ≤ value32 (condition m t) ∧ value32 (condition m t) ≤ 1

theorem isWeight_iff_valueExt {m : SubnormalMode} {t : Word} :
    IsWeight m t ↔ isNaN32 t = false ∧ valueExt fZero ≤ valueExt (condition m t) ∧
      valueExt (condition m t) ≤ valueExt fOne := by
  cases hi : isInf32 t
  · have hic : isInf32 (condition m t) = false := by rwa [isInf32_condition]
    have hfin : isFinite32 t = true ↔ isNaN32 t = false := by
      obtain ⟨hf, -, hn⟩ | ⟨-, h, -⟩ | ⟨hf, -, hn⟩ := class_cases t
      · simp [hf, hn]
      · simp [hi] at h
      · simp [hf, hn]
    rw [IsWeight, hfin, valueExt_le_iff rfl hic, valueExt_le_iff hic rfl, value32_fOne, value32_of_isZero32 (w := fZero) rfl]
  · have houtside : ∀ s, ¬(valueExt fZero ≤ valueExt (infOf s) ∧ valueExt (infOf s) ≤ valueExt fOne) := by
      decide +kernel
    refine iff_of_false (fun ⟨hfin, _⟩ => by simp [not_finite_of_inf hi] at hfin) fun ⟨_, h⟩ => ?_
    rw [condition_of_isInf32 m hi, eq_infOf_of_isInf32 hi] at h
    exact houtside _ h

theorem IsFraction.isWeight {t : Word} (ht : IsFraction t) (m : SubnormalMode) : IsWeight m t := by
  obtain ⟨hfin, h0, h1⟩ := ht
  refine ⟨hfin, ?_⟩
  obtain h | ⟨-, -, h⟩ := value32_condition_cases m t
  · rw [h]
    exact ⟨h0, h1⟩
  · rw [h]
    norm_num

theorem isWeight_fOne (m : SubnormalMode) : IsWeight m fOne :=
  ⟨rfl, by rw [condition_fOne, value32_fOne]; norm_num⟩

theorem isWeight_of_isZero32 (m : SubnormalMode) {t : Word} (h : isZero32 t = true) : IsWeight m t :=
  IsFraction.isWeight ⟨isFinite32_of_isZero32 h, by rw [value32_of_isZero32 h]; norm_num⟩ m

/-- The clamp of the fraction passes a weight on bit for bit (R100). -/
theorem stageWClamp_of_isWeight {m : SubnormalMode} {w : Word} (hw : IsWeight m w) : stageWClamp m w = w := by
  obtain ⟨hnan, hlo, hhi⟩ := isWeight_iff_valueExt.mp hw
  exact clampF_inside rfl rfl hnan (by rwa [condition_fZero]) (by rwa [condition_fOne])

/-- The clamp of the fraction makes a weight of every word but a NaN (R100). -/
theorem isWeight_stageWClamp (m : SubnormalMode) {w : Word} (hw : isNaN32 w = false) : IsWeight m (stageWClamp m w) := by
  obtain hbelow | hlo := lt_or_ge (valueExt (condition m w)) (valueExt fZero)
  · rw [stageWClamp, clampF_below rfl hw (by rwa [condition_fZero])]
    exact isWeight_of_isZero32 m rfl
  obtain habove | hhi := lt_or_ge (valueExt fOne) (valueExt (condition m w))
  · rw [stageWClamp, clampF_above rfl rfl valueExt_fZero_le_fOne hw (by rwa [condition_fOne])]
    exact isWeight_fOne m
  · have hweight := isWeight_iff_valueExt.mpr ⟨hw, hlo, hhi⟩
    rwa [stageWClamp_of_isWeight hweight]

/-! ## The dry weight -/

section
variable {m : SubnormalMode} {nan nan' t : Word}

theorem dryWeight_roundsInRange (ht : IsWeight m t) :
    RoundsInRange m (1 - value32 (condition m t)) (fsub32 m nan fOne t) := by
  obtain ⟨hfin, h0, h1⟩ := ht
  have h := fsub32_roundsInRange (m := m) (nan := nan) (a := fOne) rfl hfin
  rw [condition_fOne, value32_fOne] at h
  exact h (abs_lt.mpr ⟨by linarith, by linarith⟩)

theorem dryWeight_isWeight (ht : IsWeight m t) : IsWeight m (fsub32 m nan fOne t) := by
  have h := dryWeight_roundsInRange (nan := nan) ht
  obtain ⟨-, h0, h1⟩ := ht
  have hzero : value32 fZero = 0 := value32_of_isZero32 rfl
  have hge := h.ge_of_ge (b := fZero) rfl (condition_fZero m) (by rw [hzero]; linarith)
  rw [hzero] at hge
  exact ⟨h.finite, by rwa [h.condition_eq], by rw [h.condition_eq]; exact h.le_one (by linarith)⟩

/-- A weight below 1 leaves a dry weight of 2^-24 or more. -/
theorem dryWeight_pos (ht : IsWeight m t) (hne : value32 (condition m t) ≠ 1) :
    1 / 2 ^ 24 ≤ value32 (fsub32 m nan fOne t) := by
  have hgap := gap_fOne hne
  have hsmallest : value32 0x33800000#32 = 1 / 2 ^ 24 := by decide +kernel
  rw [abs_sub_comm, abs_of_nonneg (by linarith [ht.2.2])] at hgap
  rw [← hsmallest] at hgap ⊢
  exact (dryWeight_roundsInRange ht).ge_of_ge rfl (by cases m <;> rfl) hgap

theorem dryWeight_of_value_one (ht : IsWeight m t) (hone : value32 (condition m t) = 1) : fsub32 m nan fOne t = fZero :=
  fsub32_cancel rfl ht.1 (by rw [condition_fOne, value32_fOne, hone]) fun h => absurd h (by decide)

/-- R102: the dry weight is `1 - T` to within 2^-25. -/
theorem abs_dryWeight_sub_le (ht : IsWeight m t) :
    |value32 (fsub32 m nan fOne t) - (1 - value32 (condition m t))| ≤ 1 / 2 ^ 25 := by
  by_cases hone : value32 (condition m t) = 1
  · rw [dryWeight_of_value_one ht hone, hone, value32_of_isZero32 rfl]
    norm_num
  · have hpos := dryWeight_pos (nan := nan) ht hone
    obtain ⟨-, h0, h1⟩ := id ht
    obtain ⟨u, hu, hnear⟩ := exists_word_near_of_le_one (r := 1 - value32 (condition m t))
      (abs_le.mpr ⟨by linarith, by linarith⟩)
    rw [abs_sub_comm]
    exact ((dryWeight_roundsInRange ht).abs_sub_le (by linarith) hu).trans hnear

/-- R102: the sum of the weights rounds to 1. -/
theorem fadd32_weights (ht : IsWeight m t) : fadd32 m nan (fsub32 m nan' fOne t) t = fOne := by
  obtain ⟨hlo, hhi⟩ := abs_le.mp (abs_dryWeight_sub_le (nan := nan') ht)
  have hdry := dryWeight_roundsInRange (nan := nan') ht
  have hfin : isFinite32 (condition m t) = true := by rw [isFinite32_condition]; exact ht.1
  rw [fadd32, hdry.condition_eq]
  exact rounds_unique (addCases_rounds hdry.finite hfin (by linarith))
    (rounds_fOne (abs_le.mpr ⟨by linarith, by linarith⟩))

end

end Sys2Proof.Machine
end

section
/-! SUPPORT. The crossfader on finite words (42_crossfader_frame R101): its two shares, and the bounds of R105 and R106. -/

namespace Sys2Proof.Machine

section
variable {m : SubnormalMode} {nan : Word} {t v x o w : Word}

/-- R101 in one equation. -/
theorem xfade_eq (nan : Nat → Word) (x o w : Word) :
    xfade m nan x o w = fadd32 m (nan 3) (fmul32 m (nan 1) (fsub32 m (nan 0) fOne (stageWClamp m w)) x)
      (fmul32 m (nan 2) (stageWClamp m w) o) := rfl

/-- A rounding is no larger than a word of either sign that its exact result is no larger than. -/
theorem RoundsInRange.abs_le_abs {r : Rat} {b : Word} (h : RoundsInRange m r w) (hb : isFinite32 b = true)
    (hread : condition m b = b) (hle : |r| ≤ |value32 b|) : |value32 w| ≤ |value32 b| := by
  obtain hpos | hneg := le_total 0 (value32 b)
  · rw [abs_of_nonneg hpos] at hle ⊢
    exact h.abs_le_of_abs_le hb hread hle
  · rw [abs_of_nonpos hneg, ← value32_negate] at hle ⊢
    exact h.abs_le_of_abs_le (by rwa [isFinite32_negate]) (by rw [condition_negate, hread]) hle

theorem abs_weight_mul_le (ht : IsWeight m t) :
    |value32 (condition m t) * value32 (condition m v)| ≤ |value32 (condition m v)| := by
  obtain ⟨-, h0, h1⟩ := ht
  rw [abs_mul, abs_of_nonneg h0]
  exact mul_le_of_le_one_left (abs_nonneg _) h1

/-- A share of a finite word is its product with the weight, rounded. -/
theorem share_roundsInRange (ht : IsWeight m t) (hv : isFinite32 v = true) :
    RoundsInRange m (value32 (condition m t) * value32 (condition m v)) (fmul32 m nan t v) :=
  fmul32_roundsInRange ht.1 hv
    ((abs_weight_mul_le ht).trans_lt (abs_value32_lt_threshold (hv ▸ isFinite32_condition m v)))

/-- A share is no larger than the word it is a share of. -/
theorem abs_share_le (ht : IsWeight m t) (hv : isFinite32 v = true) :
    |value32 (fmul32 m nan t v)| ≤ |value32 (condition m v)| :=
  (share_roundsInRange ht hv).abs_le_abs (by rwa [isFinite32_condition]) (condition_condition m v) (abs_weight_mul_le ht)

/-- R105: a share of a nominal word is no larger than the weight. -/
theorem abs_share_le_weight (ht : IsWeight m t) (hv : IsNominal v) :
    |value32 (fmul32 m nan t v)| ≤ value32 (condition m t) := by
  refine (share_roundsInRange ht hv.1).abs_le_of_abs_le (by rw [isFinite32_condition]; exact ht.1) (condition_condition m t) ?_
  obtain ⟨-, h0, -⟩ := ht
  rw [abs_mul, abs_of_nonneg h0]
  exact mul_le_of_le_one_right h0 ((abs_value32_condition_le m v).trans hv.2)

/-- The sum of two shares that does not overflow. -/
theorem xfade_roundsInRange {nan : Nat → Word} {d e : Word} (hw : IsWeight m (stageWClamp m w))
    (hd : d = fmul32 m (nan 1) (fsub32 m (nan 0) fOne (stageWClamp m w)) x) (he : e = fmul32 m (nan 2) (stageWClamp m w) o)
    (hx : isFinite32 x = true) (ho : isFinite32 o = true) (h : |value32 d + value32 e| < 2 ^ 128 - 2 ^ 103) :
    RoundsInRange m (value32 d + value32 e) (xfade m nan x o w) := by
  have hdr := hd ▸ share_roundsInRange (nan := nan 1) (dryWeight_isWeight (nan := nan 0) hw) hx
  have her := he ▸ share_roundsInRange (nan := nan 2) hw ho
  have hsum := fadd32_roundsInRange (m := m) (nan := nan 3) hdr.finite her.finite
  rw [hdr.condition_eq, her.condition_eq] at hsum
  rw [xfade_eq, ← hd, ← he]
  exact hsum h

/-- R105: the weights of the two shares sum to at most 1 + 2^-25, which rounds to 1. -/
theorem isNominal_xfade {nan : Nat → Word} (hw : isNaN32 w = false) (hx : IsNominal x) (ho : IsNominal o) :
    IsNominal (xfade m nan x o w) := by
  have ht := isWeight_stageWClamp m hw
  have hdry := dryWeight_isWeight (nan := nan 0) ht
  obtain ⟨-, hnear⟩ := abs_le.mp (abs_dryWeight_sub_le (nan := nan 0) ht)
  have hd := abs_share_le_weight (nan := nan 1) hdry hx
  have he := abs_share_le_weight (nan := nan 2) ht ho
  rw [(dryWeight_roundsInRange ht).condition_eq] at hd
  have hsum := (abs_add_le _ _).trans (add_le_add hd he)
  have h := xfade_roundsInRange ht rfl rfl hx.1 ho.1 (by linarith)
  exact ⟨h.finite, h.abs_le_one (by linarith)⟩

/-- R106: a sum that exceeds `F_MAX` by at most 1 does not overflow. -/
theorem isFinite32_xfade {nan : Nat → Word} (hw : isNaN32 w = false) (hx : isFinite32 x = true) (ho : IsNominal o) :
    isFinite32 (xfade m nan x o w) = true := by
  have ht := isWeight_stageWClamp m hw
  have hd := abs_share_le (nan := nan 1) (dryWeight_isWeight (nan := nan 0) ht) hx
  have he := abs_share_le (nan := nan 2) ht ho.1
  have hmax := abs_value32_le_fMax (w := condition m x) (by rwa [isFinite32_condition])
  have hone := (abs_value32_condition_le m o).trans ho.2
  have hsum := (abs_add_le _ _).trans (add_le_add hd he)
  rw [value32_fMax] at hmax
  exact (xfade_roundsInRange ht rfl rfl hx ho.1 (by linarith)).finite

end

end Sys2Proof.Machine
end

section
/-! SUPPORT. Zero operands of the primitives, and the crossfader at fractions 0 and 1 (42_crossfader_frame R103, R104). -/

namespace Sys2Proof.Machine

section
variable {m : SubnormalMode} {nan a b : Word}

theorem isZero32_negate (w : Word) : isZero32 (negate w) = isZero32 w := by simp [isZero32]

theorem zeroOf_eq_fNegZero_iff (s : Bool) : zeroOf s = fNegZero ↔ s = true := by cases s <;> decide

/-- Of two infinities that are not opposite, either is the other, so that R17's order of cases does not matter. -/
theorem addCases_comm : addCases m nan a b = addCases m nan b a := by
  by_cases hsame : isInf32 a = true ∧ isInf32 b = true ∧ signBit a = signBit b
  · obtain ⟨ha, hb, hsign⟩ := hsame
    rw [eq_infOf_of_isInf32 ha, eq_infOf_of_isInf32 hb, hsign]
  · rw [addCases, addCases, Bool.or_comm (isNaN32 b), Bool.and_comm (isZero32 b), Bool.and_comm (signBit b),
      Int.add_comm (units b), Bool.and_comm (isInf32 b), bne_comm (a := signBit b)]
    cases ha : isInf32 a <;> cases hb : isInf32 b <;> simp_all

theorem fadd32_comm : fadd32 m nan a b = fadd32 m nan b a := addCases_comm

theorem mulCases_comm : mulCases m nan a b = mulCases m nan b a := by
  simp only [mulCases, Bool.or_comm (isNaN32 b), Bool.or_comm (isInf32 b), Bool.or_comm (isZero32 b), bne_comm (a := signBit b),
    Nat.mul_comm (magUnits b), Bool.and_comm (isInf32 b), Bool.and_comm (isZero32 b), Bool.or_comm (isZero32 a && isInf32 b)]

theorem fmul32_comm : fmul32 m nan a b = fmul32 m nan b a := mulCases_comm

/-- A zero addend decides nothing but the sign of a zero. -/
theorem fadd32_zero_right (ha : isNaN32 a = false) (hb : isZero32 b = true) :
    fadd32 m nan a b =
      if isZero32 (condition m a) then (if condition m a = fNegZero ∧ b = fNegZero then fNegZero else fZero)
      else condition m a := by
  rw [fadd32, condition_of_isZero32 m hb]
  split
  · next hz => exact addCases_zeros hz hb
  · next hz => rw [addCases_zero_right (by rwa [isNaN32_condition]) (Bool.eq_false_iff.mpr hz) hb, condition_condition]

theorem fmul32_zero_left (ha : isZero32 a = true) (hb : isFinite32 b = true) :
    fmul32 m nan a b = zeroOf (signBit a != signBit b) := by
  rw [fmul32, condition_of_isZero32 m ha, mulCases_zero (isFinite32_of_isZero32 ha) (by rwa [isFinite32_condition]) (.inl ha),
    signBit_condition]

theorem fmul32_zero_inf (ha : isZero32 a = true) (hb : isInf32 b = true) : fmul32 m nan a b = nan := by
  rw [fmul32, condition_of_isZero32 m ha, condition_of_isInf32 m hb, mulCases_inf_zero (.inr ⟨ha, hb⟩)]

theorem fOne_fmul32 (hb : isNaN32 b = false) : fmul32 m nan fOne b = condition m b := by
  rw [fmul32_comm, fmul32_fOne hb]

theorem fsub32_fOne_zero (hb : isZero32 b = true) : fsub32 m nan fOne b = fOne := by
  rw [fsub32, fadd32_zero_right rfl (by rwa [isZero32_negate]), condition_fOne]
  rfl

end

section
variable {m : SubnormalMode} {nan : Nat → Word} {x o w : Word}

/-- R103: at a fraction of either zero the dry share is the sample, and the wet share a zero. -/
theorem xfade_zero (hw : isZero32 w = true) (hx : isFinite32 x = true) (ho : isFinite32 o = true) :
    xfade m nan x o w =
      if isZero32 (condition m x) then
        (if condition m x = fNegZero ∧ signBit w ≠ signBit o then fNegZero else fZero)
      else condition m x := by
  have hnx := (not_nan_inf_of_finite hx).left
  rw [xfade_eq, stageWClamp_of_isWeight (isWeight_of_isZero32 m hw), fsub32_fOne_zero hw, fOne_fmul32 hnx,
    fmul32_zero_left hw ho, fadd32_zero_right (by rwa [isNaN32_condition]) (isZero32_zeroOf _), condition_condition]
  simp only [zeroOf_eq_fNegZero_iff, bne_iff_ne]

/-- R104: at fraction 1 the dry share of a finite sample is a zero of its sign, and the wet share the processed value. -/
theorem xfade_fOne (hx : isFinite32 x = true) (ho : isNaN32 o = false) :
    xfade m nan x o fOne =
      if isZero32 (condition m o) then (if signBit x = true ∧ signBit o = true then fNegZero else fZero)
      else condition m o := by
  have hdry : fmul32 m (nan 1) fZero x = zeroOf (signBit x) := by
    rw [fmul32_zero_left rfl hx, show signBit fZero = false from rfl, Bool.false_bne]
  rw [xfade_eq, stageWClamp_of_isWeight (isWeight_fOne m), fsub32_self (a := fOne) rfl, hdry, fOne_fmul32 ho, fadd32_comm,
    fadd32_zero_right (by rwa [isNaN32_condition]) (isZero32_zeroOf _), condition_condition]
  refine ite_congr rfl (fun hz => if_congr ?_ rfl rfl) fun _ => rfl
  rw [eq_zeroOf_of_isZero32 hz, signBit_condition, zeroOf_eq_fNegZero_iff, zeroOf_eq_fNegZero_iff, and_comm]

/-- R104, R107: at fraction 1 the dry share of an infinite sample is zero times an infinity. -/
theorem isNaN32_xfade_of_dryWeight_zero (hnan : AllNaN nan) (hx : isInf32 x = true)
    (hdry : fsub32 m (nan 0) fOne (stageWClamp m w) = fZero) : isNaN32 (xfade m nan x o w) = true := by
  rw [xfade_eq, hdry, fmul32_zero_inf rfl hx, fadd32_nan (.inl (hnan 1))]
  exact hnan 3

end

end Sys2Proof.Machine
end

section
/-! SUPPORT. The processed value `t7` and the output of a lane, and of FRAME, on nominal samples (41_distortion_path R98,
42_crossfader_frame R105). -/

namespace Sys2Proof.Machine

section
variable {m : SubnormalMode} {nan : Nat → Word} {x : Word} {p : Params}

theorem laneWith_y :
    (laneWith m nan x p).y = xfade m (fun n => nan (5 + n)) x (laneWith m nan x p).t7 p.wet := rfl

/-- R98: the fallback leaves a NaN only where the sample is one. -/
theorem isNaN32_laneWith_t6_eq_false (hx : isNaN32 x = false) : isNaN32 (laneWith m nan x p).t6 = false := by
  rw [laneWith_t6]
  cases hf : isFinite32 (laneWith m nan x p).t5
  · rwa [stageFinite_of_not_finite hf]
  · rw [stageFinite_of_finite hf]
    exact (not_nan_inf_of_finite hf).left

theorem isNominal_laneWith_t7 (hx : isNaN32 x = false) : IsNominal (laneWith m nan x p).t7 :=
  isNominal_stageClamp (isNaN32_laneWith_t6_eq_false hx)

theorem isNaN32_wet_of_inContract (hp : p.inContract = true) : isNaN32 p.wet = false := by
  obtain ⟨hwet, -, -, -⟩ := (inContract_iff p).mp hp
  simp only [BitVec.toNat_ofNat] at hwet
  refine Bool.eq_false_iff.mpr fun hnan => ?_
  obtain ⟨he, -⟩ := (isNaN32_iff _).mp hnan
  rw [expField_eq] at he
  omega

theorem isNominal_laneWith_y (hp : p.inContract = true) (hx : IsNominal x) : IsNominal (laneWith m nan x p).y := by
  rw [laneWith_y]
  exact isNominal_xfade (isNaN32_wet_of_inContract hp) hx (isNominal_laneWith_t7 (not_nan_inf_of_finite hx.1).left)

end

theorem isNominal_outputsOf (m : SubnormalMode) (k : Nat) {x0 x1 : Word} {p : Params} (hp : p.inContract = true)
    (h0 : IsNominal x0) (h1 : IsNominal x1) : Frame.IsNominal (outputsOf m k x0 x1 p) := by
  have hlane (k : Nat) {x : Word} (hx : IsNominal x) : IsNominal (lane m k x p).y := by
    rw [lane]
    exact isNominal_laneWith_y hp hx
  exact ⟨hlane k h0, hlane (k + 9) h1⟩

end Sys2Proof.Machine
end

section
/-! SUPPORT. Every step of a nominal host keeps a nominal state (40_parameter_sampler R70, 42_crossfader_frame R105). -/

namespace Sys2Proof.Machine

/-- Every sample of both channels is nominal. -/
def Memory.IsNominal (b : Memory) : Prop := ∀ c f x, bufRead b c f = some x → Machine.IsNominal x

theorem Memory.isNominal_iff (b : Memory) :
    b.IsNominal ↔ (∀ x ∈ b.ch0, Machine.IsNominal x) ∧ ∀ x ∈ b.ch1, Machine.IsNominal x := by
  refine ⟨fun h => ⟨fun x hx => ?_, fun x hx => ?_⟩, fun ⟨h0, h1⟩ c f x hread => ?_⟩
  · obtain ⟨f, hf⟩ := List.mem_iff_getElem?.mp hx
    exact h 0 f x hf
  · obtain ⟨f, hf⟩ := List.mem_iff_getElem?.mp hx
    exact h 1 f x hf
  · unfold bufRead at hread
    split at hread
    · exact h0 x (List.mem_of_getElem? hread)
    · split at hread
      · exact h1 x (List.mem_of_getElem? hread)
      · cases hread

/-- The parts of a nominal state that the block writes, and the host's part. -/
theorem State.isNominal_iff (s : State) :
    s.IsNominal ↔ s.snapshot.inContract = true ∧ (∀ e ∈ s.script, e.IsNominal) ∧ s.buf.IsNominal ∧
      ∀ y, s.out = some y → Frame.IsNominal y := by
  rw [State.IsNominal, Memory.isNominal_iff, and_assoc]

theorem isNominal_suppliedBuffer {channels : List (List Word)} (h : ∀ ch ∈ channels, ∀ x ∈ ch, IsNominal x) :
    Memory.IsNominal { ch0 := channels.getD 0 [], ch1 := channels.getD 1 [] } := by
  have hch (i : Nat) : ∀ x ∈ channels.getD i [], IsNominal x := fun x hx => by
    rw [List.getD_eq_getElem?_getD] at hx
    cases hi : channels[i]? with
    | none => simp [hi] at hx
    | some ch => exact h ch (List.mem_of_getElem? hi) x (by simpa [hi] using hx)
  exact (Memory.isNominal_iff _).mpr ⟨hch 0, hch 1⟩

/-- A command keeps the invariant when, if it is a FRAME, its samples are nominal and the bundle on the port in contract. -/
theorem isNominal_afterCommand {i : Instr} {s : State} (hs : s.IsNominal)
    (hi : ∀ x0 x1, i = .frame x0 x1 → IsNominal x0 ∧ IsNominal x1 ∧ s.inP.inContract = true) :
    (afterCommand i s).IsNominal := by
  rw [State.isNominal_iff] at hs ⊢
  obtain ⟨hsnap, hscript, hbuf, -⟩ := hs
  cases i with
  | nop => exact ⟨hsnap, hscript, hbuf, nofun⟩
  | begin => exact ⟨hsnap, hscript, hbuf, nofun⟩
  | frame x0 x1 =>
    obtain ⟨h0, h1, hin⟩ := hi x0 x1 rfl
    have hparams : s.frameParams.inContract = true := by
      by_cases hpos : s.pos = 0#7
      · rwa [frameParams_of_pos_zero hpos]
      · rwa [frameParams_of_pos_ne_zero hpos]
    refine ⟨hparams, hscript, hbuf, fun y hy => ?_⟩
    rw [out_afterCommand_frame, Option.some.injEq] at hy
    exact hy ▸ isNominal_outputsOf _ _ hparams h0 h1
  | rsvd => exact ⟨hsnap, hscript, hbuf, nofun⟩

/-- With the event taken and its bundle on the port the rest of the state is as it was. -/
theorem isNominal_takeEvent {s : State} {e : HostEvent} {rest : List HostEvent} (hs : s.IsNominal)
    (hscript : s.script = e :: rest) (p : Params) : e.IsNominal ∧ ((s.setScript rest).setInP p).IsNominal := by
  obtain ⟨hsnap, hevents, hbuf⟩ := hs
  rw [hscript, List.forall_mem_cons] at hevents
  exact ⟨hevents.1, hsnap, hevents.2, hbuf⟩

theorem isNominal_setBuf {s : State} {b : Memory} (hs : s.IsNominal) (hb : b.IsNominal) : (s.setBuf b).IsNominal := by
  rw [State.isNominal_iff] at hs ⊢
  obtain ⟨hsnap, hscript, -, hout⟩ := hs
  exact ⟨hsnap, hscript, hb, hout⟩

theorem isNominal_resetBlock {s : State} (hs : s.IsNominal) : s.resetBlock.IsNominal := by
  obtain ⟨-, hscript, hbuf0, hbuf1, -⟩ := hs
  have hdefaults : Params.defaults.inContract = true := by decide
  exact ⟨hdefaults, hscript, hbuf0, hbuf1, nofun⟩

/-- A turn's two words come from a nominal buffer, and its results go back to it. -/
theorem isNominal_step_frameAt {s t : State} {f : Nat} {p : BitVec 97} {rest : List HostEvent} {x0 x1 : Word}
    (hs : s.IsNominal) (hscript : s.script = .frameAt f p :: rest) (h0 : bufRead s.buf 0 f = some x0)
    (h1 : bufRead s.buf 1 f = some x1) (h : step s = .next t) : t.IsNominal := by
  obtain ⟨hcontract, htaken⟩ := isNominal_takeEvent hs hscript (unpackP p)
  obtain ⟨-, -, hbuf, -⟩ := (State.isNominal_iff s).mp hs
  have hafter := isNominal_afterCommand (i := .frame x0 x1) htaken fun _ _ heq => by
    cases heq
    exact ⟨hbuf 0 f x0 h0, hbuf 1 f x1 h1, hcontract⟩
  obtain ⟨b, y, hout, hstep, hread0, hread1, hother, -, -⟩ := step_frameAt_legal hscript h0 h1
  obtain ⟨-, -, -, hnominal⟩ := (State.isNominal_iff _).mp hafter
  obtain ⟨hy0, hy1⟩ := hnominal y hout
  rw [← Host.Outcome.next.inj (hstep.symm.trans h)]
  refine isNominal_setBuf hafter fun c g x hread => ?_
  by_cases hg : g = f
  · subst hg
    match c with
    | 0 => exact Option.some.inj (hread0.symm.trans hread) ▸ hy0
    | 1 => exact Option.some.inj (hread1.symm.trans hread) ▸ hy1
    | _ + 2 => cases hread
  · exact hbuf c g x ((hother c g hg).symm.trans hread)

end Sys2Proof.Machine
end

section
/-! The obligations about nominal samples and the weights of the crossfader (42_crossfader_frame R102 to R105). -/

namespace Sys2Proof.Machine

/-- Settles O58: each event keeps the invariant; only a FRAME gives an output, of nominal samples under a snapshot in contract. -/
theorem nominalRunsStayNominal : Obligations.NominalRunsStayNominal := by
  intro s t hs h
  obtain ⟨-, rfl⟩ | ⟨c, p, rest, hscript, rfl⟩ | ⟨c, p, rest, hscript, rfl⟩ | ⟨channels, rest, hscript, -, -, rfl⟩ |
    ⟨channels, p, rest, hscript, -, -, rfl⟩ | ⟨f, p, rest, x0, x1, hscript, h0, h1, -⟩ := step_cases h
  · exact hs
  · exact isNominal_resetBlock (isNominal_takeEvent hs hscript _).right
  · obtain ⟨hevent, htaken⟩ := isNominal_takeEvent hs hscript (unpackP p)
    exact isNominal_afterCommand htaken (hevent.resolve_left Bool.false_ne_true)
  · obtain ⟨hevent, htaken⟩ := isNominal_takeEvent hs hscript s.inP
    exact isNominal_setBuf htaken (isNominal_suppliedBuffer hevent)
  · obtain ⟨hevent, htaken⟩ := isNominal_takeEvent hs hscript (unpackP p)
    have hsupplied := isNominal_setBuf htaken (isNominal_suppliedBuffer hevent)
    rw [decode_encode]
    exact isNominal_afterCommand hsupplied nofun
  · exact isNominal_step_frameAt hs hscript h0 h1 h

/-- Settles O51: `omt + T` lies within 2^-25 of 1, where every number rounds to 1. -/
theorem weightsSumToOne : Obligations.WeightsSumToOne :=
  fun m _ _ _ ht => fadd32_weights (ht.isWeight m)

/-- Settles O52: one share is the word itself and the other a zero, which decides nothing but the sign of a zero. -/
theorem fullDryAndFullWet : Obligations.FullDryAndFullWet := by
  refine ⟨?_, ?_, fun m nan x o hnan hx => ?_⟩
  · rintro m nan x o w _ hw hx ho rfl
    exact xfade_zero hw hx ho
  · rintro m nan x o _ hx ho rfl
    exact xfade_fOne hx ho
  · refine isNaN32_xfade_of_dryWeight_zero hnan hx ?_
    rw [stageWClamp_of_isWeight (isWeight_fOne m), fsub32_self (a := fOne) rfl]

/-- Settles O53: the shares are no larger than their weights; at fraction 0 the sample 2.0 comes back as it is. -/
theorem outputBoundedForNominalSamples : Obligations.OutputBoundedForNominalSamples := by
  refine ⟨fun m nan x o w hx ho hw => isNominal_xfade (not_nan_inf_of_finite hw.1).left hx ho,
    fun s x0 x1 hp h0 h1 => ⟨_, _, exec_eq_next _ s, out_afterCommand_frame x0 x1 s, isNominal_outputsOf _ _ hp h0 h1⟩,
    fun m nan => ?_⟩
  rw [laneWith_y, xfade_zero (w := fZero) rfl rfl (isNominal_laneWith_t7 rfl).left]
  cases m <;> rfl

end Sys2Proof.Machine
end

section
/-! SUPPORT. What of a lane depends on the NaNs supplied to it (41_distortion_path R85, 42_crossfader_frame R112). -/

namespace Sys2Proof.Machine

/-- One word, or two NaNs. -/
def SameOrNaN (a b : Word) : Prop := a = b ∨ (isNaN32 a = true ∧ isNaN32 b = true)

/-- An arithmetic primitive reads no NaN operand but to answer the NaN supplied to it, and answers that NaN or a word that does not
depend on it. -/
def FreeOnlyInNaN (op : Word → Word → Word → Word) : Prop :=
  (∀ nan a b, isNaN32 a = true ∨ isNaN32 b = true → op nan a b = nan) ∧
    ∀ nan nan' a b, op nan a b = op nan' a b ∨ (op nan a b = nan ∧ op nan' a b = nan')

theorem freeOnlyInNaN_fadd32 (m : SubnormalMode) : FreeOnlyInNaN (fadd32 m) := by
  refine ⟨fun _ _ _ => fadd32_nan, fun nan nan' a b => ?_⟩
  unfold fadd32 addCases
  split_ifs <;> simp

theorem freeOnlyInNaN_fsub32 (m : SubnormalMode) : FreeOnlyInNaN (fsub32 m) :=
  ⟨fun _ _ _ => fsub32_nan, fun nan nan' a b => (freeOnlyInNaN_fadd32 m).right nan nan' a (negate b)⟩

theorem freeOnlyInNaN_fmul32 (m : SubnormalMode) : FreeOnlyInNaN (fmul32 m) := by
  refine ⟨fun _ _ _ => fmul32_nan, fun nan nan' a b => ?_⟩
  unfold fmul32 mulCases
  split_ifs <;> simp

theorem freeOnlyInNaN_fdiv32 (m : SubnormalMode) : FreeOnlyInNaN (fdiv32 m) := by
  refine ⟨fun _ _ _ => fdiv32_nan, fun nan nan' a b => ?_⟩
  unfold fdiv32 divCases
  split_ifs <;> simp

namespace SameOrNaN

variable {m : SubnormalMode} {nan nan' a a' b b' x : Word}

theorem refl (a : Word) : SameOrNaN a a := .inl rfl

theorem apply {op : Word → Word → Word → Word} (hop : FreeOnlyInNaN op) (hnan : isNaN32 nan = true)
    (hnan' : isNaN32 nan' = true) (ha : SameOrNaN a a') (hb : SameOrNaN b b') : SameOrNaN (op nan a b) (op nan' a' b') := by
  obtain ⟨hread, hfree⟩ := hop
  obtain rfl | ⟨ha, ha'⟩ := ha
  · obtain rfl | ⟨hb, hb'⟩ := hb
    · obtain h | ⟨h, h'⟩ := hfree nan nan' a b
      · exact .inl h
      · rw [h, h']
        exact .inr ⟨hnan, hnan'⟩
    · rw [hread _ _ _ (.inr hb), hread _ _ _ (.inr hb')]
      exact .inr ⟨hnan, hnan'⟩
  · rw [hread _ _ _ (.inl ha), hread _ _ _ (.inl ha')]
    exact .inr ⟨hnan, hnan'⟩

/-- The fallback puts the sample in the place of either NaN (R91). -/
theorem stageFinite_eq (h : SameOrNaN a b) : stageFinite a x = stageFinite b x := by
  obtain rfl | ⟨ha, hb⟩ := h
  · rfl
  · rw [stageFinite_of_not_finite (not_finite_of_nan ha), stageFinite_of_not_finite (not_finite_of_nan hb)]

end SameOrNaN

section
variable {m : SubnormalMode} {nan nan' : Nat → Word} {x : Word} {p : Params}

theorem xfade_sameOrNaN (hnan : AllNaN nan) (hnan' : AllNaN nan') (x o w : Word) :
    SameOrNaN (xfade m nan x o w) (xfade m nan' x o w) := by
  have hdry := SameOrNaN.apply (freeOnlyInNaN_fsub32 m) (hnan 0) (hnan' 0) (.refl fOne) (.refl (stageWClamp m w))
  have hd := SameOrNaN.apply (freeOnlyInNaN_fmul32 m) (hnan 1) (hnan' 1) hdry (.refl x)
  have he := SameOrNaN.apply (freeOnlyInNaN_fmul32 m) (hnan 2) (hnan' 2) (.refl (stageWClamp m w)) (.refl o)
  rw [xfade_eq, xfade_eq]
  exact .apply (freeOnlyInNaN_fadd32 m) (hnan 3) (hnan' 3) hd he

theorem laneWith_t5_sameOrNaN (hnan : AllNaN nan) (hnan' : AllNaN nan') :
    SameOrNaN (laneWith m nan x p).t5 (laneWith m nan' x p).t5 := by
  have h1 := SameOrNaN.apply (freeOnlyInNaN_fmul32 m) (hnan 0) (hnan' 0) (.refl x) (.refl p.mult)
  have h2 := SameOrNaN.apply (freeOnlyInNaN_fadd32 m) (hnan 1) (hnan' 1) h1 (.refl p.add)
  have h3 := SameOrNaN.apply (freeOnlyInNaN_fsub32 m) (hnan 2) (hnan' 2) h2 (.refl p.add)
  have h4 := SameOrNaN.apply (freeOnlyInNaN_fdiv32 m) (hnan 3) (hnan' 3) h3 (.refl p.mult)
  rw [laneWith_t5, laneWith_t5]
  split
  · exact .apply (freeOnlyInNaN_fsub32 m) (hnan 4) (hnan' 4) h4 (.refl x)
  · exact h4

theorem laneWith_t6_eq (hnan : AllNaN nan) (hnan' : AllNaN nan') : (laneWith m nan x p).t6 = (laneWith m nan' x p).t6 :=
  (laneWith_t5_sameOrNaN hnan hnan').stageFinite_eq

theorem laneWith_t7_eq (hnan : AllNaN nan) (hnan' : AllNaN nan') : (laneWith m nan x p).t7 = (laneWith m nan' x p).t7 := by
  rw [laneWith_t7, laneWith_t7, laneWith_t6_eq hnan hnan']

theorem laneWith_y_sameOrNaN (hnan : AllNaN nan) (hnan' : AllNaN nan') :
    SameOrNaN (laneWith m nan x p).y (laneWith m nan' x p).y := by
  rw [laneWith_y, laneWith_y, laneWith_t7_eq hnan hnan']
  exact xfade_sameOrNaN (fun n => hnan (5 + n)) (fun n => hnan' (5 + n)) _ _ _

/-- Wherever the draws of a lane begin, its output word is the same or a NaN. -/
theorem lane_y_sameOrNaN (m : SubnormalMode) (k k' : Nat) (x : Word) (p : Params) :
    SameOrNaN (lane m k x p).y (lane m k' x p).y := by
  rw [lane, lane]
  exact laneWith_y_sameOrNaN (fun _ => isNaN32_nanDraw _) fun _ => isNaN32_nanDraw _

end

end Sys2Proof.Machine
end

section
/-! SUPPORT. Non-finite samples: the fallback fires under every add and multiply amount, and the fraction decides between the sample
and a NaN (42_crossfader_frame R107). -/

namespace Sys2Proof.Machine

theorem fdiv32_not_finite_left {m : SubnormalMode} {nan a b : Word} (hnan : isNaN32 nan = true) (ha : isFinite32 a = false) :
    isFinite32 (fdiv32 m nan a b) = false := by
  obtain ⟨hf, -, -⟩ | ⟨-, hi, -⟩ | ⟨-, -, hn⟩ := class_cases b
  · exact fdiv32_not_finite hnan ha hf
  · obtain hna | hia := nan_or_inf_of_not_finite ha
    · rw [fdiv32_nan (.inl hna), not_finite_of_nan hnan]
    · rw [fdiv32, divCases_inf_inf (by rwa [isInf32_condition]) (by rwa [isInf32_condition]), not_finite_of_nan hnan]
  · rw [fdiv32_nan (.inr hn), not_finite_of_nan hnan]

theorem stageClamp_infOf (m : SubnormalMode) (s : Bool) : stageClamp m (infOf s) = if s then fNegOne else fOne := by
  cases m <;> cases s <;> rfl

/-- The mode reads a word below 1 as less than 1, and the word 1 as 1. -/
theorem value32_condition_eq_one_iff (m : SubnormalMode) (w : Word) : value32 (condition m w) = 1 ↔ value32 w = 1 := by
  obtain h | ⟨-, hsmall, h⟩ := value32_condition_cases m w
  · rw [h]
  · rw [h]
    constructor
    · norm_num
    · intro hone
      rw [hone] at hsmall
      norm_num at hsmall

section
variable {m : SubnormalMode} {nan : Nat → Word} {x o w : Word} {p : Params}

theorem signBit_eq_false_of_pos {v : Word} (h : 0 < value32 v) : signBit v = false := by
  have hz : isZero32 v = false := Bool.eq_false_iff.mpr fun hz => h.ne' (value32_of_isZero32 hz)
  rw [signBit_eq_decide_value32 hz, decide_eq_false (not_lt.mpr h.le)]

/-- R107: a positive dry weight passes an infinite sample on, and the wet share is finite. -/
theorem xfade_inf (ht : IsWeight m (stageWClamp m w)) (hne : value32 (stageWClamp m w) ≠ 1) (hx : isInf32 x = true)
    (ho : isFinite32 o = true) : xfade m nan x o w = x := by
  have hread := (dryWeight_roundsInRange (nan := nan 0) ht).condition_eq
  have hpos : 0 < value32 (fsub32 m (nan 0) fOne (stageWClamp m w)) :=
    lt_of_lt_of_le (by norm_num) (dryWeight_pos ht (mt (value32_condition_eq_one_iff m _).mp hne))
  have hnonzero : isZero32 (condition m (fsub32 m (nan 0) fOne (stageWClamp m w))) = false := by
    rw [hread]
    exact Bool.eq_false_iff.mpr fun hz => hpos.ne' (value32_of_isZero32 hz)
  have hd : fmul32 m (nan 1) (fsub32 m (nan 0) fOne (stageWClamp m w)) x = x := by
    rw [fmul32_comm, fmul32_inf hx (not_nan_inf_of_finite (dryWeight_isWeight ht).1).left hnonzero,
      signBit_eq_false_of_pos hpos, Bool.bne_false, ← eq_infOf_of_isInf32 hx]
  obtain ⟨hnanWet, hinfWet⟩ := not_nan_inf_of_finite (share_roundsInRange (nan := nan 2) ht ho).finite
  rw [xfade_eq, hd, fadd32_inf hx hnanWet (by simp [hinfWet])]

/-- R97: no stage makes a finite word of a non-finite sample, inside the contract or out of it. -/
theorem isFinite32_laneWith_t5_eq_false (hnan : AllNaN nan) (hx : isFinite32 x = false) :
    isFinite32 (laneWith m nan x p).t5 = false := by
  have h1 : isFinite32 (laneWith m nan x p).t1 = false := fmul32_not_finite (hnan 0) hx
  have h2 : isFinite32 (laneWith m nan x p).t2 = false := fadd32_not_finite (hnan 1) h1
  have h3 : isFinite32 (laneWith m nan x p).t3 = false := fsub32_not_finite (hnan 2) h2
  have h4 : isFinite32 (laneWith m nan x p).t4 = false := fdiv32_not_finite_left (hnan 3) h3
  rw [laneWith_t5]
  split
  · exact fsub32_not_finite (hnan 4) h4
  · exact h4

theorem laneWith_t7_of_not_finite (hnan : AllNaN nan) (hx : isFinite32 x = false) :
    (laneWith m nan x p).t7 = stageClamp m x := by
  rw [laneWith_t7, laneWith_t6, stageFinite_of_not_finite (isFinite32_laneWith_t5_eq_false hnan hx)]

theorem isNaN32_xfade_of_nan (hnan : AllNaN nan) (hx : isNaN32 x = true) : isNaN32 (xfade m nan x o w) = true := by
  rw [xfade_eq, fmul32_nan (.inr hx), fadd32_nan (.inl (hnan 1))]
  exact hnan 3

end

end Sys2Proof.Machine
end

section
/-! SUPPORT. The scenario of the sample 0.5 under the neutral add and multiply amounts (42_crossfader_frame R108). -/

namespace Sys2Proof.Machine

theorem isNominal_half : IsNominal 0x3F000000#32 := by
  refine ⟨rfl, ?_⟩
  rw [value32_half]
  norm_num

/-- Half of a value of 2^-125 or more is a value. -/
theorem exists_word_half {w : Word} (hw : isFinite32 w = true) (h : 1 / 2 ^ 125 ≤ |value32 w|) :
    ∃ u, isFinite32 u = true ∧ value32 u = value32 w / 2 := by
  obtain ⟨k, q, hmag, hq, -⟩ := exists_spacing w
  have hbig : 2 ^ 24 ≤ q * 2 ^ k := by
    rw [abs_value32, le_div_iff₀ (by positivity), hmag] at h
    have : (2 : Rat) ^ 24 ≤ (q * 2 ^ k : Nat) := by linarith
    exact_mod_cast this
  obtain _ | k := k
  · omega
  have hlt := magUnits_lt hw
  rw [hmag, pow_succ, ← mul_assoc] at hlt
  have hz : ((if signBit w then -1 else 1) * (q : Int)).natAbs = q := by split <;> simp
  obtain ⟨u, hu, hval⟩ := exists_word_of_units (z := (if signBit w then -1 else 1) * (q : Int)) (k := k)
    (hz.trans_le hq.le) (by rw [hz]; exact (Nat.le_mul_of_pos_right _ two_pos).trans_lt hlt)
  refine ⟨u, hu, ?_⟩
  rw [hval, value32_eq_sign_mul_magUnits, hmag]
  push_cast
  ring

section
variable {m : SubnormalMode} {nan v d e w : Word}

/-- Halving is exact for what the mode reads as 2^-125 or more. -/
theorem value32_fmul32_half (hv : isFinite32 v = true) (h : 1 / 2 ^ 125 ≤ |value32 (condition m v)|) :
    value32 (fmul32 m nan v 0x3F000000#32) = value32 (condition m v) / 2 := by
  have hfin : isFinite32 (condition m v) = true := by rwa [isFinite32_condition]
  have hread : condition m 0x3F000000#32 = 0x3F000000#32 := by cases m <;> rfl
  obtain ⟨u, hu, hval⟩ := exists_word_half hfin h
  have hthreshold := abs_value32_lt_threshold hu
  rw [hval, ← mul_one_div, ← value32_half] at hthreshold
  rw [← mul_one_div, ← value32_half] at hval
  have hround := fmul32_roundsInRange (m := m) (nan := nan) hv (b := 0x3F000000#32) rfl
  rw [hread] at hround
  obtain hexact | ⟨-, hsmall, -⟩ := (hround hthreshold).value32_eq hu hval.symm
  · rw [hexact, value32_half, mul_one_div]
  · rw [value32_half, abs_mul, abs_of_pos (show (0 : Rat) < 1 / 2 by norm_num)] at hsmall
    linarith

theorem fadd32_eq_half (hd : isFinite32 d = true) (he : isFinite32 e = true) (hdread : condition m d = d)
    (heread : condition m e = e) (h : |value32 d + value32 e - 1 / 2| ≤ 1 / 2 ^ 26) :
    fadd32 m nan d e = 0x3F000000#32 := by
  have hne : value32 d + value32 e ≠ 0 := fun h0 => by
    rw [h0] at h
    norm_num [abs_of_neg] at h
  rw [fadd32, hdread, heread]
  exact rounds_unique (addCases_rounds hd he hne) (rounds_half h)

/-- The dry share of 0.5 is half the dry weight. -/
theorem value32_dryShare_half {nan nan' : Word} (hw : IsWeight m w) :
    value32 (fmul32 m nan (fsub32 m nan' fOne w) 0x3F000000#32) = value32 (fsub32 m nan' fOne w) / 2 := by
  by_cases hone : value32 (condition m w) = 1
  · rw [dryWeight_of_value_one hw hone, fmul32_zero_left rfl rfl, value32_of_isZero32 (isZero32_zeroOf _),
      value32_of_isZero32 rfl, zero_div]
  · have hpos := dryWeight_pos (nan := nan') hw hone
    have hread := (dryWeight_roundsInRange (nan := nan') hw).condition_eq
    rw [value32_fmul32_half (dryWeight_isWeight hw).1, hread]
    rw [hread]
    exact le_trans (by norm_num) (hpos.trans (le_abs_self _))

/-- The two shares of 0.5 sum to 0.5 within 2^-26: both are exact, or the fraction is so small that the dry weight is 1. -/
theorem abs_shares_half_sub_le {nan nan' nan'' : Word} (hw : IsWeight m w) :
    |value32 (fmul32 m nan (fsub32 m nan' fOne w) 0x3F000000#32) + value32 (fmul32 m nan'' w 0x3F000000#32) - 1 / 2| ≤
      1 / 2 ^ 26 := by
  have hnear := abs_dryWeight_sub_le (nan := nan') hw
  obtain ⟨hlo, hhi⟩ := abs_le.mp hnear
  rw [value32_dryShare_half hw]
  by_cases hbig : 1 / 2 ^ 125 ≤ |value32 (condition m w)|
  · rw [value32_fmul32_half hw.1 hbig, abs_le]
    constructor <;> linarith
  · have htiny := not_le.mp hbig
    obtain ⟨htlo, hthi⟩ := abs_lt.mp htiny
    have hone : value32 (fsub32 m nan' fOne w) = 1 := by
      by_contra hne
      have hgap := gap_fOne hne
      have : |value32 (fsub32 m nan' fOne w) - 1| < 1 / 2 ^ 24 := abs_lt.mpr ⟨by linarith, by linarith⟩
      linarith
    obtain ⟨helo, hehi⟩ := abs_le.mp (abs_share_le_weight (nan := nan'') hw isNominal_half)
    rw [hone, abs_le]
    constructor <;> linarith

theorem xfade_half_half {nan : Nat → Word} (hw : IsWeight m w) :
    xfade m nan 0x3F000000#32 0x3F000000#32 w = 0x3F000000#32 := by
  have hd := share_roundsInRange (nan := nan 1) (dryWeight_isWeight (nan := nan 0) hw) (v := 0x3F000000#32) rfl
  have he := share_roundsInRange (nan := nan 2) hw (v := 0x3F000000#32) rfl
  rw [xfade_eq, stageWClamp_of_isWeight hw]
  exact fadd32_eq_half hd.finite he.finite hd.condition_eq he.condition_eq (abs_shares_half_sub_le hw)

/-- A zero for the wet share leaves the dry share, which is no `-0`. -/
theorem xfade_half_zero {nan : Nat → Word} (hw : IsWeight m w) :
    xfade m nan 0x3F000000#32 fZero w = fmul32 m (nan 1) (fsub32 m (nan 0) fOne w) 0x3F000000#32 := by
  have hd := share_roundsInRange (nan := nan 1) (dryWeight_isWeight (nan := nan 0) hw) (v := 0x3F000000#32) rfl
  have he : isZero32 (fmul32 m (nan 2) w fZero) = true := by
    rw [fmul32_comm, fmul32_zero_left rfl hw.1]
    exact isZero32_zeroOf _
  rw [xfade_eq, stageWClamp_of_isWeight hw, fadd32_zero_right (not_nan_inf_of_finite hd.finite).left he, hd.condition_eq]
  by_cases hone : value32 (condition m w) = 1
  · have hzero : fmul32 m (nan 1) fZero 0x3F000000#32 = fZero := by cases m <;> rfl
    rw [dryWeight_of_value_one hw hone, hzero, if_pos (show isZero32 fZero = true from rfl),
      if_neg fun ⟨h, _⟩ => absurd h (by decide)]
  · refine if_neg fun hz => ?_
    have hval := value32_dryShare_half (nan := nan 1) (nan' := nan 0) hw
    have hpos := dryWeight_pos (nan := nan 0) hw hone
    rw [value32_of_isZero32 hz] at hval
    linarith

end

section
variable {m : SubnormalMode} {nan : Nat → Word} {w : Word}

theorem laneWith_t4_half (rs : Bool) : (laneWith m nan 0x3F000000#32 ⟨w, fZero, fOne, rs⟩).t4 = 0x3F000000#32 := by
  rw [laneWith_t4_of_neutral rfl rfl rfl]
  cases m <;> rfl

theorem laneWith_t7_half : (laneWith m nan 0x3F000000#32 ⟨w, fZero, fOne, false⟩).t7 = 0x3F000000#32 := by
  rw [laneWith_t7, laneWith_t6, laneWith_t5, if_neg Bool.false_ne_true, laneWith_t4_half, stageFinite_of_finite rfl]
  cases m <;> rfl

theorem laneWith_t7_half_residue : (laneWith m nan 0x3F000000#32 ⟨w, fZero, fOne, true⟩).t7 = fZero := by
  rw [laneWith_t7, laneWith_t6, laneWith_t5, if_pos rfl, laneWith_t4_half, fsub32_self rfl, stageFinite_of_finite rfl]
  cases m <;> rfl

end

end Sys2Proof.Machine
end

section
/-! The obligations about FRAME's result and its NaNs, non-finite samples, and the scenario of R108 (42_crossfader_frame). -/

namespace Sys2Proof.Machine

/-- Settles O16: every primitive answers its NaN or a word that does not depend on it, and the fallback drops a NaN `t5`. -/
theorem onlyFreedomIsNaNPattern : Obligations.OnlyFreedomIsNaNPattern :=
  ⟨fun s x0 x1 => ⟨_, _, exec_eq_next _ s, out_afterCommand_frame x0 x1 s⟩,
    fun _ _ _ _ _ hnan hnan' => ⟨laneWith_t6_eq hnan hnan', laneWith_t7_eq hnan hnan', laneWith_y_sameOrNaN hnan hnan'⟩⟩

/-- Settles O14: FRAME's four writes; the lanes of equal samples differ by their draws alone; R110's example is computed. -/
theorem frameResult : Obligations.FrameResult := by
  refine ⟨?_, ?_, _, exec_eq_next _ _, ?_, rfl, rfl⟩
  · rintro s x0 x1 _ rfl
    have hpos : BitVec.ofNat 7 ((s.pos.toNat + 1) % 128) = s.pos + 1#7 :=
      BitVec.eq_of_toNat_eq (by rw [pos_add_one_toNat, BitVec.toNat_ofNat]; omega)
    rw [exec_frame_eq, hpos]
    rfl
  · rintro m k x q _ rfl
    exact lane_y_sameOrNaN m k (k + 9) x q
  · rw [out_afterCommand_frame]
    decide +kernel

/-- Settles O15: a lane's word is a function of the mode, its sample, the snapshot and its draws. -/
theorem lanesAreIndependent : Obligations.LanesAreIndependent := by
  intro s s' x0 x1 x0' x1' hparams hcfg
  refine ⟨_, _, _, _, _, _, exec_eq_next _ s, out_afterCommand_frame x0 x1 s, exec_eq_next _ s',
    out_afterCommand_frame x0 x1' s', exec_eq_next _ s', out_afterCommand_frame x0' x1 s', ?_⟩
  rw [hparams, hcfg]
  exact ⟨lane_y_sameOrNaN _ _ _ _ _, lane_y_sameOrNaN _ _ _ _ _, fun hdraws => by rw [hdraws]; exact ⟨rfl, rfl⟩⟩

/-- Settles O54: a sum of shares exceeds a finite sample by at most 1; a non-finite sample is the fallback's, and the dry
share decides. -/
theorem finiteAndNonFiniteSamples : Obligations.FiniteAndNonFiniteSamples := by
  refine ⟨fun m nan x o w hx ho hw => isFinite32_xfade hw hx ho, ?_⟩
  rintro m nan x p _ hnan rfl
  have hnan5 : AllNaN fun n => nan (5 + n) := fun n => hnan (5 + n)
  refine ⟨fun hx hw => ?_, fun hx => ⟨?_, ?_⟩, fun hx hw => ⟨?_, fun hlt => ?_, fun hone => ?_⟩⟩
  · rw [laneWith_y]
    exact isFinite32_xfade hw hx (isNominal_laneWith_t7 (not_nan_inf_of_finite hx).left)
  · rw [laneWith_t7_of_not_finite hnan (not_finite_of_nan hx), stageClamp, clampF_nan hx]
  · rw [laneWith_y]
    exact isNaN32_xfade_of_nan hnan5 hx
  · rw [laneWith_t7_of_not_finite hnan (not_finite_of_inf hx), ← stageClamp_infOf m, ← eq_infOf_of_isInf32 hx]
  · rw [laneWith_y]
    exact xfade_inf (isWeight_stageWClamp m hw) hlt.ne hx (isNominal_laneWith_t7 (isNaN32_of_isInf32 hx)).left
  · rw [laneWith_y]
    exact isNaN32_xfade_of_dryWeight_zero hnan5 hx (dryWeight_of_value_one (isWeight_stageWClamp m hw)
      ((value32_condition_eq_one_iff m _).mpr hone))

/-- Settles O55: the neutral amounts pass 0.5 on, both its shares sum to 0.5 within 2^-26, and its residue is `+0`. -/
theorem halfSampleScenario : Obligations.HalfSampleScenario := by
  intro m nan w hw
  refine ⟨laneWith_t7_half, ?_, laneWith_t7_half_residue, ?_⟩
  · rw [laneWith_y, laneWith_t7_half]
    exact xfade_half_half (hw.isWeight m)
  · rw [laneWith_y, laneWith_t7_half_residue]
    exact xfade_half_zero (hw.isWeight m)

/-- Refutes O56: at the fraction 2^-30, `fsub32(1, T)` is 1 and the dry share 0.5. -/
theorem not_residueGivesHalfOnlyAtZeroFraction : ¬ Obligations.ResidueGivesHalfOnlyAtZeroFraction := by
  intro h
  have hfraction : IsFraction 0x30800000#32 := by
    refine ⟨?_, ?_, ?_⟩ <;> decide +kernel
  have hnan : AllNaN fun _ => fQNaN := fun _ => (by decide : isNaN32 fQNaN = true)
  obtain ⟨-, -, -, hy⟩ := halfSampleScenario .ieee (fun _ => fQNaN) 0x30800000#32 hfraction
  have hzero := h .ieee (fun _ => fQNaN) 0x30800000#32 hnan hfraction (hy.trans rfl)
  exact absurd hzero (by decide)

end Sys2Proof.Machine
end

section
/-! SUPPORT. How far a rounding lies from the exact result: half a unit in the last place, relative in the normal range and absolute
below it (00_scope R15), and what FTZ_DAZ flushes (R16). -/

namespace Sys2Proof.Machine

/-- Half the spacing of the subnormal words, and under FTZ_DAZ the least magnitude that is not flushed. -/
def absError : SubnormalMode → Rat
  | .ieee => 1 / 2 ^ 150
  | .ftzDaz => 1 / 2 ^ 126

theorem absError_ge (m : SubnormalMode) : 1 / 2 ^ 150 ≤ absError m := by
  cases m <;> norm_num [absError]

theorem absError_le (m : SubnormalMode) : absError m ≤ 1 / 2 ^ 126 := by
  cases m <;> norm_num [absError]

/-- Reading a word loses a subnormal under FTZ_DAZ, and nothing else. -/
theorem abs_value32_sub_condition_le (m : SubnormalMode) (w : Word) :
    |value32 w - value32 (condition m w)| ≤ absError m := by
  obtain h | ⟨rfl, hsmall, h⟩ := value32_condition_cases m w
  · rw [h, sub_self, abs_zero]
    exact le_trans (by norm_num) (absError_ge m)
  · rw [h, sub_zero]
    exact hsmall.le

/-- The spacing a number is rounded at: `2^k` units, and with 24 bits of it unless `k = 0`. -/
theorem exists_spacing_of_number (r : Rat) :
    ∃ k : Nat, |r| < 2 ^ 24 * (2 ^ k / 2 ^ 149) ∧ (k = 0 ∨ (2 : Rat) ^ 23 * (2 ^ k / 2 ^ 149) ≤ |r|) := by
  obtain ⟨n, hn⟩ : ∃ n : Nat, |r| < 2 ^ 24 * (2 ^ n / 2 ^ 149) := by
    obtain ⟨n, hn⟩ := pow_unbounded_of_one_lt (|r| * 2 ^ 149 / 2 ^ 24) (one_lt_two (α := Rat))
    refine ⟨n, ?_⟩
    rw [div_lt_iff₀ (by positivity)] at hn
    rw [← mul_div_assoc, lt_div_iff₀ (by positivity), mul_comm (2 ^ 24 : Rat)]
    exact hn
  induction n with
  | zero => exact ⟨0, hn, .inl rfl⟩
  | succ n ih =>
    by_cases hlow : |r| < 2 ^ 24 * (2 ^ n / 2 ^ 149)
    · exact ih hlow
    · exact ⟨n + 1, hn, .inr (le_of_eq_of_le (by ring) (not_lt.mp hlow))⟩

/-- Every number below the overflow threshold has a finite word within half the spacing it is rounded at. -/
theorem exists_word_near {r : Rat} (hr : |r| < 2 ^ 128 - 2 ^ 103) :
    ∃ u, isFinite32 u = true ∧ |r - value32 u| ≤ |r| / 2 ^ 24 + 1 / 2 ^ 150 := by
  obtain ⟨k, hlt, hk⟩ := exists_spacing_of_number r
  obtain ⟨U, hU⟩ : ∃ U : Rat, U = 2 ^ k / 2 ^ 149 := ⟨_, rfl⟩
  have hUpos : 0 < U := by rw [hU]; positivity
  rw [← hU] at hlt hk
  have hround := abs_sub_round (r / U)
  generalize round (r / U) = z at hround
  have herr : |r - z * U| ≤ U / 2 := by
    rw [show r - z * U = (r / U - z) * U by field_simp, abs_mul, abs_of_pos hUpos]
    linarith [mul_le_mul_of_nonneg_right hround hUpos.le]
  have hzU {c : Nat} (h : |r| < (c + 1 / 2) * U) : z.natAbs ≤ c := by
    have habs : (z.natAbs : Rat) * U = |z * U| := by rw [abs_mul, abs_of_pos hUpos, Nat.cast_natAbs, Int.cast_abs]
    have htri : |z * U| ≤ |r| + U / 2 := by
      have := abs_sub_abs_le_abs_sub (z * U) r
      rw [abs_sub_comm] at this
      linarith
    have : (z.natAbs : Rat) < c + 1 := lt_of_mul_lt_mul_right (by rw [habs]; linarith) hUpos.le
    exact Nat.lt_succ_iff.mp (by exact_mod_cast this)
  have hz : z.natAbs ≤ 2 ^ 24 := hzU (by push_cast; linarith)
  have hk253 : k ≤ 253 := by
    by_contra hbig
    obtain ⟨j, rfl⟩ := Nat.exists_eq_add_of_le (not_le.mp hbig)
    have hU105 : (2 : Rat) ^ 105 ≤ U := by
      rw [hU, show 253 + 1 + j = 149 + (105 + j) by omega, pow_add, mul_div_cancel_left₀ _ (by positivity)]
      exact pow_le_pow_right₀ one_le_two (by omega)
    obtain h0 | hge := hk
    · omega
    · linarith
  have hfits : z.natAbs * 2 ^ k < 2 ^ 277 := by
    obtain hk | rfl : k ≤ 252 ∨ k = 253 := by omega
    · calc z.natAbs * 2 ^ k ≤ 2 ^ 24 * 2 ^ 252 := Nat.mul_le_mul hz (Nat.pow_le_pow_right two_pos hk)
        _ < 2 ^ 277 := by rw [← pow_add]; exact pow_lt_pow_right₀ one_lt_two (by omega)
    · have hU104 : U = 2 ^ 104 := by rw [hU]; norm_num
      have hz1 : z.natAbs ≤ 2 ^ 24 - 1 := hzU (by rw [hU104]; push_cast; linarith)
      calc z.natAbs * 2 ^ 253 < 2 ^ 24 * 2 ^ 253 := Nat.mul_lt_mul_of_pos_right (by omega) (by positivity)
        _ = 2 ^ 277 := by rw [← pow_add]
  obtain ⟨u, hu, hval⟩ := exists_word_of_units hz hfits
  refine ⟨u, hu, ?_⟩
  rw [hval, mul_div_assoc, ← hU]
  obtain rfl | hge := hk
  · have hU1 : U = 1 / 2 ^ 149 := by rw [hU, pow_zero]
    have := abs_nonneg r
    linarith
  · linarith

/-- The error of one rounding (R109). -/
theorem RoundsInRange.abs_error_le {m : SubnormalMode} {r : Rat} {w : Word} (h : RoundsInRange m r w)
    (hr : |r| < 2 ^ 128 - 2 ^ 103) : |r - value32 w| ≤ |r| / 2 ^ 24 + absError m := by
  obtain ⟨u, hu, hnear⟩ := exists_word_near hr
  obtain ⟨v, hv, rfl, hmin⟩ := h
  obtain hread | ⟨rfl, hsmall, hzero⟩ := value32_condition_cases m v
  · rw [hread]
    linarith [hmin u hu, absError_ge m]
  · have hleast : value32 0x00800000#32 = 1 / 2 ^ 126 := by decide +kernel
    have hpos := hmin 0x00800000#32 rfl
    have hneg := hmin (negate 0x00800000#32) rfl
    rw [value32_negate, hleast] at hneg
    rw [hleast] at hpos
    obtain ⟨hlo, hhi⟩ := abs_lt.mp hsmall
    have hflushed : |r| ≤ 1 / 2 ^ 126 := by
      refine abs_le.mpr ⟨?_, ?_⟩
      · by_contra hbeyond
        rw [abs_of_neg (by linarith), abs_of_neg (by linarith)] at hneg
        linarith
      · by_contra hbeyond
        rw [abs_of_pos (by linarith), abs_of_pos (by linarith)] at hpos
        linarith
    rw [hzero, sub_zero, absError]
    linarith [abs_nonneg r]

end Sys2Proof.Machine
end

section
/-! SUPPORT. The shares of any two finite words do not overflow together (42_crossfader_frame R109): each is less than its weight
times 2^128, and a share in the highest binades is so by a whole spacing. -/

namespace Sys2Proof.Machine

/-- No nonzero word is smaller than one unit. -/
theorem one_unit_le_abs {w : Word} (h : value32 w ≠ 0) : 1 / 2 ^ 149 ≤ |value32 w| := by
  have hz : isZero32 w = false := Bool.eq_false_iff.mpr (mt value32_of_isZero32 h)
  have hpos : (1 : Rat) ≤ magUnits w := by exact_mod_cast magUnits_pos hz
  rw [abs_value32]
  gcongr

/-- A magnitude as a whole number of the spacings of its binade. -/
theorem exists_grid_abs {w : Word} (j : Nat) (h : (2 : Rat) ^ 23 * (2 ^ j / 2 ^ 149) ≤ |value32 w|) :
    ∃ k : Int, |value32 w| = k * (2 ^ j / 2 ^ 149) := by
  obtain ⟨k, hk⟩ := exists_grid_multiple j (le_of_eq_of_le (by ring) h)
  exact ⟨|k|, by rw [hk, abs_mul, abs_of_pos (show (0 : Rat) < 2 ^ j / 2 ^ 149 by positivity), Int.cast_abs]⟩

section
variable {m : SubnormalMode} {nan nan' t v x o : Word}

theorem abs_weight_product_lt (ht : IsWeight m t) (hv : isFinite32 v = true) :
    |value32 (condition m t) * value32 (condition m v)| < 2 ^ 128 - 2 ^ 103 :=
  (abs_weight_mul_le ht).trans_lt (abs_value32_lt_threshold (hv ▸ isFinite32_condition m v))

/-- `F_MAX` falls short of 2^128 by more than a rounding can add. -/
theorem abs_share_lt (ht : IsWeight m t) (hne : value32 (condition m t) ≠ 0) (hv : isFinite32 v = true) :
    |value32 (fmul32 m nan t v)| < value32 (condition m t) * 2 ^ 128 := by
  have herr := (share_roundsInRange (nan := nan) ht hv).abs_error_le (abs_weight_product_lt ht hv)
  have hunit := one_unit_le_abs hne
  obtain ⟨-, h0, -⟩ := ht
  have hmax := abs_value32_le_fMax (w := condition m v) (by rwa [isFinite32_condition])
  have hprod := mul_le_mul_of_nonneg_left hmax h0
  rw [← abs_of_nonneg h0, ← abs_mul, abs_of_nonneg h0, value32_fMax] at hprod
  rw [abs_of_nonneg h0] at hunit
  have htri := abs_sub_abs_le_abs_sub (value32 (fmul32 m nan t v)) (value32 (condition m t) * value32 (condition m v))
  rw [abs_sub_comm] at htri
  linarith [absError_le m]

theorem share_of_weight_zero (ht : IsWeight m t) (h0 : value32 (condition m t) = 0) (hv : isFinite32 v = true) :
    value32 (fmul32 m nan t v) = 0 := by
  have h := (share_roundsInRange (nan := nan) ht hv).abs_le_of_abs_le (b := fZero) rfl (condition_fZero m)
  rw [h0, zero_mul, abs_zero, value32_of_isZero32 rfl] at h
  exact abs_nonpos_iff.mp (h le_rfl)

/-- Words below 2^127 are at least 2^103 below it. -/
theorem abs_value32_le_of_lt {w : Word} (h : |value32 w| < 2 ^ 127) : |value32 w| ≤ 2 ^ 127 - 2 ^ 103 := by
  by_cases hlow : |value32 w| < 2 ^ 126
  · linarith
  · obtain ⟨k, hk⟩ := exists_grid_abs (w := w) 252 (by linarith)
    have hk24 : k ≤ 2 ^ 24 - 1 := by
      have : (k : Rat) < 2 ^ 24 := by linarith
      exact Int.le_sub_one_of_lt (by exact_mod_cast this)
    have : (k : Rat) ≤ 2 ^ 24 - 1 := by exact_mod_cast hk24
    linarith

/-- A share of 2^127 or more lies a whole spacing below its weight times 2^128, which is a multiple of that spacing too. -/
theorem abs_share_le_of_ge (ht : IsWeight m t) (hv : isFinite32 v = true) (hbig : 2 ^ 127 ≤ |value32 (fmul32 m nan t v)|) :
    |value32 (fmul32 m nan t v)| ≤ value32 (condition m t) * 2 ^ 128 - 2 ^ 104 := by
  have hlt : |value32 (fmul32 m nan t v)| < |value32 (condition m t)| * 2 ^ 128 := by
    rw [abs_of_nonneg ht.2.1]
    refine abs_share_lt ht (fun h0 => ?_) hv
    rw [share_of_weight_zero ht h0 hv, abs_zero] at hbig
    linarith
  obtain ⟨k, hk⟩ := exists_grid_abs 253 (w := fmul32 m nan t v) (by linarith)
  obtain ⟨l, hl⟩ := exists_grid_abs 125 (w := condition m t) (by linarith)
  have hkl : k ≤ l - 1 := by
    have : (k : Rat) < l := by linarith
    exact Int.le_sub_one_of_lt (by exact_mod_cast this)
  have : (k : Rat) ≤ l - 1 := by exact_mod_cast hkl
  rw [← abs_of_nonneg ht.2.1]
  linarith

/-- One share of 2^127 or more and another: their weights sum to at most 1 + 2^-25. -/
theorem abs_shares_add_lt_of_ge {t' : Word} (ht : IsWeight m t) (ht' : IsWeight m t')
    (hsum : value32 (condition m t) + value32 (condition m t') ≤ 1 + 1 / 2 ^ 25) (hx : isFinite32 x = true)
    (ho : isFinite32 o = true) (hbig : 2 ^ 127 ≤ |value32 (fmul32 m nan t x)|) :
    |value32 (fmul32 m nan t x)| + |value32 (fmul32 m nan' t' o)| < 2 ^ 128 - 2 ^ 103 := by
  by_cases h0 : value32 (condition m t') = 0
  · rw [share_of_weight_zero ht' h0 ho, abs_zero, add_zero]
    exact abs_value32_lt_threshold (share_roundsInRange ht hx).finite
  · have hd := abs_share_le_of_ge ht hx hbig
    have he := abs_share_lt (nan := nan') ht' h0 ho
    linarith

theorem abs_shares_add_lt {t' : Word} (ht : IsWeight m t) (ht' : IsWeight m t')
    (hsum : value32 (condition m t) + value32 (condition m t') ≤ 1 + 1 / 2 ^ 25) (hx : isFinite32 x = true)
    (ho : isFinite32 o = true) :
    |value32 (fmul32 m nan t x)| + |value32 (fmul32 m nan' t' o)| < 2 ^ 128 - 2 ^ 103 := by
  obtain hd | hd := le_or_gt (2 ^ 127) |value32 (fmul32 m nan t x)|
  · exact abs_shares_add_lt_of_ge ht ht' hsum hx ho hd
  obtain he | he := le_or_gt (2 ^ 127) |value32 (fmul32 m nan' t' o)|
  · rw [add_comm] at hsum ⊢
    exact abs_shares_add_lt_of_ge ht' ht hsum ho hx he
  · linarith [abs_value32_le_of_lt hd, abs_value32_le_of_lt he]

end

end Sys2Proof.Machine
end

section
/-! SUPPORT. The four rounding errors of the interpolation (42_crossfader_frame R109). -/

namespace Sys2Proof.Machine

/-- R109's exact interpolation. -/
def interpolation (x o t : Rat) : Rat := (1 - t) * x + t * o

/-- What reading the three words as the mode does moves the exact interpolation by. -/
theorem abs_interpolation_sub_le {x x' o o' t t' M η : Rat} (h0 : 0 ≤ t') (h1 : t' ≤ 1) (ht : |t - t'| ≤ η)
    (hx : |x - x'| ≤ η) (ho : |o - o'| ≤ η) (hxM : |x| ≤ M) (hoM : |o| ≤ M) :
    |interpolation x o t - interpolation x' o' t'| ≤ η + 2 * (η * M) := by
  have hη : 0 ≤ η := (abs_nonneg _).trans ht
  have hparts : interpolation x o t - interpolation x' o' t' =
      ((1 - t') * (x - x') + t' * (o - o')) + ((t - t') * o - (t - t') * x) := by
    unfold interpolation
    ring
  have hshare {s u : Rat} (hs : 0 ≤ s) (hu : |u| ≤ η) : |s * u| ≤ s * η := by
    rw [abs_mul, abs_of_nonneg hs]
    exact mul_le_mul_of_nonneg_left hu hs
  have hmoved {u : Rat} (hu : |u| ≤ M) : |(t - t') * u| ≤ η * M := by
    rw [abs_mul]
    exact mul_le_mul ht hu (abs_nonneg _) hη
  rw [hparts]
  calc _ ≤ |(1 - t') * (x - x')| + |t' * (o - o')| + (|(t - t') * o| + |(t - t') * x|) :=
        (abs_add_le _ _).trans (add_le_add (abs_add_le _ _) (abs_sub _ _))
    _ ≤ (1 - t') * η + t' * η + (η * M + η * M) :=
        add_le_add (add_le_add (hshare (by linarith) hx) (hshare h0 ho)) (add_le_add (hmoved hoM) (hmoved hxM))
    _ = η + 2 * (η * M) := by ring

/-- What the roundings of the dry weight `a`, of the shares `d` and `e` and of the sum `y` move it by together. -/
theorem abs_interpolation_sub_rounded_le {x o t a d e y M η : Rat} (h0 : 0 ≤ t) (ha0 : 0 ≤ a) (hη : 0 ≤ η)
    (ha : |a - (1 - t)| ≤ 1 / 2 ^ 25) (hxM : |x| ≤ M) (hoM : |o| ≤ M)
    (hd : |a * x - d| ≤ |a * x| / 2 ^ 24 + η) (he : |t * o - e| ≤ |t * o| / 2 ^ 24 + η)
    (hy : |d + e - y| ≤ |d + e| / 2 ^ 24 + η) :
    |interpolation x o t - y| ≤ 11 / 2 ^ 26 * M + 4 * η := by
  have hM : 0 ≤ M := (abs_nonneg _).trans hxM
  have hparts : interpolation x o t - y = -((a - (1 - t)) * x) + (a * x - d) + (t * o - e) + (d + e - y) := by
    unfold interpolation
    ring
  have hweighted {s u : Rat} (hs : 0 ≤ s) (hu : |u| ≤ M) : |s * u| ≤ s * M := by
    rw [abs_mul, abs_of_nonneg hs]
    exact mul_le_mul_of_nonneg_left hu hs
  have hdry : |(a - (1 - t)) * x| ≤ 1 / 2 ^ 25 * M := by
    rw [abs_mul]
    exact mul_le_mul ha hxM (abs_nonneg _) (by norm_num)
  have hweights : |a * x| + |t * o| ≤ (1 + 1 / 2 ^ 25) * M :=
    calc |a * x| + |t * o| ≤ (a + t) * M := (add_le_add (hweighted ha0 hxM) (hweighted h0 hoM)).trans_eq (by ring)
      _ ≤ (1 + 1 / 2 ^ 25) * M := mul_le_mul_of_nonneg_right (by linarith [(abs_le.mp ha).2]) hM
  have hshares : |d + e| ≤ (|a * x| + (|a * x| / 2 ^ 24 + η)) + (|t * o| + (|t * o| / 2 ^ 24 + η)) := by
    have hwithin {c u : Rat} (h : |u - c| ≤ |u| / 2 ^ 24 + η) : |c| ≤ |u| + (|u| / 2 ^ 24 + η) := by
      have := abs_sub_abs_le_abs_sub c u
      rw [abs_sub_comm] at this
      linarith
    exact (abs_add_le _ _).trans (add_le_add (hwithin hd) (hwithin he))
  rw [hparts]
  calc _ ≤ |(a - (1 - t)) * x| + |a * x - d| + |t * o - e| + |d + e - y| := by
        rw [← abs_neg ((a - (1 - t)) * x)]
        exact (abs_add_le _ _).trans (add_le_add_left ((abs_add_le _ _).trans (add_le_add_left (abs_add_le _ _) _)) _)
    _ ≤ 11 / 2 ^ 26 * M + 4 * η := by linarith

/-- The crossfader's error on finite words (R109). -/
theorem xfade_error {m : SubnormalMode} {nan : Nat → Word} {x o w : Word} (hx : isFinite32 x = true)
    (ho : isFinite32 o = true) (hw : IsFraction w) :
    isFinite32 (xfade m nan x o w) = true ∧
      |value32 (xfade m nan x o w) - interpolation (value32 x) (value32 o) (value32 w)| <
        1 / 2 ^ 22 * max |value32 x| |value32 o| + 8 * absError m := by
  have ht := hw.isWeight m
  have hclamp := stageWClamp_of_isWeight ht
  have hdry := dryWeight_isWeight (nan := nan 0) ht
  have hdryRead := (dryWeight_roundsInRange (nan := nan 0) ht).condition_eq
  have hnear := abs_dryWeight_sub_le (nan := nan 0) ht
  have hlt : |value32 (fmul32 m (nan 1) (fsub32 m (nan 0) fOne w) x) + value32 (fmul32 m (nan 2) w o)| <
      2 ^ 128 - 2 ^ 103 := by
    refine (abs_add_le _ _).trans_lt (abs_shares_add_lt hdry ht ?_ hx ho)
    rw [hdryRead]
    linarith [(abs_le.mp hnear).2]
  have hd := (share_roundsInRange (nan := nan 1) hdry hx).abs_error_le (abs_weight_product_lt hdry hx)
  have he := (share_roundsInRange (nan := nan 2) ht ho).abs_error_le (abs_weight_product_lt ht ho)
  rw [hdryRead] at hd
  have hy := xfade_roundsInRange (nan := nan) (hclamp.symm ▸ ht) rfl rfl hx ho (by rwa [hclamp])
  rw [hclamp] at hy
  obtain ⟨-, h0, h1⟩ := ht
  have hη := absError_ge m
  have hη' := absError_le m
  have hM : |value32 x| ≤ max |value32 x| |value32 o| ∧ |value32 o| ≤ max |value32 x| |value32 o| :=
    ⟨le_max_left _ _, le_max_right _ _⟩
  generalize max |value32 x| |value32 o| = M at hM ⊢
  obtain ⟨hxM, hoM⟩ := hM
  have hread := abs_interpolation_sub_le h0 h1 (abs_value32_sub_condition_le m w) (abs_value32_sub_condition_le m x)
    (abs_value32_sub_condition_le m o) hxM hoM
  have hrounded := abs_interpolation_sub_rounded_le h0 (hdryRead ▸ hdry.2.1) (by linarith) hnear
    ((abs_value32_condition_le m x).trans hxM) ((abs_value32_condition_le m o).trans hoM) hd he (hy.abs_error_le hlt)
  refine ⟨hy.finite, ?_⟩
  have hηM : absError m * M ≤ 1 / 2 ^ 126 * M := mul_le_mul_of_nonneg_right hη' ((abs_nonneg _).trans hxM)
  rw [abs_sub_comm]
  refine (abs_sub_le _ _ _).trans_lt ((add_le_add hread hrounded).trans_lt ?_)
  linarith [(abs_nonneg _).trans hxM]

/-- The crossfader run word by word, each rounding under every NaN supply. -/
theorem xfade_eq_of_words {m : SubnormalMode} {x o w t omt d e y : Word} (ht : stageWClamp m w = t)
    (homt : ∀ n, fsub32 m n fOne t = omt) (hd : ∀ n, fmul32 m n omt x = d) (he : ∀ n, fmul32 m n t o = e)
    (hy : ∀ n, fadd32 m n d e = y) (nan : Nat → Word) : xfade m nan x o w = y := by
  rw [xfade_eq, ht, homt, hd, he, hy]

end Sys2Proof.Machine
end

section
/-! The obligation about the interpolation's error (42_crossfader_frame R109). -/

namespace Sys2Proof.Machine

/-- Settles O57: the four roundings move the exact interpolation by at most 11/2^26 of the larger operand and 4 absolute errors, and
under FTZ_DAZ the reading of the operands by one more. -/
theorem interpolationErrorBound : Obligations.InterpolationErrorBound := by
  refine ⟨fun nan x o t hx ho ht => ?_, fun nan x o t hx ho ht => ?_, fun nan => ⟨?_, ?_⟩⟩
  · have hconst : (1 : Rat) / 2 ^ 147 = 8 * absError .ieee := by norm_num [absError]
    rw [hconst]
    exact xfade_error hx ho ht
  · have hconst : (1 : Rat) / 2 ^ 123 = 8 * absError .ftzDaz := by norm_num [absError]
    rw [hconst]
    exact xfade_error hx ho ht
  · exact xfade_eq_of_words (omt := 0x3F2AAAAA#32) (d := 0x3F2AAAA9#32) (e := 0x3EAAAAAA#32) rfl (fun _ => rfl)
      (fun _ => rfl) (fun _ => rfl) (fun _ => rfl) nan
  · exact xfade_eq_of_words (omt := 0x3F000000#32) (d := 0x00400000#32) (e := 0x00400000#32) rfl (fun _ => rfl)
      (fun _ => rfl) (fun _ => rfl) (fun _ => rfl) nan

end Sys2Proof.Machine
end

section
/-! SUPPORT. The turns of PROCESS_BUFFER's loop (42_crossfader_frame R114): which snapshot each computes with, and what `n` of them
leave, from any state. -/

namespace Sys2Proof.Machine

/-! ## The snapshot of each turn (40_parameter_sampler R75, R76) -/

/-- The snapshot registers after `n` turns that present the bundles `ps`, from `POS = k` with the snapshot `q`: a turn at a
multiple of 128 captures its bundle, and any other keeps what is held. -/
def snapshotAfter (k : Nat) (q : Params) (ps : List (BitVec 97)) : Nat → Params
  | 0 => q
  | n + 1 => if (k + n) % 128 = 0 then unpackP (ps.getD n 0) else snapshotAfter k q ps n

/-- Counted from the start of a sub-block, every turn computes with the bundle of the first frame of its sub-block (R78). -/
theorem snapshotAfter_eq_subBlockStart (q : Params) (ps : List (BitVec 97)) (f : Nat) :
    snapshotAfter 0 q ps (f + 1) = unpackP (ps.getD (f / 128 * 128) 0) := by
  induction f with
  | zero => rfl
  | succ f ih =>
    rw [snapshotAfter, zero_add]
    split
    · rw [show (f + 1) / 128 * 128 = f + 1 by omega]
    · rw [ih, show (f + 1) / 128 * 128 = f / 128 * 128 by omega]

/-! ## One turn -/

theorem frameEvents_drop {ps : List (BitVec 97)} {n : Nat} (hn : n < ps.length) :
    frameEvents n (ps.drop n) = .frameAt n (ps.getD n 0) :: frameEvents (n + 1) (ps.drop (n + 1)) := by
  rw [List.drop_eq_getElem_cons hn, frameEvents, List.getD_eq_getElem _ _ hn]

/-- What `n` turns of the loop leave of a state `s` whose buffer has one frame for each bundle of `ps`. -/
structure AfterTurns (s : State) (ps : List (BitVec 97)) (rest : List HostEvent) (n : Nat) (t : State) : Prop where
  script : t.script = frameEvents n (ps.drop n) ++ rest
  cfg : t.cfg = s.cfg
  draws : t.draws = s.draws + 18 * n
  pos : t.pos.toNat = (s.pos.toNat + n) % 128
  snapshot : t.snapshot = snapshotAfter s.pos.toNat s.snapshot ps n
  wf : t.buf.wf = true
  frames : t.buf.frames = ps.length
  done : ∀ f < n, ∀ x0 x1, bufRead s.buf 0 f = some x0 → bufRead s.buf 1 f = some x1 →
    bufRead t.buf 0 f =
        some (lane s.cfg.subnormal (s.draws + 18 * f) x0 (snapshotAfter s.pos.toNat s.snapshot ps (f + 1))).y ∧
      bufRead t.buf 1 f =
        some (lane s.cfg.subnormal (s.draws + 18 * f + 9) x1 (snapshotAfter s.pos.toNat s.snapshot ps (f + 1))).y
  ahead : ∀ c f, n ≤ f → bufRead t.buf c f = bufRead s.buf c f

theorem AfterTurns.zero {s : State} {ps : List (BitVec 97)} {rest : List HostEvent} (hscript : s.script = frameEvents 0 ps ++ rest)
    (hwf : s.buf.wf = true) (hframes : s.buf.frames = ps.length) : AfterTurns s ps rest 0 s where
  script := hscript
  cfg := rfl
  draws := rfl
  pos := (Nat.mod_eq_of_lt s.pos.isLt).symm
  snapshot := rfl
  wf := hwf
  frames := hframes
  done := nofun
  ahead := fun _ _ _ => rfl

/-- The next turn reads its two words as the buffer supplied them, and its results stand from then on. -/
theorem AfterTurns.step {s u : State} {ps : List (BitVec 97)} {rest : List HostEvent} {n : Nat}
    (h : AfterTurns s ps rest n u) (hn : n < ps.length) : ∃ t, step u = .next t ∧ AfterTurns s ps rest (n + 1) t := by
  have hread (c : Nat) (hc : c < 2) : ∃ x, bufRead u.buf c n = some x :=
    Option.isSome_iff_exists.mp ((bufRead_isSome_iff h.wf c n).mpr ⟨hc, h.frames ▸ hn⟩)
  obtain ⟨x0, h0⟩ := hread 0 (by decide)
  obtain ⟨x1, h1⟩ := hread 1 (by decide)
  have hscript := h.script
  rw [frameEvents_drop hn, List.cons_append] at hscript
  obtain ⟨b, y, hout, hstep, hb0, hb1, hother, hwf, hframes⟩ := step_frameAt_legal hscript h0 h1
  have hparams : ((u.setScript (frameEvents (n + 1) (ps.drop (n + 1)) ++ rest)).setInP (unpackP (ps.getD n 0))).frameParams =
      snapshotAfter s.pos.toNat s.snapshot ps (n + 1) := by
    rw [snapshotAfter, ← h.pos, ← h.snapshot, State.frameParams]
    refine if_congr ?_ rfl rfl
    rw [← BitVec.toNat_inj]
    rfl
  have hlanes : outputsOf s.cfg.subnormal (s.draws + 18 * n) x0 x1 (snapshotAfter s.pos.toNat s.snapshot ps (n + 1)) = y := by
    rw [out_afterCommand_frame, hparams, Option.some.injEq] at hout
    rw [← h.cfg, ← h.draws]
    exact hout
  subst hlanes
  refine ⟨_, hstep, rfl, h.cfg, ?_, ?_, hparams, hwf.trans h.wf, hframes.trans h.frames, fun f hf y0 y1 hy0 hy1 => ?_,
    fun c f hf => ?_⟩
  · show u.draws + 18 = _
    rw [h.draws]
    ring
  · show (u.pos + 1#7).toNat = _
    rw [pos_add_one_toNat, h.pos]
    omega
  · obtain rfl | hlt : f = n ∨ f < n := by omega
    · rw [h.ahead 0 f le_rfl, hy0, Option.some.injEq] at h0
      rw [h.ahead 1 f le_rfl, hy1, Option.some.injEq] at h1
      subst h0 h1
      exact ⟨hb0, hb1⟩
    · exact (hother 0 f hlt.ne).symm ▸ (hother 1 f hlt.ne).symm ▸ h.done f hlt y0 y1 hy0 hy1
  · exact (hother c f (by omega)).trans (h.ahead c f (by omega))

theorem run_turns {s : State} {ps : List (BitVec 97)} {rest : List HostEvent} (hscript : s.script = frameEvents 0 ps ++ rest)
    (hwf : s.buf.wf = true) (hframes : s.buf.frames = ps.length) {n : Nat} (hn : n ≤ ps.length) :
    ∃ t, core.run n s = .next t ∧ AfterTurns s ps rest n t := by
  induction n with
  | zero => exact ⟨s, rfl, .zero hscript hwf hframes⟩
  | succ n ih =>
    obtain ⟨u, hrun, hu⟩ := ih (Nat.le_of_succ_le hn)
    obtain ⟨t, hstep, ht⟩ := hu.step hn
    exact ⟨t, (run_succ_of_run hrun).trans hstep, ht⟩

/-! ## The procedure -/

theorem run_succ_of_step {M : Host.Core} {s u : M.State} (h : M.step s = .next u) (k : Nat) : M.run (k + 1) s = M.run k u := by
  rw [Host.Core.run, h]

/-- A callback leaves its fresh buffer, and `POS` at the start of a sub-block. -/
theorem step_callback {s : State} {ch0 ch1 : List Word} {p : BitVec 97} {rest : List HostEvent}
    (hs : s.script = .callback [ch0, ch1] p :: rest) (hlen : ch0.length = ch1.length) :
    ∃ u, step s = .next u ∧ u.script = rest ∧ u.pos = 0#7 ∧ u.buf = ⟨ch0, ch1⟩ ∧ u.cfg = s.cfg ∧
      u.draws = s.draws := by
  obtain ⟨-, -, hcallback, -, -⟩ := stepRunsTheDecodedCommand
  exact ⟨_, (hcallback s ch0 ch1 p rest hs hlen).trans (exec_begin_eq _), rfl, rfl, rfl, rfl, rfl⟩

/-- BEGIN under the fresh buffer, and then one turn for each frame. -/
theorem run_processBuffer (s : State) {ch0 ch1 : List Word} (p : BitVec 97) {ps : List (BitVec 97)} (rest : List HostEvent)
    (h0 : ch0.length = ps.length) (h1 : ch1.length = ps.length) :
    ∃ u t, core.run (ps.length + 1) { s with script := processBuffer ch0 ch1 p ps ++ rest } = .next t ∧
      u.pos = 0#7 ∧ u.buf = ⟨ch0, ch1⟩ ∧ u.cfg = s.cfg ∧ u.draws = s.draws ∧ AfterTurns u ps rest ps.length t := by
  obtain ⟨u, hstep, hscript, hpos, hbuf, hcfg, hdraws⟩ :=
    step_callback (s := { s with script := processBuffer ch0 ch1 p ps ++ rest }) rfl (h0.trans h1.symm)
  obtain ⟨t, hrun, ht⟩ := run_turns hscript (by simp [hbuf, Memory.wf, h0, h1]) (by rw [hbuf]; exact h0) le_rfl
  have hcore : core.step ({ s with script := processBuffer ch0 ch1 p ps ++ rest } : State) = .next u := hstep
  exact ⟨u, t, (run_succ_of_step hcore _).trans hrun, hpos, hbuf, hcfg, hdraws, ht⟩

/-- Two buffers in canonical form that read alike at their legal positions are one. -/
theorem memory_ext {b b' : Memory} (hwf : b.wf = true) (hwf' : b'.wf = true) (hframes : b'.frames = b.frames)
    (h : ∀ f < b.frames, bufRead b 0 f = bufRead b' 0 f ∧ bufRead b 1 f = bufRead b' 1 f) : b = b' := by
  have hread (f : Nat) : bufRead b 0 f = bufRead b' 0 f ∧ bufRead b 1 f = bufRead b' 1 f := by
    obtain hf | hf := Nat.lt_or_ge f b.frames
    · exact h f hf
    · have hnone := bufRead_eq_none_of_frames_le hwf hf
      have hnone' := bufRead_eq_none_of_frames_le hwf' (hframes ▸ hf)
      exact ⟨(hnone 0).trans (hnone' 0).symm, (hnone 1).trans (hnone' 1).symm⟩
  obtain ⟨ch0, ch1⟩ := b
  obtain ⟨ch0', ch1'⟩ := b'
  obtain rfl : ch0 = ch0' := List.ext_getElem? fun f => (hread f).left
  obtain rfl : ch1 = ch1' := List.ext_getElem? fun f => (hread f).right
  rfl

end Sys2Proof.Machine
end

section
/-! The obligations about PROCESS_BUFFER (42_crossfader_frame R114, R115). -/

namespace Sys2Proof.Machine

/-- Settles O26: by induction on the turns; from BEGIN on, each computes with the bundle of its sub-block's first frame. -/
theorem processBufferRewritesEverySample : Obligations.ProcessBufferRewritesEverySample := by
  intro s ch0 ch1 p ps rest h0 h1
  obtain ⟨u, t, hrun, hpos, hbuf, hcfg, hdraws, ht⟩ := run_processBuffer s p rest h0 h1
  refine ⟨t, hrun, by simpa [frameEvents] using ht.script, ht.cfg.trans hcfg, ?_, ht.wf, ht.frames,
    fun f x0 x1 q hx0 hx1 hq => ?_⟩
  · rw [ht.pos, hpos, BitVec.toNat_zero, zero_add]
  · have hf : f < ps.length := h0 ▸ (List.getElem?_eq_some_iff.mp hx0).1
    have hdone := ht.done f hf x0 x1 (by rw [hbuf]; exact hx0) (by rw [hbuf]; exact hx1)
    rw [hpos, BitVec.toNat_zero, snapshotAfter_eq_subBlockStart, List.getD_eq_getElem?_getD, hq] at hdone
    rw [← hcfg, ← hdraws]
    exact hdone

/-- Settles O27: every position of either buffer holds the lane's word for one sample under one bundle with the same draws. -/
theorem bufferOutputForgetsThePast : Obligations.BufferOutputForgetsThePast := by
  intro s t ch0 ch1 p p' ps ps' rest rest' h0 h1 hlen hps hcfg hdraws
  obtain ⟨s', hrun, -, -, -, hwf, hframes, hwords⟩ := processBufferRewritesEverySample s ch0 ch1 p ps rest h0 h1
  obtain ⟨t', hrun', -, -, -, hwf', hframes', hwords'⟩ :=
    processBufferRewritesEverySample t ch0 ch1 p' ps' rest' (h0.trans hlen.symm) (h1.trans hlen.symm)
  rw [hlen] at hrun' hframes'
  refine ⟨s', t', hrun, hrun', memory_ext hwf hwf' (hframes'.trans hframes.symm) fun f hf => ?_⟩
  rw [hframes] at hf
  have hx0 := List.getElem?_eq_getElem (h0 ▸ hf)
  have hx1 := List.getElem?_eq_getElem (h1 ▸ hf)
  have hq : ps[f / 128 * 128]? = some ps[f / 128 * 128] := List.getElem?_eq_getElem (by omega)
  have hq' := (hps (f / 128 * 128) (by omega)).symm.trans hq
  obtain ⟨hs0, hs1⟩ := hwords f _ _ _ hx0 hx1 hq
  obtain ⟨ht0, ht1⟩ := hwords' f _ _ _ hx0 hx1 hq'
  rw [hs0, hs1, ht0, ht1, hcfg, hdraws]
  exact ⟨rfl, rfl⟩

end Sys2Proof.Machine
end

section
/-! SUPPORT. The three host errors, each refused by its name, and that every other event gives a next state (60_exceptions R118, R129). -/

namespace Sys2Proof.Machine

/-! ## Supplies that are refused -/

theorem supplyBuffer_refused_channelCount {channels : List (List Word)} (h : channels.length ≠ 2) (s : State) :
    supplyBuffer channels s = .refused .channelCount := by
  simp [supplyBuffer, channelCountOk, channelCount, h]

theorem supplyBuffer_refused_channelLengths {ch0 ch1 : List Word} (h : ch0.length ≠ ch1.length) (s : State) :
    supplyBuffer [ch0, ch1] s = .refused .channelLengths := by
  simp [supplyBuffer, channelCountOk, channelCount, channelLengthsOk, h.symm]

/-- A callback stops where its supply does, and its BEGIN is not issued. -/
theorem runCallback_refused {channels : List (List Word)} {s : State} {r : Refusal}
    (h : supplyBuffer channels s = .refused r) (p : BitVec 97) : runCallback channels p s = .refused r := by
  rw [runCallback, h]

/-- With BEGIN or without, a step on a buffer that is refused is refused under the same name. -/
theorem step_refused_of_supplyBuffer {s : State} {channels : List (List Word)} {p : BitVec 97} {rest : List HostEvent}
    {r : Refusal} (hs : s.script = .callback channels p :: rest ∨ s.script = .supply channels :: rest)
    (h : supplyBuffer channels (s.setScript rest) = .refused r) : step s = .refused r := by
  obtain hs | hs := hs
  · exact (step_eq_runEvent hs).trans (runCallback_refused h p)
  · exact (step_eq_runEvent hs).trans h

/-! ## Events that complete -/

theorem runCallback_of_ok {channels : List (List Word)} (hc : channelCountOk channels = true)
    (hl : channelLengthsOk channels = true) (p : BitVec 97) (s : State) : ∃ t, runCallback channels p s = .next t := by
  rw [runCallback, supplyBuffer_of_ok hc hl]
  exact ⟨_, transact_command _ _ _⟩

/-- The converse of `transaction_ne_hostError`: an event that is no host error completes. -/
theorem step_completes_of_ne_hostError {s : State} (h : s.transaction ≠ .hostError) : ∃ t, step s = .next t := by
  cases hs : s.script with
  | nil => exact ⟨s.idle, by rw [step, hostStep, hs]⟩
  | cons e rest =>
    cases e with
    | present rst c p =>
      cases rst with
      | true => exact ⟨_, step_present_reset hs⟩
      | false => exact ⟨_, step_present_command hs⟩
    | supply channels =>
      obtain ⟨hc, hl⟩ : channelCountOk channels = true ∧ channelLengthsOk channels = true := by
        simpa [State.transaction, hs] using h
      exact ⟨_, (step_eq_runEvent hs).trans (supplyBuffer_of_ok hc hl _)⟩
    | callback channels p =>
      obtain ⟨hc, hl⟩ : channelCountOk channels = true ∧ channelLengthsOk channels = true := by
        simpa [State.transaction, hs] using h
      obtain ⟨t, ht⟩ := runCallback_of_ok hc hl p (s.setScript rest)
      exact ⟨t, (step_eq_runEvent hs).trans ht⟩
    | frameAt f p =>
      simp only [State.transaction, hs] at h
      split at h
      · next x0 x1 h0 h1 =>
        obtain ⟨b, y, -, hstep, -⟩ := step_frameAt_legal hs h0 h1
        exact ⟨_, hstep⟩
      · exact absurd rfl h

end Sys2Proof.Machine
end

section
/-! The obligation about stops (60_exceptions). -/

namespace Sys2Proof.Machine

/-- Settles O21: there is no fault to answer (its type is empty), a step completes exactly if its event is no host error, and each
host error is refused where the interface checks for it. -/
theorem onlyHostErrorsAreRefused : Obligations.OnlyHostErrorsAreRefused := by
  refine ⟨nofun, fun s => ⟨fun ⟨_, h⟩ => transaction_ne_hostError h, step_completes_of_ne_hostError⟩,
    fun s channels p rest hs hcount => ?_, fun s ch0 ch1 p rest hs hlen => ?_, fun s f p rest hs hread => ?_⟩
  · exact step_refused_of_supplyBuffer hs (supplyBuffer_refused_channelCount hcount _)
  · exact step_refused_of_supplyBuffer hs (supplyBuffer_refused_channelLengths hlen _)
  · exact (step_eq_runEvent hs).trans (runFrameAt_refused p hread)

end Sys2Proof.Machine
end

section
/-! SUPPORT. A reset and the FRAME after it (70_reset_and_hazards R130, R131), and PROCESS_BUFFER by a host that skips BEGIN
(R134): which snapshot each turn computes with, and what the turns leave. -/

namespace Sys2Proof.Machine

/-- A run of the model begins with a step of the model. -/
theorem core_run_succ_of_step {s u : State} (h : step s = .next u) (k : Nat) : core.run (k + 1) s = core.run k u := by
  have hcore : core.step s = .next u := h
  exact run_succ_of_step hcore k

/-! ## The FRAME after a reset -/

/-- A FRAME presented at `POS = 0` captures its own bundle and computes with it, and passes the buffer by. -/
theorem step_frame_captures {s : State} {c : BitVec 66} {p : BitVec 97} {rest : List HostEvent} {x0 x1 : Word}
    (hs : s.script = .present false c p :: rest) (hc : decode c = .frame x0 x1) (hpos : s.pos = 0#7) :
    ∃ t : State, step s = .next t ∧ t.snapshot = unpackP p ∧ t.pos = 1#7 ∧
      t.out = some (outputsOf s.cfg.subnormal s.draws x0 x1 (unpackP p)) ∧ t.buf = s.buf := by
  have hparams : ((s.setScript rest).setInP (unpackP p)).frameParams = unpackP p := frameParams_of_pos_zero hpos
  refine ⟨_, step_present_command hs, ?_⟩
  rw [hc, snapshot_afterCommand_frame, out_afterCommand_frame, hparams]
  refine ⟨rfl, ?_, rfl, afterCommand_buf _ _⟩
  calc s.pos + 1#7 = 0#7 + 1#7 := by rw [hpos]
    _ = 1#7 := by decide

/-! ## The snapshot of each turn from inside a sub-block -/

/-- Up to the end of the sub-block it begins in, a turn computes with the snapshot that was held. -/
theorem snapshotAfter_eq_held {k : Nat} (hk : k ≠ 0) (q : Params) (ps : List (BitVec 97)) {n : Nat} (hn : k + n ≤ 128) :
    snapshotAfter k q ps n = q := by
  induction n with
  | zero => rfl
  | succ n ih =>
    have hinside : (k + n) % 128 ≠ 0 := by omega
    rw [snapshotAfter, if_neg hinside]
    exact ih (by omega)

/-- From the first start of a sub-block on, a turn computes with the bundle of the first frame of its sub-block, wherever in a
sub-block the turns began. -/
theorem snapshotAfter_eq_countedSubBlockStart {k f : Nat} (hk : k < 128) (hf : k = 0 ∨ 128 ≤ k + f) (q : Params)
    (ps : List (BitVec 97)) : snapshotAfter k q ps (f + 1) = unpackP (ps.getD ((k + f) / 128 * 128 - k) 0) := by
  induction f with
  | zero =>
    obtain rfl : k = 0 := by omega
    rfl
  | succ f ih =>
    rw [snapshotAfter]
    split
    · rw [show (k + (f + 1)) / 128 * 128 - k = f + 1 by omega]
    · rw [ih (by omega), show (k + (f + 1)) / 128 * 128 = (k + f) / 128 * 128 by omega]

/-! ## The procedure without BEGIN -/

/-- A supply leaves its fresh buffer, and `POS` and the snapshot as the block held them. -/
theorem step_supply {s : State} {ch0 ch1 : List Word} {rest : List HostEvent} (hs : s.script = .supply [ch0, ch1] :: rest)
    (hlen : ch0.length = ch1.length) :
    ∃ u : State, step s = .next u ∧ u.script = rest ∧ u.pos = s.pos ∧ u.snapshot = s.snapshot ∧ u.buf = ⟨ch0, ch1⟩ ∧
      u.cfg = s.cfg ∧ u.draws = s.draws := by
  obtain ⟨-, -, -, hsupply, -⟩ := stepRunsTheDecodedCommand
  exact ⟨_, hsupply s ch0 ch1 rest hs hlen, rfl, rfl, rfl, rfl, rfl, rfl⟩

/-- The fresh buffer alone, and then one turn for each frame. -/
theorem run_processBufferSkippingBegin (s : State) {ch0 ch1 : List Word} {ps : List (BitVec 97)} (rest : List HostEvent)
    (h0 : ch0.length = ps.length) (h1 : ch1.length = ps.length) :
    ∃ u t : State,
      core.run (ps.length + 1) { s with script := processBufferSkippingBegin ch0 ch1 ps ++ rest } = .next t ∧
      u.pos = s.pos ∧ u.snapshot = s.snapshot ∧ u.buf = ⟨ch0, ch1⟩ ∧ u.cfg = s.cfg ∧ u.draws = s.draws ∧
      AfterTurns u ps rest ps.length t := by
  obtain ⟨u, hstep, hscript, hpos, hsnapshot, hbuf, hcfg, hdraws⟩ :=
    step_supply (s := { s with script := processBufferSkippingBegin ch0 ch1 ps ++ rest }) rfl (h0.trans h1.symm)
  obtain ⟨t, hrun, ht⟩ := run_turns hscript (by simp [hbuf, Memory.wf, h0, h1]) (by rw [hbuf]; exact h0) le_rfl
  exact ⟨u, t, (core_run_succ_of_step hstep _).trans hrun, hpos, hsnapshot, hbuf, hcfg, hdraws, ht⟩

end Sys2Proof.Machine
end

section
/-! The obligations about a reset between FRAMEs and about the hazard of a skipped BEGIN (70_reset_and_hazards). -/

namespace Sys2Proof.Machine

/-- Settles O9: the reset leaves `POS` at 0, and there the FRAME captures. -/
theorem frameAfterResetCaptures : Obligations.FrameAfterResetCaptures := by
  intro s c c' p p' rest x0 x1 hs hc
  have hreset := step_present_reset hs
  obtain ⟨t, hstep, ht⟩ := step_frame_captures
    (s := ((s.setScript (.present false c' p' :: rest)).setInP (unpackP p)).resetBlock) rfl hc rfl
  exact ⟨t, (core_run_succ_of_step hreset 1).trans (core_run_succ_of_step hstep 0), ht⟩

/-- Settles O60: a supply leaves `POS` and the snapshot, so that the turns before the first start of a sub-block hold the old
snapshot and every later one has the bundle of its sub-block's first frame. -/
theorem skippedBeginContinuesSubBlock : Obligations.SkippedBeginContinuesSubBlock := by
  intro s ch0 ch1 ps rest h0 h1
  obtain ⟨u, t, hrun, hpos, hsnapshot, hbuf, hcfg, hdraws, ht⟩ := run_processBufferSkippingBegin s rest h0 h1
  refine ⟨t, hrun, by simpa [frameEvents] using ht.script, ht.cfg.trans hcfg, hpos ▸ ht.pos, ht.wf, ht.frames,
    fun f x0 x1 q hx0 hx1 hq => ?_⟩
  have hq' : snapshotAfter s.pos.toNat s.snapshot ps (f + 1) = q := by
    obtain ⟨hne, hlt, rfl⟩ | ⟨hwrap, b, hb, rfl⟩ := hq
    · exact snapshotAfter_eq_held hne _ _ hlt
    · rw [snapshotAfter_eq_countedSubBlockStart s.pos.isLt hwrap, List.getD_eq_getElem?_getD, hb, Option.getD_some]
  have hf : f < ps.length := h0 ▸ (List.getElem?_eq_some_iff.mp hx0).1
  have hdone := ht.done f hf x0 x1 (by rw [hbuf]; exact hx0) (by rw [hbuf]; exact hx1)
  rwa [hpos, hsnapshot, hq', hcfg, hdraws] at hdone

end Sys2Proof.Machine
end

section
/-! The obligation about the packets and bundles that 95_test_vectors prints. -/

namespace Sys2Proof.Machine

theorem decode_eq_of_eq_encode {c : BitVec 66} {i : Instr} (h : c = encode i) : decode c = i :=
  h ▸ decode_encode i

theorem unpackP_eq_of_eq_packP {b : BitVec 97} {p : Params} (h : b = packP p) : unpackP b = p :=
  h ▸ unpackP_packP p

/-- Settles O3: each printed packet is the encoding of its line's command, and each printed bundle the packing of its line's
parameter values; the round trips do the rest. -/
theorem printedPacketsDecode : Obligations.PrintedPacketsDecode := by
  unfold Obligations.PrintedPacketsDecode
  iterate 12 refine ⟨decode_eq_of_eq_encode rfl, ?_⟩
  iterate 5 refine ⟨unpackP_eq_of_eq_packP rfl, ?_⟩
  exact unpackP_eq_of_eq_packP rfl

end Sys2Proof.Machine
end
